-- ==== Sys2Proof/Word.lean ====
section
/-! DEFINITION. The words of the RGI raster block: bytes of a byte buffer and 32-bit register words
(spec 00_scope R10, R12; 10_state R28). Numbers the spec computes with are unbounded integers (R11) and are
`Nat` or `Int`, not words. -/

namespace Sys2Proof

/-- One byte of a byte buffer (R12). -/
abbrev Byte := BitVec 8

/-- One 32-bit register or command word (R28, R90). -/
abbrev Word := BitVec 32

/-- A byte buffer: a finite sequence of bytes (R12, R29). -/
abbrev Buffer := List Byte

end Sys2Proof
end

