-- ==== Sys2Proof/Syntax.lean ====
section
/-! DEFINITION. The eleven commands of the block (spec 30_encoding R91, R93, R94), one constructor per row of
opcode_table.json, and the two reasons a command word is no command (R95, R96). -/

namespace Sys2Proof

/-- The number of a byte slot `B[n]` (R92: 0 to 15, used as it stands). -/
abbrev BSlot := Nat

/-- The number of a frame slot `F[n]` (R92). -/
abbrev FSlot := Nat

/-- One command with its operands, in the order of the assembler notation of R100: the destination first. -/
inductive Instr where
  /-- DECBMP Fd, Ba (R121) -/
  | decbmp (fd : FSlot) (ba : BSlot)
  /-- ENCBMP Bd, Fa, #BU or #TD (R135) -/
  | encbmp (bd : BSlot) (fa : FSlot) (td : Bool)
  /-- DECPCX Fd, Ba (R151) -/
  | decpcx (fd : FSlot) (ba : BSlot)
  /-- GRAY Fd, Fa (R175) -/
  | gray (fd fa : FSlot)
  /-- BORDER Fd, Fa (R180) -/
  | border (fd fa : FSlot)
  /-- ROT90 Fd, Fa (R185) -/
  | rot90 (fd fa : FSlot)
  /-- SCALE Fd, Fa with the factor ARG0/ARG1 (R190) -/
  | scale (fd fa : FSlot)
  /-- OVERLAY Fd, Fa (background), Fb (logo) with the weight ARG0/ARG1 (R200) -/
  | overlay (fd fa fb : FSlot)
  /-- EMBED Bd, Ba (container), Bb (payload); `imm3` is bitsPerByte/2 when legal (R97, R213) -/
  | embed (bd ba bb : BSlot) (imm3 : Nat)
  /-- EXTRACT Bd, Ba (container); `imm3` is bitsPerByte/2 when legal (R97, R216) -/
  | extract (bd ba : BSlot) (imm3 : Nat)
  /-- QUANT Fd, Fa, Bb (RGBA rendering) with K = ARG0 (R241) -/
  | quant (fd fa : FSlot) (bb : BSlot)
deriving DecidableEq, Repr

/-- Why a command word encodes no command. -/
inductive DecodeError where
  /-- OPC is 0 or 12..15 (R95); the machine reports it as detail 0x40. -/
  | reservedOpcode
  /-- A reserved or unused field is not 0 (R96); the machine reports it as detail 0x41. -/
  | reservedField
deriving DecidableEq, Repr

end Sys2Proof
end

