-- ==== Sys2Proof/WellFormed.lean ====
section
/-! DEFINITION. The commands a command word can hold: every slot number fits its 4-bit field and every `IMM3`
its 3-bit field (spec 30_encoding R91, R92). An `IMM3` that fits but is illegal for EMBED or EXTRACT is
well-formed: the command runs and ends with detail 0x44 (R97). -/

namespace Sys2Proof

/-- A slot number fits a 4-bit field (R91, R92). -/
def fitsSlotField (n : Nat) : Bool := n < 16

/-- An immediate fits the 3-bit field IMM3 (R91, R92). -/
def fitsImm3 (n : Nat) : Bool := n < 8

/-- The command's operands fit its command word. -/
def Instr.wf : Instr → Bool
  | .decbmp fd ba => fitsSlotField fd && fitsSlotField ba
  | .encbmp bd fa _ => fitsSlotField bd && fitsSlotField fa
  | .decpcx fd ba => fitsSlotField fd && fitsSlotField ba
  | .gray fd fa => fitsSlotField fd && fitsSlotField fa
  | .border fd fa => fitsSlotField fd && fitsSlotField fa
  | .rot90 fd fa => fitsSlotField fd && fitsSlotField fa
  | .scale fd fa => fitsSlotField fd && fitsSlotField fa
  | .overlay fd fa fb => fitsSlotField fd && fitsSlotField fa && fitsSlotField fb
  | .embed bd ba bb imm3 => fitsSlotField bd && fitsSlotField ba && fitsSlotField bb && fitsImm3 imm3
  | .extract bd ba imm3 => fitsSlotField bd && fitsSlotField ba && fitsImm3 imm3
  | .quant fd fa bb => fitsSlotField fd && fitsSlotField fa && fitsSlotField bb

end Sys2Proof
end

