-- ==== Sys2Proof/Decode.lean ====
section
/-! DEFINITION. Decoding of a command word, total on every 32-bit value (spec 30_encoding R91, R93 to R98), and
the encoder. The order of the two tests is that of 60_exceptions R267: the opcode first, then the reserved and
unused fields. Slot ranges and operand values are checked when the command runs, not here. -/

namespace Sys2Proof

/-- `v[hi:lo]` as an unsigned number (00_scope R10). -/
def bits (v hi lo : Nat) : Nat := v / 2 ^ lo % 2 ^ (hi + 1 - lo)

/-- The opcodes of R95 that select no command. -/
def opcodeReserved (opc : Nat) : Bool := opc == 0 || (12 ≤ opc && opc ≤ 15)

/-- The command that opcode `opc` with these field values stands for; `none` when a field the opcode does not
use is not 0 (R93, R96). -/
def commandOf (opc rd ra rb imm3 : Nat) : Option Instr :=
  match opc with
  | 1 => if rb = 0 ∧ imm3 = 0 then some (.decbmp rd ra) else none
  | 2 => if rb = 0 ∧ bits imm3 2 1 = 0 then some (.encbmp rd ra (bits imm3 0 0 == 1)) else none
  | 3 => if rb = 0 ∧ imm3 = 0 then some (.decpcx rd ra) else none
  | 4 => if rb = 0 ∧ imm3 = 0 then some (.gray rd ra) else none
  | 5 => if rb = 0 ∧ imm3 = 0 then some (.border rd ra) else none
  | 6 => if rb = 0 ∧ imm3 = 0 then some (.rot90 rd ra) else none
  | 7 => if rb = 0 ∧ imm3 = 0 then some (.scale rd ra) else none
  | 8 => if imm3 = 0 then some (.overlay rd ra rb) else none
  | 9 => some (.embed rd ra rb imm3)
  | 10 => if rb = 0 then some (.extract rd ra imm3) else none
  | 11 => if imm3 = 0 then some (.quant rd ra rb) else none
  | _ => none

/-- The command a word encodes, or why it encodes none. -/
def decode (w : Word) : Except DecodeError Instr :=
  let v := w.toNat
  if opcodeReserved (bits v 3 0) then .error .reservedOpcode
  else if bits v 31 19 ≠ 0 then .error .reservedField
  else match commandOf (bits v 3 0) (bits v 7 4) (bits v 11 8) (bits v 15 12) (bits v 18 16) with
    | some i => .ok i
    | none => .error .reservedField

/-- A word from its five fields, ZERO = 0 (R91). -/
def assemble (opc rd ra rb imm3 : Nat) : Word :=
  BitVec.ofNat 32 (opc + 2 ^ 4 * rd + 2 ^ 8 * ra + 2 ^ 12 * rb + 2 ^ 16 * imm3)

/-- The command word of a well-formed command (R91, R93, R94). -/
def encode : Instr → Word
  | .decbmp fd ba => assemble 1 fd ba 0 0
  | .encbmp bd fa td => assemble 2 bd fa 0 td.toNat
  | .decpcx fd ba => assemble 3 fd ba 0 0
  | .gray fd fa => assemble 4 fd fa 0 0
  | .border fd fa => assemble 5 fd fa 0 0
  | .rot90 fd fa => assemble 6 fd fa 0 0
  | .scale fd fa => assemble 7 fd fa 0 0
  | .overlay fd fa fb => assemble 8 fd fa fb 0
  | .embed bd ba bb imm3 => assemble 9 bd ba bb imm3
  | .extract bd ba imm3 => assemble 10 bd ba 0 imm3
  | .quant fd fa bb => assemble 11 fd fa bb 0

/-- What the decoder reads from a command word given as a number, bit 0 least significant, with every bit from
`nbits` on equal to 0. A command is one 32-bit word written whole to `CMD` (R90), so no byte order enters. -/
def decodeTableWord (nbits w : Nat) : Option Instr :=
  match decode (BitVec.ofNat 32 (w % 2 ^ nbits)) with
  | .ok i => some i
  | .error _ => none

end Sys2Proof
end

