-- ==== Sys2Proof/Config.lean ====
section
/-! DEFINITION. What an implementation of the block fixes (spec 00_scope R8), and the one free value: the
entropy bytes of BORDER. -/

namespace Sys2Proof

/-- The two legal widths of the steganographic length header (00_scope R8 `HEADER_BITS`, 43_stego R211). -/
inductive HeaderWidth where
  | bits32
  | bits64
deriving DecidableEq, Repr

/-- What a bus address can stand for: a register by number, the window of a slot, the tables (20_memory R71). -/
inductive BusTarget where
  /-- The register of this number (10_state R28). -/
  | reg (n : Nat)
  /-- The window of this byte slot. -/
  | byteSlot (b : Nat)
  /-- The window of this frame slot. -/
  | frameSlot (f : Nat)
  /-- HIST and LUT. -/
  | tables
deriving DecidableEq, Repr

/-- The OPEN parameters that are not slot counts (R8). `fbCap = none` is "unbounded".
The slot counts `N_BSLOT`, `N_FSLOT` are the lengths of the slot lists of State. -/
structure Params where
  /-- `BUF_CAP`, the largest length of a byte buffer. -/
  bufCap : Nat
  /-- `FB_CAP`, the largest sample count W·H of a frame. -/
  fbCap : Option Nat
  /-- `HEADER_BITS`. -/
  header : HeaderWidth
  /-- `REG_MAP`: what is mapped, each with its bus address (R8, 20_memory R71). Any injective map, see
  `Machine.paramsLegal`; what it does not list has no bus address (log 8). -/
  regMap : List (BusTarget × Nat)
deriving DecidableEq, Repr

namespace Config

/-- The defaults of the OPEN parameters (R8; 92_eei_decisions, last table, where `REG_MAP` is "not used": nothing is
mapped). DESIGN CHOICE, logs 1 and 8. -/
def defaultParams : Params :=
  { bufCap := 2 ^ 32 - 1, fbCap := none, header := .bits32, regMap := [] }

/-- Default `N_BSLOT` (R8, D5). -/
def defaultByteSlots : Nat := 4

/-- Default `N_FSLOT` (R8, D5). -/
def defaultFrameSlots : Nat := 4

/-- The range of `N_BSLOT` and `N_FSLOT` (R8: "OPEN in 3..16"). -/
def minSlots : Nat := 3
/-- See `minSlots`. -/
def maxSlots : Nat := 16

/-- `DIM_MAX` (R8, D7). -/
def dimMax : Nat := 2 ^ 31 - 1

/-- `BORDER_W` (R8): the margin of BORDER in pixels. -/
def borderW : Nat := 15

/-- `Q_THRESHOLD` (R8): the squared distance a colour must exceed in the greedy pass. -/
def qThreshold : Nat := 4000

/-- `Q_K_DEFAULT` (R8): only the source's default argument; the block takes K from `ARG0` (44_quantizer R240). -/
def qKDefault : Nat := 16

/-- `LUMA_R`, over 1000 (R8, R176). -/
def lumaR : Nat := 299
/-- `LUMA_G`, over 1000 (R8, R176). -/
def lumaG : Nat := 587
/-- `LUMA_B`, over 1000 (R8, R176). -/
def lumaB : Nat := 114

/-- FREE VALUE (log 2). The byte the entropy source gives as its `n`-th draw when no byte was supplied for it
(10_state R40, 42_transform R182, 93 U8): nothing is known of it. -/
opaque freeEntropy : Nat → Byte

end Config

end Sys2Proof
end

