-- ==== Sys2Proof/Machine/State.lean ====
section
/-! DEFINITION. The state of the block (spec 10_state R20 to R46), as plain data, with the model's own fields for
what stands outside the block: the configuration, the entropy port, the host's actions not yet performed and the
values it has read (logs 1, 2, 3). Faults and refusals of a step. The state after reset (R43, R301). -/

namespace Sys2Proof.Machine

/-- The depth of a frame, bits per sample: `BMP_DEPTHS` (00_scope R8, 10_state R30). -/
inductive Depth where
  | d1
  | d4
  | d8
  | d24
  | d32
deriving DecidableEq, Repr

/-- A palette colour (R, G, B), each component 0 to 255 (00_scope R15, 10_state R33). -/
structure Colour where
  r : Byte
  g : Byte
  b : Byte
deriving DecidableEq, Repr

/-- The content of a valid frame slot (10_state R30). `palLen` is the length of `pal`; `data` is row-major, top
row first, sample (x, y) at `y·w + x` (R32). -/
structure Frame where
  w : Nat
  h : Nat
  depth : Depth
  pal : List Colour
  data : List Nat
deriving DecidableEq, Repr

/-- The byte slots and the frame slots (10_state R29, R30). `none` is a frame slot with `valid` = 0, whose other
fields hold no value (R30, R46). `N_BSLOT` and `N_FSLOT` are the lengths of the two lists. -/
structure Memory where
  bytes : List Buffer
  frames : List (Option Frame)
deriving DecidableEq, Repr

/-- The fields of STATUS (10_state R25); every other bit of the register reads 0 (`Status.word`). -/
structure Status where
  busy : Bool
  done : Bool
  err : Bool
  esticky : Bool
  qvalid : Bool
deriving DecidableEq, Repr

/-- The error kinds of ERR_KIND (10_state R26, 60_exceptions R261). -/
inductive ErrKind where
  | noKind
  | formatError
  | unsupportedFeature
  | capacityError
  | boundsError
  | commandError
deriving DecidableEq, Repr

/-- The causes of ERR_DETAIL, one constructor per row of 60_exceptions R262, in its order. -/
inductive Detail where
  /-- 0x00 -/
  | noError
  /-- 0x01: bytes 0-1 are not "BM", or fewer than 2 bytes -/
  | notBmSignature
  /-- 0x02: width ≤ 0 or height = 0 -/
  | badBmpGeometry
  /-- 0x03: byte 0 is not 0x0A, or the buffer is empty -/
  | notPcxId
  /-- 0x04: the byte at len − 769 is not 0x0C -/
  | noPaletteMarker
  /-- 0x05: xMax < xMin or yMax < yMin -/
  | badPcxGeometry
  /-- 0x10: compression ≠ 0 -/
  | compressedBmp
  /-- 0x11: bitsPerPixel not in 1, 4, 8, 24, 32 -/
  | badBmpDepth
  /-- 0x12: palette length > 256 -/
  | paletteTooLong
  /-- 0x13: encoding ≠ 1 -/
  | pcxNotRle
  /-- 0x14: bitsPerPixel ≠ 8 -/
  | pcxNotEightBit
  /-- 0x15: planes ≠ 1 -/
  | pcxNotOnePlane
  /-- 0x16: source frame depth not accepted by the command -/
  | depthNotAccepted
  /-- 0x20: len(container) < HB + PB -/
  | containerTooSmall
  /-- 0x30: buffer shorter than the 54-byte header -/
  | bmpHeaderShort
  /-- 0x31: palette runs past the end of the buffer -/
  | bmpPaletteShort
  /-- 0x32: pixelOffset + stride·H > len -/
  | bmpRowsShort
  /-- 0x33: buffer shorter than 897 bytes -/
  | pcxFileShort
  /-- 0x34: run-length data exhausted before the last row is complete -/
  | pcxDataExhausted
  /-- 0x35: bytesPerLine < width -/
  | pcxLineTooNarrow
  /-- 0x36: container shorter than the length header -/
  | containerNoHeader
  /-- 0x37: extracted length exceeds the remaining container -/
  | extractTooLong
  /-- 0x38: a pixel's index has no palette entry -/
  | indexWithoutColour
  /-- 0x40: reserved opcode -/
  | reservedOpcode
  /-- 0x41: a reserved or unused field of the command word is not 0 -/
  | reservedField
  /-- 0x42: a slot number is out of range -/
  | slotOutOfRange
  /-- 0x43: a source frame slot has valid = 0 -/
  | sourceFrameInvalid
  /-- 0x44: illegal operand -/
  | illegalOperand
  /-- 0x45: a result dimension rounds to 0 -/
  | zeroDimension
  /-- 0x46: the result exceeds DIM_MAX, FB_CAP, BUF_CAP or a 32-bit length field -/
  | capacityExceeded
  /-- 0x47: the payload length does not fit HEADER_BITS -/
  | lengthOverflow
deriving DecidableEq, Repr

/-- The BMP header latch BH_* (10_state R34), registers 0x10 to 0x1A. -/
structure BmpLatch where
  valid : Bool
  signature : Word
  fileSize : Word
  pixOff : Word
  hdrSize : Word
  width : Word
  height : Word
  bpp : Word
  comp : Word
  imgSize : Word
  palColors : Word
deriving DecidableEq, Repr

/-- The PCX header latch PH_* (10_state R35), registers 0x20 to 0x2A. -/
structure PcxLatch where
  valid : Bool
  id : Word
  version : Word
  encoding : Word
  bpp : Word
  xMin : Word
  yMin : Word
  xMax : Word
  yMax : Word
  planes : Word
  bpl : Word
deriving DecidableEq, Repr

/-- How the host uses a bus address (20_memory R71; log 8). -/
inductive BusAccess where
  | read
  | write (v : Word)
  /-- The content of a byte slot, through its window. -/
  | load (x : Buffer)
deriving DecidableEq, Repr

/-- What the outside can do to the block (10_state R44, 30_encoding R101, 10_state R40). -/
inductive HostAction where
  /-- Write a register by number (R28); a write to CMD starts a command (R23). -/
  | writeReg (n : Nat) (v : Word)
  /-- Read a register by number (R28). -/
  | readReg (n : Nat)
  /-- `HostLoad(s, X)` -/
  | load (s : BSlot) (x : Buffer)
  /-- `HostRead(s)` -/
  | readSlot (s : BSlot)
  /-- `HostFrame(s)` (R45) -/
  | readFrame (s : FSlot)
  /-- `HostTables()` -/
  | readTables
  /-- Use a bus address: the access by number of what `REG_MAP` puts there (R28, 20_memory R71; log 8). -/
  | atBus (addr : Nat) (x : BusAccess)
  /-- Assert reset (R300). -/
  | reset
  /-- The entropy source puts bytes at the port (R40, R306). Not an action of the host. -/
  | supplyEntropy (ent : List Byte)
deriving DecidableEq, Repr

/-- A value the host has read (70 R314). -/
inductive HostReply where
  | reg (n : Nat) (v : Word)
  | slot (s : BSlot) (x : Buffer)
  /-- `none` is "valid = 0 and nothing else" (R45). -/
  | frame (s : FSlot) (f : Option Frame)
  | tables (hist lut : List Nat)
deriving DecidableEq, Repr

/-- The state of the block, and the model's own fields for what stands outside it. -/
structure State where
  /-- Model's own: the configuration (R41); no step changes it (log 1). -/
  params : Params
  /-- CMD (R23) -/
  cmd : Word
  /-- ARG0 (R24) -/
  arg0 : Word
  /-- ARG1 (R24) -/
  arg1 : Word
  /-- STATUS (R25) -/
  status : Status
  /-- ERR_KIND (R26) -/
  errKind : ErrKind
  /-- ERR_DETAIL (R27) -/
  errDetail : Detail
  /-- B[] and F[] (R29, R30) -/
  mem : Memory
  /-- BH_* (R34) -/
  bh : BmpLatch
  /-- PH_* (R35) -/
  ph : PcxLatch
  /-- HIST[0..255] (R36) -/
  hist : List Nat
  /-- LUT[0..255] (R37) -/
  lut : List Nat
  /-- Model's own: bytes waiting at the entropy port, the next first (R40; log 2). -/
  entropy : List Byte
  /-- Model's own: how many entropy bytes were ever drawn, the index of the free bytes (log 2). -/
  entDrawn : Nat
  /-- Model's own: actions not yet performed, the next first (R21; log 3). -/
  pending : List HostAction
  /-- Model's own: what the host has read, the oldest first (R314; log 3). -/
  replies : List HostReply
deriving DecidableEq, Repr

/-- Why a step stops with a fault. -/
inductive Fault where
  /-- `HostRead` of a byte slot ≥ N_BSLOT: the address does not exist (20_memory R60). Raised by the host action
  only, never by a command. Safe. -/
  | noSuchByteSlot
  /-- `HostFrame` of a frame slot ≥ N_FSLOT: the address does not exist (20_memory R60). Raised by the host action
  only, never by a command. Safe. -/
  | noSuchFrameSlot
  /-- The host uses a bus address where `REG_MAP` puts nothing (20_memory R71; log 8). Raised by the host action
  only, never by a command. Safe. -/
  | noSuchBusAddress
deriving DecidableEq, Repr

/-- Why a step is refused. -/
inductive Refusal where
  /-- An instruction that has no meaning yet, by its mnemonic. No arm uses it. Safe. -/
  | notModelled (mnemonic : String)
  /-- A host action while BUSY = 1, which the spec gives no meaning (70 R304, 93 V13); no reachable state has
  BUSY = 1. Safe. -/
  | hostWhileBusy
  /-- `HostLoad` to a slot ≥ N_BSLOT or of a buffer longer than BUF_CAP: not a host operation (10_state R44,
  93 V14). Safe. -/
  | notAHostLoad
  /-- A bus access that what is mapped there does not have: a word written to a window, a buffer loaded to a
  register or a frame slot (10_state R44 lists every host operation; log 8). Safe. -/
  | notABusAccess
deriving DecidableEq, Repr

/-- STATUS after reset (R43). -/
def Status.initial : Status :=
  { busy := false, done := false, err := false, esticky := false, qvalid := false }

/-- The BMP latch after reset (R43). -/
def BmpLatch.initial : BmpLatch :=
  { valid := false, signature := 0, fileSize := 0, pixOff := 0, hdrSize := 0, width := 0, height := 0, bpp := 0,
    comp := 0, imgSize := 0, palColors := 0 }

/-- The PCX latch after reset (R43). -/
def PcxLatch.initial : PcxLatch :=
  { valid := false, id := 0, version := 0, encoding := 0, bpp := 0, xMin := 0, yMin := 0, xMax := 0, yMax := 0,
    planes := 0, bpl := 0 }

/-- A table after reset: 256 entries, all 0 (R36, R37, R43). -/
def zeroTable : List Nat := List.replicate 256 0

/-- The slots after reset, for slot counts `nb` and `nf`: every byte slot empty, every frame slot invalid (R43). -/
def Memory.initial (nb nf : Nat) : Memory :=
  { bytes := List.replicate nb [], frames := List.replicate nf none }

/-- The state the spec gives for reset (R43, R301), for any configuration, with nothing outside the block. -/
def State.initial (p : Params) (nb nf : Nat) : State :=
  { params := p
    cmd := 0
    arg0 := 0
    arg1 := 0
    status := Status.initial
    errKind := .noKind
    errDetail := .noError
    mem := Memory.initial nb nf
    bh := BmpLatch.initial
    ph := PcxLatch.initial
    hist := zeroTable
    lut := zeroTable
    entropy := []
    entDrawn := 0
    pending := []
    replies := [] }

/-- The machine right after reset (R43), with the default configuration (log 1). -/
def State.reset : State :=
  State.initial Config.defaultParams Config.defaultByteSlots Config.defaultFrameSlots

end Sys2Proof.Machine
end

