-- ==== Sys2Proof/Machine/Flags.lean ====
section
/-! DEFINITION. The status bits and the error codes: how STATUS, ERR_KIND and ERR_DETAIL read as words, and how
the start and the two ends of a command change STATUS (spec 10_state R25 to R27, R39; 60_exceptions R261, R262,
R270, R272, R273). These are the only flags of the block (R39). -/

namespace Sys2Proof.Machine

/-- STATUS as a register: BUSY, DONE, ERR, ESTICKY, QVALID at bits 0 to 4, bits 31:5 zero (R25). -/
def Status.word (st : Status) : Word :=
  BitVec.ofNat 32 (st.busy.toNat + 2 * st.done.toNat + 4 * st.err.toNat + 8 * st.esticky.toNat + 16 * st.qvalid.toNat)

/-- Starting a command: BUSY ← 1, DONE ← 0; the rest is left to its end (R273). -/
def Status.started (st : Status) : Status := { st with busy := true, done := false }

/-- A command ends with an error: BUSY ← 0, DONE ← 1, ERR ← 1, ESTICKY ← 1; QVALID keeps (R270). -/
def Status.failed (st : Status) : Status := { st with busy := false, done := true, err := true, esticky := true }

/-- A command ends without an error: BUSY ← 0, DONE ← 1, ERR ← 0; ESTICKY is left as it was (R272). -/
def Status.succeeded (st : Status) : Status := { st with busy := false, done := true, err := false }

/-- The code of a kind in ERR_KIND (R26, R261). -/
def ErrKind.code : ErrKind → Nat
  | .noKind => 0
  | .formatError => 1
  | .unsupportedFeature => 2
  | .capacityError => 3
  | .boundsError => 4
  | .commandError => 5

/-- The code of a cause in ERR_DETAIL (R27, R262). -/
def Detail.code : Detail → Nat
  | .noError => 0x00
  | .notBmSignature => 0x01
  | .badBmpGeometry => 0x02
  | .notPcxId => 0x03
  | .noPaletteMarker => 0x04
  | .badPcxGeometry => 0x05
  | .compressedBmp => 0x10
  | .badBmpDepth => 0x11
  | .paletteTooLong => 0x12
  | .pcxNotRle => 0x13
  | .pcxNotEightBit => 0x14
  | .pcxNotOnePlane => 0x15
  | .depthNotAccepted => 0x16
  | .containerTooSmall => 0x20
  | .bmpHeaderShort => 0x30
  | .bmpPaletteShort => 0x31
  | .bmpRowsShort => 0x32
  | .pcxFileShort => 0x33
  | .pcxDataExhausted => 0x34
  | .pcxLineTooNarrow => 0x35
  | .containerNoHeader => 0x36
  | .extractTooLong => 0x37
  | .indexWithoutColour => 0x38
  | .reservedOpcode => 0x40
  | .reservedField => 0x41
  | .slotOutOfRange => 0x42
  | .sourceFrameInvalid => 0x43
  | .illegalOperand => 0x44
  | .zeroDimension => 0x45
  | .capacityExceeded => 0x46
  | .lengthOverflow => 0x47

/-- The kind of a cause: the column "kind" of R262. -/
def Detail.kind : Detail → ErrKind
  | .noError => .noKind
  | .notBmSignature => .formatError
  | .badBmpGeometry => .formatError
  | .notPcxId => .formatError
  | .noPaletteMarker => .formatError
  | .badPcxGeometry => .formatError
  | .compressedBmp => .unsupportedFeature
  | .badBmpDepth => .unsupportedFeature
  | .paletteTooLong => .unsupportedFeature
  | .pcxNotRle => .unsupportedFeature
  | .pcxNotEightBit => .unsupportedFeature
  | .pcxNotOnePlane => .unsupportedFeature
  | .depthNotAccepted => .unsupportedFeature
  | .containerTooSmall => .capacityError
  | .bmpHeaderShort => .boundsError
  | .bmpPaletteShort => .boundsError
  | .bmpRowsShort => .boundsError
  | .pcxFileShort => .boundsError
  | .pcxDataExhausted => .boundsError
  | .pcxLineTooNarrow => .boundsError
  | .containerNoHeader => .boundsError
  | .extractTooLong => .boundsError
  | .indexWithoutColour => .boundsError
  | .reservedOpcode => .commandError
  | .reservedField => .commandError
  | .slotOutOfRange => .commandError
  | .sourceFrameInvalid => .commandError
  | .illegalOperand => .commandError
  | .zeroDimension => .commandError
  | .capacityExceeded => .commandError
  | .lengthOverflow => .commandError

/-- The detail a word that decodes to no command is reported with (R95, R96). -/
def detailOfDecodeError : DecodeError → Detail
  | .reservedOpcode => .reservedOpcode
  | .reservedField => .reservedField

end Sys2Proof.Machine
end

