-- ==== Sys2Proof/Machine/Operands.lean ====
section
/-! DEFINITION. The operand forms: bytes and little-endian fields of a byte buffer, samples and colours, rounded
rationals, bit sequences, and the gather form of the geometric commands (spec 00_scope R10 to R16, 10_state R32,
20_memory R64, R65, R79, 30_encoding R104, R105, R109). -/

namespace Sys2Proof.Machine

/-- `n` values of an index, in order: the list `[f 0, …, f (n-1)]`. -/
def tab {α : Type} (n : Nat) (f : Nat → α) : List α := (List.range n).map f

/-- The samples of a `w`×`h` raster in sample-address order: the value at address `y·w + x` is `f x y`
(10_state R32, 20_memory R79). -/
def raster {α : Type} (w h : Nat) (f : Nat → Nat → α) : List α := tab (w * h) fun a => f (a % w) (a / w)

/-- Round half up of the rational n/d (R11 `rhu`). -/
def rhu (n d : Nat) : Nat := (2 * n + d) / (2 * d)

/-- `ceil(a / b)` (R11). -/
def ceilDiv (a b : Nat) : Nat := (a + (b - 1)) / b

/-- Byte `i` of a buffer (R12). Every rule checks `i < len(X)` first; the value past the end is never used
(log 9). -/
def byteAt (X : Buffer) (i : Nat) : Byte := X.getD i 0

/-- The little-endian number in the `n` bytes at offset `o` (R13, R64). -/
def leRead (X : Buffer) (o : Nat) : Nat → Nat
  | 0 => 0
  | n + 1 => (byteAt X o).toNat + 256 * leRead X (o + 1) n

/-- `u16le(X, o)` (R13). -/
def u16le (X : Buffer) (o : Nat) : Nat := leRead X o 2

/-- `u32le(X, o)` (R13). -/
def u32le (X : Buffer) (o : Nat) : Nat := leRead X o 4

/-- `i32le(X, o)` (R13): the two's-complement reading. -/
def i32le (X : Buffer) (o : Nat) : Int :=
  if u32le X o < 2 ^ 31 then (u32le X o : Int) else (u32le X o : Int) - 2 ^ 32

/-- The `n` little-endian bytes of `v` (R13 `put_u16le`, `put_u32le`). -/
def leBytes : Nat → Nat → List Byte
  | 0, _ => []
  | n + 1, v => BitVec.ofNat 8 v :: leBytes n (v / 256)

/-- `put_u16le` (R13). -/
def put16 (v : Nat) : List Byte := leBytes 2 v

/-- `put_u32le` (R13). -/
def put32 (v : Nat) : List Byte := leBytes 4 v

/-- `put_i32le` (R13): the two's complement of a negative `v`. -/
def putI32 (v : Int) : List Byte := leBytes 4 (v % 2 ^ 32).toNat

/-- Bits per sample (R15, R30). -/
def Depth.bits : Depth → Nat
  | .d1 => 1
  | .d4 => 4
  | .d8 => 8
  | .d24 => 24
  | .d32 => 32

/-- The depth with this number of bits, if it is one of `BMP_DEPTHS` (00_scope R8, 90 C1). -/
def Depth.ofBits (n : Nat) : Option Depth :=
  match n with
  | 1 => some .d1
  | 4 => some .d4
  | 8 => some .d8
  | 24 => some .d24
  | 32 => some .d32
  | _ => none

/-- A frame of this depth has a palette (R30, R31: "present only when bitsPerPixel ≤ 8"). -/
def Depth.indexed (d : Depth) : Bool := d.bits ≤ 8

/-- The row stride of the BMP byte form, `floor((bpp·W + 31)/32)·4` (30_encoding R104). -/
def stride (d : Depth) (w : Nat) : Nat := (d.bits * w + 31) / 32 * 4

/-- The blue channel of a 24-bit sample (R15). -/
def bch (v : Nat) : Nat := bits v 7 0

/-- The green channel of a 24-bit sample (R15). -/
def gch (v : Nat) : Nat := bits v 15 8

/-- The red channel of a 24-bit sample (R15). -/
def rch (v : Nat) : Nat := bits v 23 16

/-- A 24-bit sample from its channels (R15). -/
def sample24 (b g r : Nat) : Nat := b + 2 ^ 8 * g + 2 ^ 16 * r

/-- Squared difference of two component values. -/
def sqDiff (a b : Byte) : Nat := ((a.toNat : Int) - (b.toNat : Int)).natAbs ^ 2

/-- The squared RGB distance `d2` (R15). -/
def d2 (p q : Colour) : Nat := sqDiff p.r q.r + sqDiff p.g q.g + sqDiff p.b q.b

/-- Black, (0, 0, 0). -/
def black : Colour := { r := 0, g := 0, b := 0 }

/-- The sample of pixel (x, y) (10_state R32). Every rule addresses only `x < w`, `y < h` (20_memory R62). -/
def Frame.px (P : Frame) (x y : Nat) : Nat := P.data.getD (y * P.w + x) 0

/-- The number of palette entries (R30). -/
def Frame.palLen (P : Frame) : Nat := P.pal.length

/-- `bitsMSB(X)` (R16): byte 0 first, bit 7 of each byte first. -/
def bitsMSB (X : Buffer) : List Bool := tab (8 * X.length) fun i => (byteAt X (i / 8)).getLsbD (7 - i % 8)

/-- The unsigned number of a run of bits, the first bit most significant (R109). -/
def msbVal (S : List Bool) : Nat := S.foldl (fun a b => 2 * a + b.toNat) 0

/-- The `n` bits of `S` from position `o` on, zero past the end ("zero-padding the final group", R109). -/
def bitRun (S : List Bool) (o n : Nat) : List Bool := tab n fun t => S.getD (o + t) false

/-- `groups(S, b)` (R109): consecutive runs of `b` bits as numbers, the last one zero-padded. -/
def groups (S : List Bool) (b : Nat) : List Nat := tab (ceilDiv S.length b) fun g => msbVal (bitRun S (g * b) b)

/-- `ungroups(G, b, n)` (R109): each group as `b` bits most significant first, the first `n` bits kept. -/
def ungroups (G : List Nat) (b n : Nat) : List Bool := tab n fun i => (G.getD (i / b) 0).testBit (b - 1 - i % b)

/-- `bytesMSB(S)` (R216), the inverse of `bitsMSB`: the first bit of each eight to bit 7. -/
def bytesMSB (S : List Bool) : Buffer := tab (S.length / 8) fun i => BitVec.ofNat 8 (msbVal (bitRun S (8 * i) 8))

/-- `HEADER_BITS` (R8, R211). -/
def headerBits : HeaderWidth → Nat
  | .bits32 => 32
  | .bits64 => 64

end Sys2Proof.Machine
end

