-- ==== Sys2Proof/Machine/Ops.lean ====
section
/-! DEFINITION. The shared operations: reading and replacing slots, the checks of a command, the one error entry
(`raise`, spec 60_exceptions R270) and the one successful completion (`succeed`, R272), starting a command (R23,
R273), the entropy port (10_state R40), and reset (70 R300, R301). -/

namespace Sys2Proof.Machine

/-! ### Slots -/

/-- `B[b]`; none when there is no such slot. -/
def Memory.buf? (m : Memory) (b : BSlot) : Option Buffer := m.bytes[b]?

/-- `B[b]` of a slot that exists. -/
def Memory.buf (m : Memory) (b : BSlot) : Buffer := m.bytes.getD b []

/-- `F[f]`; none when the slot is not valid or does not exist. -/
def Memory.frame? (m : Memory) (f : FSlot) : Option Frame := m.frames.getD f none

/-- Byte `o` of byte slot `b`; none at an address that does not exist (20_memory R60, R61). -/
def Memory.byte? (m : Memory) (b : BSlot) (o : Nat) : Option Byte := (m.buf b)[o]?

/-- Replace byte slot `b` as a whole (10_state R29). -/
def Memory.setBuf (m : Memory) (b : BSlot) (X : Buffer) : Memory := { m with bytes := m.bytes.set b X }

/-- Replace frame slot `f` as a whole (10_state R30). -/
def Memory.setFrame (m : Memory) (f : FSlot) (P : Frame) : Memory := { m with frames := m.frames.set f (some P) }

/-- `N_BSLOT` (R8). -/
def State.nBslot (s : State) : Nat := s.mem.bytes.length

/-- `N_FSLOT` (R8). -/
def State.nFslot (s : State) : Nat := s.mem.frames.length

def State.setBuf (s : State) (b : BSlot) (X : Buffer) : State := { s with mem := s.mem.setBuf b X }

def State.setFrame (s : State) (f : FSlot) (P : Frame) : State := { s with mem := s.mem.setFrame f P }

def State.setBmpLatch (s : State) (l : BmpLatch) : State := { s with bh := l }

def State.setPcxLatch (s : State) (l : PcxLatch) : State := { s with ph := l }

/-- HIST and LUT are written and QVALID set (10_state R36 to R38). -/
def State.setTables (s : State) (hist lut : List Nat) : State :=
  { s with hist := hist, lut := lut, status := { s.status with qvalid := true } }

/-! ### The entropy port -/

/-- Byte `k` of the sequence the entropy source gives this command: the bytes waiting at the port, then free
bytes (10_state R40, 42_transform R182, 70 R306; log 2). -/
def State.ent (s : State) (k : Nat) : Byte := (s.entropy[k]?).getD (Config.freeEntropy (s.entDrawn + k))

/-- `n` bytes leave the port (42_transform R180). -/
def State.drawEntropy (s : State) (n : Nat) : State :=
  { s with entropy := s.entropy.drop n, entDrawn := s.entDrawn + n }

/-! ### Ending a command -/

/-- ERROR ENTRY, the one description of `raise Kind(detail)` (60_exceptions R270): these writes and no others. -/
def raise (d : Detail) (s : State) : State :=
  { s with errKind := d.kind, errDetail := d, status := s.status.failed }

/-- SUCCESSFUL COMPLETION (60_exceptions R272): the status writes that go with a commit. -/
def succeed (s : State) : State :=
  { s with errKind := .noKind, errDetail := .noError, status := s.status.succeeded }

/-- The end of a command: the error met, or its commit, from the state `s` it started in (R69, R270, R272). There
is no return (R273): the engine is idle afterwards. -/
def conclude (s : State) (r : Except Detail State) : Host.Outcome State Fault Refusal :=
  match r with
  | .error d => .next (raise d s)
  | .ok t => .next (succeed t)

/-- A check of a command: when `c` does not hold the command ends with detail `d` (R266: the first one met). -/
@[inline] def need {α : Type} (c : Prop) [Decidable c] (d : Detail) (k : Except Detail α) : Except Detail α :=
  if c then k else .error d

/-! ### Command-level checks (60_exceptions R267) -/

/-- Step 3: every named slot exists, else 0x42. -/
@[inline] def needSlots {α : Type} (s : State) (bs : List BSlot) (fs : List FSlot) (k : Except Detail α) : Except Detail α :=
  need ((∀ b ∈ bs, b < s.nBslot) ∧ ∀ f ∈ fs, f < s.nFslot) .slotOutOfRange k

/-- Step 4: the source frame slot `f` is valid, else 0x43; its frame goes to `k` (R46). -/
@[inline] def withFrame {α : Type} (s : State) (f : FSlot) (k : Frame → Except Detail α) : Except Detail α :=
  match s.mem.frame? f with
  | some P => k P
  | none => .error .sourceFrameInvalid

/-- Commit of a command whose result is one frame. -/
def storeFrame (s : State) (f : FSlot) (r : Except Detail Frame) : Except Detail State :=
  match r with
  | .ok Q => .ok (s.setFrame f Q)
  | .error d => .error d

/-- Commit of a command whose result is one byte buffer. -/
def storeBuf (s : State) (b : BSlot) (r : Except Detail Buffer) : Except Detail State :=
  match r with
  | .ok Y => .ok (s.setBuf b Y)
  | .error d => .error d

/-! ### Capacity (10_state R31) -/

/-- A sample count is within `FB_CAP` (R8). -/
def samplesFit (p : Params) (n : Nat) : Bool :=
  match p.fbCap with
  | none => true
  | some c => n ≤ c

/-- The dimensions of a frame are within `DIM_MAX` and `FB_CAP` (R31). -/
def frameFits (p : Params) (w h : Nat) : Bool :=
  w ≤ Config.dimMax && h ≤ Config.dimMax && samplesFit p (w * h)

/-- The invariants of a valid frame slot (R31). -/
def Frame.wf (p : Params) (P : Frame) : Bool :=
  1 ≤ P.w && 1 ≤ P.h && frameFits p P.w P.h &&
    (if P.depth.indexed then 1 ≤ P.palLen && P.palLen ≤ 256 else P.palLen = 0) &&
    P.data.length = P.w * P.h && P.data.all fun v => v < 2 ^ P.depth.bits

/-- The form of the slot store: the slot counts are legal (R8), every buffer is within `BUF_CAP` (R29), every
valid frame keeps R31. -/
def Memory.wf (p : Params) (m : Memory) : Bool :=
  Config.minSlots ≤ m.bytes.length && m.bytes.length ≤ Config.maxSlots &&
    Config.minSlots ≤ m.frames.length && m.frames.length ≤ Config.maxSlots &&
    (m.bytes.all fun X => X.length ≤ p.bufCap) &&
    m.frames.all fun f => match f with
      | none => true
      | some P => P.wf p

/-! ### Registers (10_state R23 to R28, R34, R35) -/

/-- A flag as a register word: bit 0, the rest 0. -/
def boolWord (b : Bool) : Word := BitVec.ofNat 32 b.toNat

/-- A register read by number (R28); reserved numbers read 0. A read changes nothing (20_memory R70). -/
def readReg (s : State) (n : Nat) : Word :=
  match n with
  | 0x00 => s.cmd
  | 0x01 => s.arg0
  | 0x02 => s.arg1
  | 0x03 => s.status.word
  | 0x04 => BitVec.ofNat 32 s.errKind.code
  | 0x05 => BitVec.ofNat 32 s.errDetail.code
  | 0x10 => boolWord s.bh.valid
  | 0x11 => s.bh.signature
  | 0x12 => s.bh.fileSize
  | 0x13 => s.bh.pixOff
  | 0x14 => s.bh.hdrSize
  | 0x15 => s.bh.width
  | 0x16 => s.bh.height
  | 0x17 => s.bh.bpp
  | 0x18 => s.bh.comp
  | 0x19 => s.bh.imgSize
  | 0x1A => s.bh.palColors
  | 0x20 => boolWord s.ph.valid
  | 0x21 => s.ph.id
  | 0x22 => s.ph.version
  | 0x23 => s.ph.encoding
  | 0x24 => s.ph.bpp
  | 0x25 => s.ph.xMin
  | 0x26 => s.ph.yMin
  | 0x27 => s.ph.xMax
  | 0x28 => s.ph.yMax
  | 0x29 => s.ph.planes
  | 0x2A => s.ph.bpl
  | _ => 0

/-- A register write other than to CMD: ARG0 and ARG1 take the value, every other number ignores it (R24, R28). -/
def writeDataReg (s : State) (n : Nat) (v : Word) : State :=
  match n with
  | 0x01 => { s with arg0 := v }
  | 0x02 => { s with arg1 := v }
  | _ => s

/-- The start of a command: CMD takes the word, BUSY ← 1, DONE ← 0 (R23, R273). -/
def startCommand (w : Word) (s : State) : State := { s with cmd := w, status := s.status.started }

/-- RESET (70 R300, R301): every piece of the block's state takes the value of 10_state R43. What is not state of
the block keeps: the configuration, the entropy port, the host's actions and what it has read. -/
def resetBlock (s : State) : State :=
  { State.initial s.params s.nBslot s.nFslot with
    entropy := s.entropy, entDrawn := s.entDrawn, pending := s.pending, replies := s.replies }

end Sys2Proof.Machine
end

