-- ==== Sys2Proof/Machine/Bmp.lean ====
section
/-! DEFINITION. DECBMP and ENCBMP (spec 40_bmp_codec R120 to R141; layouts 30_encoding R102 to R105). -/

namespace Sys2Proof.Machine

/-- The sample of pixel `x` in the row that starts at offset `rb` (30_encoding R105). -/
def bmpSample (X : Buffer) (rb x : Nat) : Depth → Nat
  | .d1 => bits (byteAt X (rb + x / 8)).toNat (7 - x % 8) (7 - x % 8)
  | .d4 => if x % 2 = 0 then bits (byteAt X (rb + x / 2)).toNat 7 4 else bits (byteAt X (rb + x / 2)).toNat 3 0
  | .d8 => (byteAt X (rb + x)).toNat
  | .d24 => sample24 (byteAt X (rb + 3 * x)).toNat (byteAt X (rb + 3 * x + 1)).toNat (byteAt X (rb + 3 * x + 2)).toNat
  | .d32 => u32le X (rb + 4 * x)

/-- The number of palette entries of a BMP file (R125): the field paletteColors, or 2^bpp when it is 0; none above
8 bits per pixel. -/
def bmpPalLen (d : Depth) (palc : Nat) : Nat :=
  if d.indexed then (if palc ≠ 0 then palc else 2 ^ d.bits) else 0

/-- Palette entry `i` of a BMP file, from its bytes B, G, R (30_encoding R103). -/
def bmpPalEntry (X : Buffer) (i : Nat) : Colour :=
  { b := byteAt X (54 + 4 * i), g := byteAt X (54 + 4 * i + 1), r := byteAt X (54 + 4 * i + 2) }

/-- The file row that holds frame row `y` (30_encoding R104, R127): bottom-up when the height field is positive. -/
def bmpFileRow (height : Int) (H y : Nat) : Nat := if 0 < height then H - 1 - y else y

/-- The frame of a BMP file whose header was accepted (R121 steps 7, 8 and 10). -/
def bmpFrame (X : Buffer) (d : Depth) : Frame :=
  let W := (i32le X 18).toNat
  let H := (i32le X 22).natAbs
  { w := W
    h := H
    depth := d
    pal := tab (bmpPalLen d (u32le X 46)) (bmpPalEntry X)
    data := raster W H fun x y =>
      bmpSample X (u32le X 10 + bmpFileRow (i32le X 22) H y * stride d W) x d }

/-- The header latch loaded by a successful DECBMP: the raw fields (R121 commit, 10_state R34). -/
def bmpLatchOf (X : Buffer) : BmpLatch :=
  { valid := true
    signature := BitVec.ofNat 32 (u16le X 0)
    fileSize := BitVec.ofNat 32 (u32le X 2)
    pixOff := BitVec.ofNat 32 (u32le X 10)
    hdrSize := BitVec.ofNat 32 (u32le X 14)
    width := BitVec.ofNat 32 (u32le X 18)
    height := BitVec.ofNat 32 (u32le X 22)
    bpp := BitVec.ofNat 32 (u16le X 28)
    comp := BitVec.ofNat 32 (u32le X 30)
    imgSize := BitVec.ofNat 32 (u32le X 34)
    palColors := BitVec.ofNat 32 (u32le X 46) }

/-- The checks of DECBMP on the file `X`, in order, and its frame (R121 steps 1 to 10). -/
def decodeBmp (p : Params) (X : Buffer) : Except Detail Frame :=
  need (2 ≤ X.length ∧ byteAt X 0 = 0x42 ∧ byteAt X 1 = 0x4D) .notBmSignature <|
  need (54 ≤ X.length) .bmpHeaderShort <|
  need (u32le X 30 = 0) .compressedBmp <|
  match Depth.ofBits (u16le X 28) with
  | none => .error .badBmpDepth
  | some d =>
    need (0 < i32le X 18 ∧ i32le X 22 ≠ 0) .badBmpGeometry <|
    need (bmpPalLen d (u32le X 46) ≤ 256) .paletteTooLong <|
    need (54 + 4 * bmpPalLen d (u32le X 46) ≤ X.length) .bmpPaletteShort <|
    need (u32le X 10 + stride d (i32le X 18).toNat * (i32le X 22).natAbs ≤ X.length) .bmpRowsShort <|
    need (frameFits p (i32le X 18).toNat (i32le X 22).natAbs) .capacityExceeded <|
    .ok (bmpFrame X d)

/-- DECBMP Fd, Ba (R121). -/
def execDecbmp (fd : FSlot) (ba : BSlot) (s : State) : Host.Outcome State Fault Refusal :=
  conclude s <|
    needSlots s [ba] [fd] <|
    storeFrame (s.setBmpLatch (bmpLatchOf (s.mem.buf ba))) fd (decodeBmp s.params (s.mem.buf ba))

/-- The 54 header bytes written by ENCBMP (R135 step 4, R136). -/
def bmpHeader (P : Frame) (td : Bool) : Buffer :=
  let imgSize := stride P.depth P.w * P.h
  let pixOff := 54 + 4 * P.palLen
  [0x42, 0x4D] ++ put32 (pixOff + imgSize) ++ put32 0 ++ put32 pixOff ++ put32 40 ++ putI32 P.w ++
    putI32 (if td then -(P.h : Int) else P.h) ++ put16 1 ++ put16 P.depth.bits ++ put32 0 ++ put32 imgSize ++
    put32 0 ++ put32 0 ++ put32 P.palLen ++ put32 0

/-- The palette bytes written by ENCBMP: B, G, R, 0 for each entry (R137). -/
def bmpPalBytes (pal : List Colour) : Buffer := pal.flatMap fun c => [c.b, c.g, c.r, 0]

/-- Byte `k` of a file row whose pixel `x` is `px x`, zero past the row's last pixel (R135 `store`, R138): the
inverse of `bmpSample`. -/
def bmpRowByte (px : Nat → Nat) (k : Nat) : Depth → Byte
  | .d1 => BitVec.ofNat 8 (msbVal (tab 8 fun j => px (8 * k + j) == 1))
  | .d4 => BitVec.ofNat 8 (2 ^ 4 * px (2 * k) + px (2 * k + 1))
  | .d8 => BitVec.ofNat 8 (px k)
  | .d24 => BitVec.ofNat 8 (px (k / 3) / 2 ^ (8 * (k % 3)))
  | .d32 => BitVec.ofNat 8 (px (k / 4) / 2 ^ (8 * (k % 4)))

/-- The row bytes written by ENCBMP (R135 step 6): file row `r` is frame row `r` when TD = 1, else row H−1−r;
padding bytes and padding bits are zero. -/
def bmpRows (P : Frame) (td : Bool) : Buffer :=
  raster (stride P.depth P.w) P.h fun k r =>
    bmpRowByte (fun x => if x < P.w then P.px x (if td then r else P.h - 1 - r) else 0) k P.depth

/-- The capacity check of ENCBMP and the file it writes (R135 steps 1 to 6). -/
def encodeBmp (p : Params) (P : Frame) (td : Bool) : Except Detail Buffer :=
  let fileSize := 54 + 4 * P.palLen + stride P.depth P.w * P.h
  need (fileSize ≤ p.bufCap ∧ fileSize < 2 ^ 32) .capacityExceeded <|
  .ok (bmpHeader P td ++ bmpPalBytes P.pal ++ bmpRows P td)

/-- ENCBMP Bd, Fa, #BU or #TD (R135). -/
def execEncbmp (bd : BSlot) (fa : FSlot) (td : Bool) (s : State) : Host.Outcome State Fault Refusal :=
  conclude s <|
    needSlots s [bd] [fa] <|
    withFrame s fa fun P =>
    storeBuf s bd (encodeBmp s.params P td)

end Sys2Proof.Machine
end

