-- ==== Sys2Proof/Machine/Pcx.lean ====
section
/-! DEFINITION. DECPCX (spec 41_pcx_codec R150 to R163; layouts 30_encoding R106 to R108). -/

namespace Sys2Proof.Machine

/-- `c[7:6] = 0b11`: the control byte is a run marker (30_encoding R107). -/
def isRunMarker (c : Byte) : Bool := bits c.toNat 7 6 == 3

/-- Decode control bytes until at least `n` bytes are produced (R151 step 8, inner loop; R157, R158): the bytes
produced, a run's surplus included, and the rest of the region. Running out of the region is detail 0x34 (R159). -/
def rleProduce : Nat → Buffer → Except Detail (Buffer × Buffer)
  | 0, rest => .ok ([], rest)
  | _ + 1, [] => .error .pcxDataExhausted
  | n + 1, c :: rest =>
    if isRunMarker c then
      match rest with
      | [] => .error .pcxDataExhausted
      | v :: rest' =>
        match rleProduce (n + 1 - bits c.toNat 5 0) rest' with
        | .ok (out, left) => .ok (List.replicate (bits c.toNat 5 0) v ++ out, left)
        | .error d => .error d
    else
      match rleProduce n rest with
      | .ok (out, left) => .ok (c :: out, left)
      | .error d => .error d

/-- Decode `h` rows of `bpl` produced bytes each, keeping the first `w` of each row (R158). -/
def rleRows (w bpl : Nat) : Nat → Buffer → Except Detail Buffer
  | 0, _ => .ok []
  | h + 1, region =>
    match rleProduce bpl region with
    | .error d => .error d
    | .ok (row, rest) =>
      match rleRows w bpl h rest with
      | .error d => .error d
      | .ok rows => .ok (row.take w ++ rows)

/-- The image data region: from offset 128 up to the marker (R159). -/
def pcxRegion (X : Buffer) : Buffer := (X.take (X.length - 769)).drop 128

/-- Palette entry `i`: three bytes R, G, B behind the marker (30_encoding R108, R156). -/
def pcxPalEntry (X : Buffer) (i : Nat) : Colour :=
  let m := X.length - 769
  { r := byteAt X (m + 1 + 3 * i), g := byteAt X (m + 2 + 3 * i), b := byteAt X (m + 3 + 3 * i) }

/-- `width = xMax − xMin + 1` (R154). -/
def pcxWidth (X : Buffer) : Int := (u16le X 8 : Int) - (u16le X 4 : Int) + 1

/-- `height = yMax − yMin + 1` (R154). -/
def pcxHeight (X : Buffer) : Int := (u16le X 10 : Int) - (u16le X 6 : Int) + 1

/-- The header latch loaded by a successful DECPCX (R151 commit, 10_state R35). -/
def pcxLatchOf (X : Buffer) : PcxLatch :=
  { valid := true
    id := BitVec.ofNat 32 (byteAt X 0).toNat
    version := BitVec.ofNat 32 (byteAt X 1).toNat
    encoding := BitVec.ofNat 32 (byteAt X 2).toNat
    bpp := BitVec.ofNat 32 (byteAt X 3).toNat
    xMin := BitVec.ofNat 32 (u16le X 4)
    yMin := BitVec.ofNat 32 (u16le X 6)
    xMax := BitVec.ofNat 32 (u16le X 8)
    yMax := BitVec.ofNat 32 (u16le X 10)
    planes := BitVec.ofNat 32 (byteAt X 65).toNat
    bpl := BitVec.ofNat 32 (u16le X 66) }

/-- The frame of a PCX file whose rows were decoded to `rows` (R151, R160). -/
def pcxFrame (X rows : Buffer) : Frame :=
  { w := (pcxWidth X).toNat
    h := (pcxHeight X).toNat
    depth := .d8
    pal := tab 256 (pcxPalEntry X)
    data := rows.map BitVec.toNat }

/-- The checks of DECPCX on the file `X`, in order, and its frame (R151 steps 1 to 8). -/
def decodePcx (p : Params) (X : Buffer) : Except Detail Frame :=
  need (1 ≤ X.length ∧ byteAt X 0 = 0x0A) .notPcxId <|
  need (897 ≤ X.length) .pcxFileShort <|
  need (byteAt X 2 = 1) .pcxNotRle <|
  need (byteAt X 3 = 8) .pcxNotEightBit <|
  need (byteAt X 65 = 1) .pcxNotOnePlane <|
  need (0 < pcxWidth X ∧ 0 < pcxHeight X) .badPcxGeometry <|
  need (pcxWidth X ≤ u16le X 66) .pcxLineTooNarrow <|
  need (byteAt X (X.length - 769) = 0x0C) .noPaletteMarker <|
  need (samplesFit p ((pcxWidth X).toNat * (pcxHeight X).toNat)) .capacityExceeded <|
  match rleRows (pcxWidth X).toNat (u16le X 66) (pcxHeight X).toNat (pcxRegion X) with
  | .error d => .error d
  | .ok rows => .ok (pcxFrame X rows)

/-- DECPCX Fd, Ba (R151). -/
def execDecpcx (fd : FSlot) (ba : BSlot) (s : State) : Host.Outcome State Fault Refusal :=
  conclude s <|
    needSlots s [ba] [fd] <|
    storeFrame (s.setPcxLatch (pcxLatchOf (s.mem.buf ba))) fd (decodePcx s.params (s.mem.buf ba))

end Sys2Proof.Machine
end

