-- ==== Sys2Proof/Machine/Quant.lean ====
section
/-! DEFINITION. QUANT (spec 44_quantizer R240 to R251; RGBA layout 30_encoding R111). -/

namespace Sys2Proof.Machine

/-- `hist[i]`, `i` in 0..255: how many samples equal `i` (R242). -/
def histogram (data : List Nat) : List Nat := tab 256 fun i => data.count i

/-- Index `i` comes before or at index `j` in candidate order: hist descending, then index ascending (R243). -/
def candBefore (hist : List Nat) (i j : Nat) : Bool :=
  hist.getD j 0 < hist.getD i 0 || (hist.getD i 0 = hist.getD j 0 && i ≤ j)

/-- Put an index into a list that is in candidate order. -/
def candInsert (hist : List Nat) (i : Nat) : List Nat → List Nat
  | [] => [i]
  | j :: rest => if candBefore hist i j then i :: j :: rest else j :: candInsert hist i rest

/-- The candidates: the indices 0..n−1 in candidate order (R243). -/
def candidates (hist : List Nat) (n : Nat) : List Nat := (List.range n).foldr (candInsert hist) []

/-- Scan colours in order, appending to `np` each one that `accept` takes against the colours already there, until
`np` has `K` (the common form of R241 steps 6 and 7). -/
def takeColours (K : Nat) (accept : List Colour → Colour → Bool) : List Colour → List Colour → List Colour
  | np, [] => np
  | np, c :: cs =>
    if np.length = K then np
    else if accept np c then takeColours K accept (np ++ [c]) cs
    else takeColours K accept np cs

/-- Greedy test: the squared distance to every accepted colour exceeds the threshold (R244). -/
def farFromAll (np : List Colour) (c : Colour) : Bool := np.all fun q => Config.qThreshold < d2 c q

/-- Fill test: the colour value is not yet there (R245). -/
def notYetThere (np : List Colour) (c : Colour) : Bool := !np.contains c

/-- The reduced palette before padding: the greedy pass, then the fill pass (R244, R245). -/
def chosenColours (K : Nat) (cand : List Colour) : List Colour :=
  takeColours K notYetThere (takeColours K farFromAll [] cand) cand

/-- The reduced palette `np`, padded with black to `K` entries (R246). -/
def newPalette (K : Nat) (cand : List Colour) : List Colour :=
  chosenColours K cand ++ List.replicate (K - (chosenColours K cand).length) black

/-- The smallest index of `np` that minimises the squared distance to `c` (R247). -/
def nearest (np : List Colour) (c : Colour) : Nat := np.findIdx fun q => np.all fun q' => d2 c q ≤ d2 c q'

/-- The index table: `nearest` of each palette entry, 0 past the palette (R241 step 9, R247). -/
def indexTable (pal np : List Colour) : List Nat :=
  tab 256 fun i => match pal[i]? with
    | some c => nearest np c
    | none => 0

/-- The RGBA rendering of index data in a palette (30_encoding R111). -/
def rgbaOf (np : List Colour) (data : List Nat) : Buffer :=
  data.flatMap fun v => [(np.getD v black).r, (np.getD v black).g, (np.getD v black).b, 0xFF]

/-- The reduced palette of frame `P` for `K` colours (R241 steps 3, 5 to 8). -/
def quantPalette (P : Frame) (K : Nat) : List Colour :=
  newPalette K ((candidates (histogram P.data) P.palLen).map fun i => P.pal.getD i black)

/-- The index table of frame `P` for `K` colours (R241 step 9). -/
def quantTable (P : Frame) (K : Nat) : List Nat := indexTable P.pal (quantPalette P K)

/-- The quantized frame (R241 step 10, R248). -/
def quantFrame (P : Frame) (K : Nat) : Frame :=
  { w := P.w, h := P.h, depth := .d8, pal := quantPalette P K,
    data := P.data.map fun v => (quantTable P K).getD v 0 }

/-- A counter past the palette is not 0 (R241 step 4, R249). -/
def indexWithoutEntry (hist : List Nat) (n : Nat) : Bool :=
  (List.range 256).any fun i => n ≤ i && 0 < hist.getD i 0

/-- The commit of a successful QUANT (R241): frame, RGBA rendering, HIST, LUT and QVALID. -/
def quantCommit (s : State) (fd : FSlot) (bb : BSlot) (P : Frame) (K : Nat) : State :=
  ((s.setFrame fd (quantFrame P K)).setBuf bb (rgbaOf (quantPalette P K) (quantFrame P K).data)).setTables
    (histogram P.data) (quantTable P K)

/-- QUANT Fd, Fa, Bb with K = ARG0 (R241). -/
def execQuant (fd fa : FSlot) (bb : BSlot) (s : State) : Host.Outcome State Fault Refusal :=
  conclude s <|
    needSlots s [bb] [fd, fa] <|
    withFrame s fa fun P =>
    need (1 ≤ s.arg0.toNat ∧ s.arg0.toNat ≤ 256) .illegalOperand <|
    need (P.depth = .d8) .depthNotAccepted <|
    need (4 * P.w * P.h ≤ s.params.bufCap) .capacityExceeded <|
    need (indexWithoutEntry (histogram P.data) P.palLen = false) .indexWithoutColour <|
    .ok (quantCommit s fd bb P s.arg0.toNat)

end Sys2Proof.Machine
end

