-- ==== Sys2Proof/Machine/Stego.lean ====
section
/-! DEFINITION. EMBED and EXTRACT (spec 43_stego R210 to R220; layout 30_encoding R109, R110). `b` is
bitsPerByte = 2·IMM3. -/

namespace Sys2Proof.Machine

/-- The operand check of both commands: IMM3 is 1, 2 or 3 (30_encoding R97, R210). -/
def imm3Legal (imm3 : Nat) : Bool := imm3 = 1 || imm3 = 2 || imm3 = 3

/-- `HB`, the container bytes of the length header (R210). -/
def headerBytes (hw : HeaderWidth) (b : Nat) : Nat := ceilDiv (headerBits hw) b

/-- `PB(L)`, the container bytes of a payload of `L` bytes (R210). -/
def payloadBytes (L b : Nat) : Nat := ceilDiv (8 * L) b

/-- The length header: `L` little-endian in HEADER_BITS/8 bytes (R212). -/
def lengthHeader (hw : HeaderWidth) (L : Nat) : Buffer := leBytes (headerBits hw / 8) L

/-- `2^b − 1` as a byte (R210 `mask`). -/
def lowMask (b : Nat) : Byte := BitVec.ofNat 8 (2 ^ b - 1)

/-- `(c AND NOT mask) OR g` (R109). -/
def putGroup (b : Nat) (c : Byte) (g : Nat) : Byte := (c &&& ~~~lowMask b) ||| BitVec.ofNat 8 g

/-- The embedded container (R213 steps 3 and 4, 30_encoding R110). -/
def embedBytes (hw : HeaderWidth) (b : Nat) (C P : Buffer) : Buffer :=
  let HB := headerBytes hw b
  let PB := payloadBytes P.length b
  let hg := groups (bitsMSB (lengthHeader hw P.length)) b
  let pg := groups (bitsMSB P) b
  tab C.length fun j =>
    if j < HB then putGroup b (byteAt C j) (hg.getD j 0)
    else if j < HB + PB then putGroup b (byteAt C j) (pg.getD (j - HB) 0)
    else byteAt C j

/-- The checks of EMBED and its result (R213). -/
def embed (hw : HeaderWidth) (b : Nat) (C P : Buffer) : Except Detail Buffer :=
  need (P.length < 2 ^ headerBits hw) .lengthOverflow <|
  need (headerBytes hw b + payloadBytes P.length b ≤ C.length) .containerTooSmall <|
  .ok (embedBytes hw b C P)

/-- EMBED Bd, Ba (container), Bb (payload), #b (R213). -/
def execEmbed (bd ba bb : BSlot) (imm3 : Nat) (s : State) : Host.Outcome State Fault Refusal :=
  conclude s <|
    needSlots s [bd, ba, bb] [] <|
    need (imm3Legal imm3) .illegalOperand <|
    storeBuf s bd (embed s.params.header (2 * imm3) (s.mem.buf ba) (s.mem.buf bb))

/-- The low `b` bits of container bytes `o` to `o + n − 1` (R216: `C[j] AND mask`). -/
def lowGroups (b : Nat) (C : Buffer) (o n : Nat) : List Nat := tab n fun j => (byteAt C (o + j) &&& lowMask b).toNat

/-- The length a container states (R216 step 2). -/
def statedLength (hw : HeaderWidth) (b : Nat) (C : Buffer) : Nat :=
  leRead (bytesMSB (ungroups (lowGroups b C 0 (headerBytes hw b)) b (headerBits hw))) 0 (headerBits hw / 8)

/-- The `L` payload bytes behind the header (R216 step 4). -/
def hiddenBytes (hw : HeaderWidth) (b L : Nat) (C : Buffer) : Buffer :=
  bytesMSB (ungroups (lowGroups b C (headerBytes hw b) (payloadBytes L b)) b (8 * L))

/-- The checks of EXTRACT and its result (R216). -/
def extract (hw : HeaderWidth) (b : Nat) (C : Buffer) : Except Detail Buffer :=
  need (headerBytes hw b ≤ C.length) .containerNoHeader <|
  need (headerBytes hw b + payloadBytes (statedLength hw b C) b ≤ C.length) .extractTooLong <|
  .ok (hiddenBytes hw b (statedLength hw b C) C)

/-- EXTRACT Bd, Ba (container), #b (R216). -/
def execExtract (bd ba : BSlot) (imm3 : Nat) (s : State) : Host.Outcome State Fault Refusal :=
  conclude s <|
    needSlots s [bd, ba] [] <|
    need (imm3Legal imm3) .illegalOperand <|
    storeBuf s bd (extract s.params.header (2 * imm3) (s.mem.buf ba))

end Sys2Proof.Machine
end

