-- ==== Sys2Proof/Machine/Transform.lean ====
section
/-! DEFINITION. GRAY, BORDER, ROT90, SCALE and OVERLAY (spec 42_transform R170 to R205). Every geometric command
is a gather over the destination (20_memory R79). -/

namespace Sys2Proof.Machine

/-! ### GRAY -/

/-- `luma` of a colour: 299·R + 587·G + 114·B over 1000, rounded half up (R176). -/
def luma (c : Colour) : Nat :=
  rhu (Config.lumaR * c.r.toNat + Config.lumaG * c.g.toNat + Config.lumaB * c.b.toNat) 1000

/-- The grey of a colour: all three components its luma (R175). -/
def greyOf (c : Colour) : Colour :=
  { r := BitVec.ofNat 8 (luma c), g := BitVec.ofNat 8 (luma c), b := BitVec.ofNat 8 (luma c) }

/-- The depth check of GRAY and its frame: every palette entry grey, nothing else changed (R175, R177). -/
def grayFrame (P : Frame) : Except Detail Frame :=
  need (P.depth = .d8) .depthNotAccepted <|
  .ok { P with pal := P.pal.map greyOf }

/-- GRAY Fd, Fa (R175). -/
def execGray (fd fa : FSlot) (s : State) : Host.Outcome State Fault Refusal :=
  conclude s <|
    needSlots s [] [fd, fa] <|
    withFrame s fa fun P =>
    storeFrame s fd (grayFrame P)

/-! ### BORDER -/

/-- Bytes per pixel at the depths BORDER accepts (R180, R184); none at the others. -/
def borderBytes : Depth → Option Nat
  | .d8 => some 1
  | .d24 => some 3
  | .d32 => some 4
  | .d1 => none
  | .d4 => none

/-- A margin sample: `nb` entropy bytes from index `k` on, the j-th at bits 8j+7:8j (R182). -/
def entSample (ent : Nat → Byte) (k : Nat) : Nat → Nat
  | 0 => 0
  | nb + 1 => (ent k).toNat + 256 * entSample ent (k + 1) nb

/-- Destination pixel (x', y') has a source pixel (R180, R181). -/
def borderInside (P : Frame) (x' y' : Nat) : Bool :=
  Config.borderW ≤ x' && x' < Config.borderW + P.w && Config.borderW ≤ y' && y' < Config.borderW + P.h

/-- The scan of the destination addresses `as` (R180 step 3, R182): an interior pixel is copied, a margin pixel
takes the next `nb` entropy bytes, `k` being the index of the next byte. -/
def borderScan (P : Frame) (w' nb : Nat) (ent : Nat → Byte) : List Nat → Nat → List Nat
  | [], _ => []
  | a :: as, k =>
    if borderInside P (a % w') (a / w') then
      P.px (a % w' - Config.borderW) (a / w' - Config.borderW) :: borderScan P w' nb ent as k
    else entSample ent k nb :: borderScan P w' nb ent as (k + nb)

/-- How many entropy bytes a successful BORDER takes: `nb·(W'·H' − W·H)` (R180, R306). -/
def borderDraw (P : Frame) (nb : Nat) : Nat :=
  nb * ((P.w + 2 * Config.borderW) * (P.h + 2 * Config.borderW) - P.w * P.h)

/-- The bordered frame (R180). -/
def borderFrame (P : Frame) (nb : Nat) (ent : Nat → Byte) : Frame :=
  let w' := P.w + 2 * Config.borderW
  let h' := P.h + 2 * Config.borderW
  { P with w := w', h := h', data := borderScan P w' nb ent (List.range (w' * h')) 0 }

/-- BORDER Fd, Fa (R180): a success takes `borderDraw` bytes from the entropy port, a failure none (R270). -/
def execBorder (fd fa : FSlot) (s : State) : Host.Outcome State Fault Refusal :=
  conclude s <|
    needSlots s [] [fd, fa] <|
    withFrame s fa fun P =>
    match borderBytes P.depth with
    | none => .error .depthNotAccepted
    | some nb =>
      need (frameFits s.params (P.w + 2 * Config.borderW) (P.h + 2 * Config.borderW)) .capacityExceeded <|
      .ok ((s.setFrame fd (borderFrame P nb s.ent)).drawEntropy (borderDraw P nb))

/-! ### ROT90 -/

/-- The depth check of ROT90 and its frame, in pull form: destination (x', y') has source (W−1−y', x') (R185,
R186). -/
def rot90Frame (P : Frame) : Except Detail Frame :=
  need (P.depth = .d24) .depthNotAccepted <|
  .ok { w := P.h, h := P.w, depth := .d24, pal := [],
        data := raster P.h P.w fun x' y' => P.px (P.w - 1 - y') x' }

/-- ROT90 Fd, Fa (R185). -/
def execRot90 (fd fa : FSlot) (s : State) : Host.Outcome State Fault Refusal :=
  conclude s <|
    needSlots s [] [fd, fa] <|
    withFrame s fa fun P =>
    storeFrame s fd (rot90Frame P)

/-! ### SCALE -/

/-- The source coordinate of destination coordinate `x'` on an axis of length `n`:
`min(floor(x'·KDEN/KNUM), n − 1)` (R192). -/
def scaleSource (n num den x' : Nat) : Nat := min (x' * den / num) (n - 1)

/-- The checks of SCALE and its frame, factor `num/den` (R190 to R192). -/
def scaleFrame (p : Params) (P : Frame) (num den : Nat) : Except Detail Frame :=
  need (P.depth = .d8) .depthNotAccepted <|
  need (rhu (P.w * num) den ≠ 0 ∧ rhu (P.h * num) den ≠ 0) .zeroDimension <|
  need (frameFits p (rhu (P.w * num) den) (rhu (P.h * num) den)) .capacityExceeded <|
  .ok { P with
        w := rhu (P.w * num) den
        h := rhu (P.h * num) den
        data := raster (rhu (P.w * num) den) (rhu (P.h * num) den) fun x' y' =>
          P.px (scaleSource P.w num den x') (scaleSource P.h num den y') }

/-- SCALE Fd, Fa with KNUM = ARG0, KDEN = ARG1 (R190). -/
def execScale (fd fa : FSlot) (s : State) : Host.Outcome State Fault Refusal :=
  conclude s <|
    needSlots s [] [fd, fa] <|
    withFrame s fa fun P =>
    need (s.arg0 ≠ 0 ∧ s.arg1 ≠ 0) .illegalOperand <|
    storeFrame s fd (scaleFrame s.params P s.arg0.toNat s.arg1.toNat)

/-! ### OVERLAY -/

/-- `blend(a, c)` with the background weight num/den (R203). -/
def blend (num den a c : Nat) : Nat := rhu (a * num + c * (den - num)) den

/-- `blend` of two 24-bit samples, channel by channel: `q` the background, `p` the logo (R200, R203). -/
def blendSample (num den q p : Nat) : Nat :=
  sample24 (blend num den (bch q) (bch p)) (blend num den (gch q) (gch p)) (blend num den (rch q) (rch p))

/-- The logo's offset on one axis: `floor((bg − logo)/2)`, toward minus infinity (R201). -/
def overlayOffset (bg logo : Nat) : Int := ((bg : Int) - (logo : Int)) / 2

/-- The logo pixel aligned with background pixel (x, y), where there is one (R201, R204). -/
def logoAt (G L : Frame) (x y : Nat) : Option Nat :=
  let lx := (x : Int) - overlayOffset G.w L.w
  let ly := (y : Int) - overlayOffset G.h L.h
  if 0 ≤ lx ∧ lx < L.w ∧ 0 ≤ ly ∧ ly < L.h then some (L.px lx.toNat ly.toNat) else none

/-- The result sample at (x, y): the background where no logo pixel lands or the logo pixel equals the key
`L(0, 0)`, else the blend (R202, R204). -/
def overlayPixel (G L : Frame) (num den x y : Nat) : Nat :=
  match logoAt G L x y with
  | none => G.px x y
  | some p => if p = L.px 0 0 then G.px x y else blendSample num den (G.px x y) p

/-- The depth check of OVERLAY and its frame (R200). -/
def overlayFrame (G L : Frame) (num den : Nat) : Except Detail Frame :=
  need (G.depth = .d24 ∧ L.depth = .d24) .depthNotAccepted <|
  .ok { w := G.w, h := G.h, depth := .d24, pal := [], data := raster G.w G.h (overlayPixel G L num den) }

/-- OVERLAY Fd, Fa (background), Fb (logo) with KNUM = ARG0, KDEN = ARG1 (R200). -/
def execOverlay (fd fa fb : FSlot) (s : State) : Host.Outcome State Fault Refusal :=
  conclude s <|
    needSlots s [] [fd, fa, fb] <|
    withFrame s fa fun G =>
    withFrame s fb fun L =>
    need (s.arg1 ≠ 0 ∧ s.arg0.toNat ≤ s.arg1.toNat) .illegalOperand <|
    storeFrame s fd (overlayFrame G L s.arg0.toNat s.arg1.toNat)

end Sys2Proof.Machine
end

