-- ==== Sys2Proof/Machine/Dispatch.lean ====
section
/-! DEFINITION. One arm for each command: its meaning, in the order of opcode_table.json. -/

namespace Sys2Proof.Machine

/-- The effect of a started command (spec 30_encoding R94). -/
def exec (i : Instr) (s : State) : Host.Outcome State Fault Refusal :=
  match i with
  | .decbmp fd ba => Sys2Proof.Machine.execDecbmp fd ba s
  | .encbmp bd fa td => Sys2Proof.Machine.execEncbmp bd fa td s
  | .decpcx fd ba => Sys2Proof.Machine.execDecpcx fd ba s
  | .gray fd fa => Sys2Proof.Machine.execGray fd fa s
  | .border fd fa => Sys2Proof.Machine.execBorder fd fa s
  | .rot90 fd fa => Sys2Proof.Machine.execRot90 fd fa s
  | .scale fd fa => Sys2Proof.Machine.execScale fd fa s
  | .overlay fd fa fb => Sys2Proof.Machine.execOverlay fd fa fb s
  | .embed bd ba bb imm3 => Sys2Proof.Machine.execEmbed bd ba bb imm3 s
  | .extract bd ba imm3 => Sys2Proof.Machine.execExtract bd ba imm3 s
  | .quant fd fa bb => Sys2Proof.Machine.execQuant fd fa bb s

end Sys2Proof.Machine
end

