-- ==== Sys2Proof/Machine/HostPort.lean ====
section
/-! DEFINITION. What the outside can do to the block (spec 10_state R28, R44, R45; 20_memory R71; 70 R300 to R305): one function
for each action, and the write to CMD that runs a command to its end as one step (20_memory R69). -/

namespace Sys2Proof.Machine

/-- A write of `w` to CMD (10_state R23): the command starts, and runs to its end. A word that encodes no command
ends at once with detail 0x40 or 0x41 (30_encoding R95, R96). -/
def runCommand (w : Word) (s : State) : Host.Outcome State Fault Refusal :=
  match decode w with
  | .ok i => exec i (startCommand w s)
  | .error e => .next (raise (detailOfDecodeError e) (startCommand w s))

/-- A register write (R28): CMD runs a command, any other number is `writeDataReg`. -/
def hostWriteReg (n : Nat) (v : Word) (s : State) : Host.Outcome State Fault Refusal :=
  if n = 0 then runCommand v s else .next (writeDataReg s n v)

/-- The host has read a value. -/
def reply (r : HostReply) (s : State) : State := { s with replies := s.replies ++ [r] }

/-- A register read (R28). -/
def hostReadReg (n : Nat) (s : State) : Host.Outcome State Fault Refusal :=
  .next (reply (.reg n (readReg s n)) s)

/-- `HostLoad(b, X)` (R44): refused outside its precondition (93 V14). -/
def hostLoad (b : BSlot) (X : Buffer) (s : State) : Host.Outcome State Fault Refusal :=
  if b < s.nBslot ∧ X.length ≤ s.params.bufCap then .next (s.setBuf b X) else .refused .notAHostLoad

/-- `HostRead(b)` (R44). -/
def hostRead (b : BSlot) (s : State) : Host.Outcome State Fault Refusal :=
  match s.mem.buf? b with
  | some X => .next (reply (.slot b X) s)
  | none => .fault .noSuchByteSlot

/-- `HostFrame(f)` (R44, R45). -/
def hostFrame (f : FSlot) (s : State) : Host.Outcome State Fault Refusal :=
  if f < s.nFslot then .next (reply (.frame f (s.mem.frame? f)) s) else .fault .noSuchFrameSlot

/-- `HostTables()` (R44). -/
def hostTables (s : State) : Host.Outcome State Fault Refusal :=
  .next (reply (.tables s.hist s.lut) s)

/-- What stands at a bus address (`REG_MAP`, 00_scope R8, 20_memory R71). -/
def busTarget? (p : Params) (addr : Nat) : Option BusTarget :=
  (p.regMap.find? fun e => e.2 = addr).map Prod.fst

/-- The bus address of a register, a slot window or the tables (`REG_MAP`, 00_scope R8, 10_state R28). -/
def busAddress? (p : Params) (t : BusTarget) : Option Nat :=
  (p.regMap.find? fun e => e.1 = t).map Prod.snd

/-- An access to what stands at a bus address is the host operation of R44 on it, by number (20_memory R71, log 8). -/
def accessTarget (t : BusTarget) (x : BusAccess) (s : State) : Host.Outcome State Fault Refusal :=
  match t, x with
  | .reg n, .read => hostReadReg n s
  | .reg n, .write v => hostWriteReg n v s
  | .reg _, .load _ => .refused .notABusAccess
  | .byteSlot b, .read => hostRead b s
  | .byteSlot _, .write _ => .refused .notABusAccess
  | .byteSlot b, .load X => hostLoad b X s
  | .frameSlot f, .read => hostFrame f s
  | .frameSlot _, .write _ => .refused .notABusAccess
  | .frameSlot _, .load _ => .refused .notABusAccess
  | .tables, .read => hostTables s
  | .tables, .write _ => .refused .notABusAccess
  | .tables, .load _ => .refused .notABusAccess

/-- A bus access (20_memory R71, log 8). -/
def hostBus (addr : Nat) (x : BusAccess) (s : State) : Host.Outcome State Fault Refusal :=
  match busTarget? s.params addr with
  | some t => accessTarget t x s
  | none => .fault .noSuchBusAddress

/-- The entropy source puts bytes at the port, behind those waiting (R40). -/
def supply (ent : List Byte) (s : State) : State := { s with entropy := s.entropy ++ ent }

/-- An action of the host, given meaning only while the engine is idle (R44, R304, 93 V13). -/
def whenIdle (s : State) (k : Host.Outcome State Fault Refusal) : Host.Outcome State Fault Refusal :=
  if s.status.busy then .refused .hostWhileBusy else k

/-- One action from outside. Reset and the entropy source do not depend on the engine being idle (70 R303, R40). -/
def act (a : HostAction) (s : State) : Host.Outcome State Fault Refusal :=
  match a with
  | .writeReg n v => whenIdle s (hostWriteReg n v s)
  | .readReg n => whenIdle s (hostReadReg n s)
  | .load b X => whenIdle s (hostLoad b X s)
  | .readSlot b => whenIdle s (hostRead b s)
  | .readFrame f => whenIdle s (hostFrame f s)
  | .readTables => whenIdle s (hostTables s)
  | .atBus addr x => whenIdle s (hostBus addr x s)
  | .reset => .next (resetBlock s)
  | .supplyEntropy ent => .next (supply ent s)

/-- The word an action writes to CMD, by number or at the bus address of CMD (10_state R23, R28). -/
def cmdWord? (p : Params) (a : HostAction) : Option Word :=
  match a with
  | .writeReg n v => if n = 0 then some v else none
  | .atBus addr (.write v) => if busTarget? p addr = some (.reg 0) then some v else none
  | .atBus _ .read => none
  | .atBus _ (.load _) => none
  | .readReg _ => none
  | .load _ _ => none
  | .readSlot _ => none
  | .readFrame _ => none
  | .readTables => none
  | .reset => none
  | .supplyEntropy _ => none

/-- `s` with one more action to perform, before all others. -/
def State.withAction (s : State) (a : HostAction) : State := { s with pending := a :: s.pending }

/-- The number of an opcode-table row as a command word: the bits from `nbits` on are 0 (R90). -/
def tableWord (nbits w : Nat) : Word := BitVec.ofNat 32 (w % 2 ^ nbits)

end Sys2Proof.Machine
end

