-- ==== Sys2Proof/Machine/Step.lean ====
section
/-! DEFINITION. One step: the first of the pending actions is performed (spec 10_state R21, R73). With none
pending the block does nothing (70 R302, R314; log 4). -/

namespace Sys2Proof.Machine

/-- One step of the block and its host. -/
def step (s : State) : Host.Outcome State Fault Refusal :=
  match s.pending with
  | [] => .next s
  | a :: rest => act a { s with pending := rest }

/-- `s` about to receive the command word `w` of an opcode-table row: the host's next action is the write of that
word to CMD (10_state R23), and the engine is idle to take it (R44). The machine fetches nothing (R21): this is
how a word comes to run (log 3). -/
def State.withFetchWord (s : State) (nbits w : Nat) : State :=
  { s.withAction (.writeReg 0 (tableWord nbits w)) with status := { s.status with busy := false } }

end Sys2Proof.Machine
end

