-- ==== Sys2Proof/Safety.lean ====
section
/-! DEFINITION. What claims are stated in: the invariant of the block's state, what a command names, and an
error-free run. -/

namespace Sys2Proof.Machine

/-- The configuration is legal (spec 00_scope R8; 92_eei_decisions, last table): `BUF_CAP` in 1..2^32−1, `FB_CAP` at
least 1, `REG_MAP` injective: nothing has two addresses and no address stands for two things. -/
def paramsLegal (p : Params) : Bool :=
  1 ≤ p.bufCap && p.bufCap ≤ 2 ^ 32 - 1 && (match p.fbCap with
    | none => true
    | some c => 1 ≤ c) &&
  decide (p.regMap.map Prod.fst).Nodup && decide (p.regMap.map Prod.snd).Nodup

/-- A BMP latch that is valid holds an accepted header: signature "BM", compression 0 (10_state R34); one that is
not valid reads all 0 (R43, 93 V12). -/
def BmpLatch.sound (l : BmpLatch) : Prop :=
  if l.valid then l.signature = 0x4D42 ∧ l.comp = 0 else l = BmpLatch.initial

/-- A PCX latch that is valid holds an accepted header: id 0x0A, encoding 1, 8 bits, 1 plane (10_state R35); one
that is not valid reads all 0 (R43, 93 V12). -/
def PcxLatch.sound (l : PcxLatch) : Prop :=
  if l.valid then l.id = 0x0A ∧ l.encoding = 1 ∧ l.bpp = 8 ∧ l.planes = 1 else l = PcxLatch.initial

/-- The tables have 256 entries, LUT entries are bytes, and both read 0 while QVALID = 0 (10_state R36 to R38). -/
def State.tablesSound (s : State) : Prop :=
  s.hist.length = 256 ∧ s.lut.length = 256 ∧ (∀ v ∈ s.lut, v < 256) ∧
    (s.status.qvalid = false → s.hist = zeroTable ∧ s.lut = zeroTable)

/-- The error registers agree: ERR_KIND is the kind of ERR_DETAIL, ERR is 1 exactly when there is a cause, and an
error is remembered in ESTICKY (10_state R25 to R27, 60_exceptions R262, R274). -/
def State.errorsSound (s : State) : Prop :=
  s.errKind = s.errDetail.kind ∧ (s.status.err = true ↔ s.errDetail ≠ .noError) ∧
    (s.status.err = true → s.status.esticky = true)

/-- THE INVARIANT of the block: the configuration is legal, the slots keep 10_state R29 and R31, the engine is idle
between steps (70 R304), and the latches, tables and error registers are sound. -/
structure State.Inv (s : State) : Prop where
  params : paramsLegal s.params = true
  mem : s.mem.wf s.params = true
  idle : s.status.busy = false
  bmp : s.bh.sound
  pcx : s.ph.sound
  tables : s.tablesSound
  errors : s.errorsSound

/-- The byte slots a command names (30_encoding R93). -/
def byteSlotsOf : Instr → List BSlot
  | .decbmp _ ba => [ba]
  | .encbmp bd _ _ => [bd]
  | .decpcx _ ba => [ba]
  | .gray _ _ => []
  | .border _ _ => []
  | .rot90 _ _ => []
  | .scale _ _ => []
  | .overlay _ _ _ => []
  | .embed bd ba bb _ => [bd, ba, bb]
  | .extract bd ba _ => [bd, ba]
  | .quant _ _ bb => [bb]

/-- The frame slots a command names (30_encoding R93). -/
def frameSlotsOf : Instr → List FSlot
  | .decbmp fd _ => [fd]
  | .encbmp _ fa _ => [fa]
  | .decpcx fd _ => [fd]
  | .gray fd fa => [fd, fa]
  | .border fd fa => [fd, fa]
  | .rot90 fd fa => [fd, fa]
  | .scale fd fa => [fd, fa]
  | .overlay fd fa fb => [fd, fa, fb]
  | .embed _ _ _ _ => []
  | .extract _ _ _ => []
  | .quant fd fa _ => [fd, fa]

/-- The source frame slots of a command (60_exceptions R267). -/
def sourceFramesOf : Instr → List FSlot
  | .decbmp _ _ => []
  | .encbmp _ fa _ => [fa]
  | .decpcx _ _ => []
  | .gray _ fa => [fa]
  | .border _ fa => [fa]
  | .rot90 _ fa => [fa]
  | .scale _ fa => [fa]
  | .overlay _ fa fb => [fa, fb]
  | .embed _ _ _ _ => []
  | .extract _ _ _ => []
  | .quant _ fa _ => [fa]

/-- The byte slot a command replaces when it succeeds (10_state R42). -/
def destBytesOf : Instr → List BSlot
  | .decbmp _ _ => []
  | .encbmp bd _ _ => [bd]
  | .decpcx _ _ => []
  | .gray _ _ => []
  | .border _ _ => []
  | .rot90 _ _ => []
  | .scale _ _ => []
  | .overlay _ _ _ => []
  | .embed bd _ _ _ => [bd]
  | .extract bd _ _ => [bd]
  | .quant _ _ bb => [bb]

/-- The frame slot a command replaces when it succeeds (10_state R42). -/
def destFramesOf : Instr → List FSlot
  | .decbmp fd _ => [fd]
  | .encbmp _ _ _ => []
  | .decpcx fd _ => [fd]
  | .gray fd _ => [fd]
  | .border fd _ => [fd]
  | .rot90 fd _ => [fd]
  | .scale fd _ => [fd]
  | .overlay fd _ _ => [fd]
  | .embed _ _ _ _ => []
  | .extract _ _ _ => []
  | .quant fd _ _ => [fd]

/-- The operand checks of a command hold (60_exceptions R267 step 5). -/
def operandsLegal (s : State) : Instr → Prop
  | .decbmp _ _ => True
  | .encbmp _ _ _ => True
  | .decpcx _ _ => True
  | .gray _ _ => True
  | .border _ _ => True
  | .rot90 _ _ => True
  | .scale _ _ => s.arg0.toNat ≠ 0 ∧ s.arg1.toNat ≠ 0
  | .overlay _ _ _ => s.arg1.toNat ≠ 0 ∧ s.arg0.toNat ≤ s.arg1.toNat
  | .embed _ _ _ imm3 => imm3 = 1 ∨ imm3 = 2 ∨ imm3 = 3
  | .extract _ _ imm3 => imm3 = 1 ∨ imm3 = 2 ∨ imm3 = 3
  | .quant _ _ _ => s.arg0.toNat ≠ 0 ∧ s.arg0.toNat ≤ 256

/-- Every slot a command names exists (60_exceptions R267 step 3). -/
abbrev slotsExist (s : State) (i : Instr) : Prop :=
  (∀ b ∈ byteSlotsOf i, b < s.nBslot) ∧ ∀ f ∈ frameSlotsOf i, f < s.nFslot

/-- Every source frame slot of a command is valid (60_exceptions R267 step 4). -/
abbrev sourcesValid (s : State) (i : Instr) : Prop := ∀ f ∈ sourceFramesOf i, s.mem.frame? f ≠ none

/-- A run up to this state had no failing command since reset (60_exceptions R274, 70 R314). -/
def State.errorFree (s : State) : Prop := s.status.esticky = false

/-! ### Accepted files -/

/-- The file `X` passes every check of DECBMP, at depth `d` (40_bmp_codec R121 to R126, R128). -/
abbrev BmpAccepted (p : Params) (X : Buffer) (d : Depth) : Prop :=
  (byteAt X 0 = 0x42 ∧ byteAt X 1 = 0x4D) ∧
  54 ≤ X.length ∧
  u32le X 30 = 0 ∧
  u16le X 28 = d.bits ∧
  (0 < i32le X 18 ∧ i32le X 22 ≠ 0) ∧
  bmpPalLen d (u32le X 46) ≤ 256 ∧
  54 + 4 * bmpPalLen d (u32le X 46) ≤ X.length ∧
  u32le X 10 + stride d (i32le X 18).toNat * (i32le X 22).natAbs ≤ X.length ∧
  frameFits p (i32le X 18).toNat (i32le X 22).natAbs = true

/-- The file `X` passes every check of DECPCX up to its image data (41_pcx_codec R152 to R156, R160). -/
abbrev PcxAccepted (p : Params) (X : Buffer) : Prop :=
  byteAt X 0 = 0x0A ∧
  897 ≤ X.length ∧
  byteAt X 2 = 1 ∧
  byteAt X 3 = 8 ∧
  byteAt X 65 = 1 ∧
  (u16le X 4 ≤ u16le X 8 ∧ u16le X 6 ≤ u16le X 10) ∧
  u16le X 8 - u16le X 4 + 1 ≤ u16le X 66 ∧
  byteAt X (X.length - 769) = 0x0C ∧
  samplesFit p ((u16le X 8 - u16le X 4 + 1) * (u16le X 10 - u16le X 6 + 1)) = true

/-- One code of the PCX run-length code: a literal, or a run of 0 to 63 copies (30_encoding R107). -/
inductive PcxCode where
  | literal (c : Byte)
  | run (count : Nat) (v : Byte)
deriving DecidableEq, Repr

/-- A literal is at most 0xBF, a run has at most 63 copies (R107). -/
def PcxCode.legal : PcxCode → Bool
  | .literal c => c.toNat ≤ 0xBF
  | .run n _ => n ≤ 63

/-- The bytes of a code: the literal itself, or 0xC0 + count and the value (R107). -/
def PcxCode.bytes : PcxCode → Buffer
  | .literal c => [c]
  | .run n v => [BitVec.ofNat 8 (0xC0 + n), v]

/-- The pixel values a code stands for (R107). -/
def PcxCode.pixels : PcxCode → Buffer
  | .literal c => [c]
  | .run n v => List.replicate n v

/-- The pixel values of the codes of one row, the surplus of a last run included. -/
def rowPixels (row : List PcxCode) : Buffer := row.flatMap PcxCode.pixels

/-- A row's codes produce at least `bpl` values, and no fewer codes would have (41_pcx_codec R158). -/
abbrev rowComplete (bpl : Nat) (row : List PcxCode) : Prop :=
  (∀ c ∈ row, c.legal = true) ∧ bpl ≤ (rowPixels row).length ∧ (rowPixels row.dropLast).length < bpl

/-- The rows of opcode_table.json, `match` and `mask`, in the table's order. -/
def opcodeTable : List (Word × Word) :=
  [(0x00000001, 0xFFFFF00F), (0x00000002, 0xFFFEF00F), (0x00000003, 0xFFFFF00F), (0x00000004, 0xFFFFF00F),
    (0x00000005, 0xFFFFF00F), (0x00000006, 0xFFFFF00F), (0x00000007, 0xFFFFF00F), (0x00000008, 0xFFFF000F),
    (0x00000009, 0xFFF8000F), (0x0000000A, 0xFFF8F00F), (0x0000000B, 0xFFFF000F)]

end Sys2Proof.Machine
end

