-- ==== Sys2Proof/Certificates/Slice0/Obligations.lean ====
section
/-! DEFINITION. The statements for the provers. Each docstring names the rule of spec/ it formalises. `px` is the
sample at (x, y) (10_state R32), `byteAt` one byte of a buffer, `u16le`, `u32le`, `i32le` the reads of 00_scope
R13, `raise` and `succeed` the two ends of a command, whose writes are stated below (R270, R272). -/

open Sys2Proof Sys2Proof.Machine

/-! ### Encoding -/

/-- 30_encoding R91, R93: no bit of a command word is dropped, for every well-formed command. -/
def Obligations.DecodeOfEncodeIsTheCommand : Prop :=
  ∀ i : Instr, i.wf = true → decode (encode i) = .ok i

/-- 30_encoding R98: a word that decodes is the encoding of the one command it decodes to. -/
def Obligations.EncodeOfDecodeIsTheWord : Prop :=
  ∀ (w : Word) (i : Instr), decode w = .ok i → i.wf = true ∧ encode i = w

/-- opcode_table.json, 30_encoding R93: a word decodes exactly when it matches a row of the table, and then only
one. -/
def Obligations.DecodingFollowsTheOpcodeTable : Prop :=
  ∀ w : Word, ((∃ i, decode w = .ok i) ↔ ∃ row ∈ opcodeTable, w &&& row.2 = row.1) ∧
    ∀ r ∈ opcodeTable, ∀ r' ∈ opcodeTable, w &&& r.2 = r.1 → w &&& r'.2 = r'.1 → r = r'

/-- The worked encodings of 30_encoding and 95_test_vectors section 2.1, one of each command. -/
def Obligations.WorkedEncodingsDecode : Prop :=
  decode 0x00000011 = .ok (.decbmp 1 0) ∧ decode 0x00000122 = .ok (.encbmp 2 1 false) ∧
  decode 0x00010122 = .ok (.encbmp 2 1 true) ∧ decode 0x00000003 = .ok (.decpcx 0 0) ∧
  decode 0x00000014 = .ok (.gray 1 0) ∧ decode 0x00000015 = .ok (.border 1 0) ∧
  decode 0x00000016 = .ok (.rot90 1 0) ∧ decode 0x00000127 = .ok (.scale 2 1) ∧
  decode 0x00002138 = .ok (.overlay 3 1 2) ∧ decode 0x00021029 = .ok (.embed 2 0 1 2) ∧
  decode 0x0003023A = .ok (.extract 3 2 3) ∧ decode 0x0000312B = .ok (.quant 2 1 3)

/-! ### Steps -/

/-- A STEP RUNS THE DECODED COMMAND (10_state R23, 60_exceptions R273): when the host's next action is a write of
`w` to CMD, the engine is idle and `w` decodes to `i`, the step is `exec i` from the state in which the action is
taken from the list, CMD holds `w`, BUSY is 1 and DONE is 0. -/
def Obligations.StepRunsTheDecodedCommand : Prop :=
  ∀ (s : State) (w : Word) (rest : List HostAction) (i : Instr),
    s.pending = .writeReg 0 w :: rest → s.status.busy = false → decode w = .ok i →
    step s = exec i { s with pending := rest, cmd := w, status := { s.status with busy := true, done := false } }

/-- 30_encoding R95: a reserved opcode changes nothing but CMD, which holds the word written (10_state R23), and
the status registers: CommandError, detail 0x40. -/
def Obligations.ReservedOpcodeEndsAtOnce : Prop :=
  ∀ (s : State) (w : Word) (rest : List HostAction),
    s.pending = .writeReg 0 w :: rest → s.status.busy = false → (w.toNat % 16 = 0 ∨ 12 ≤ w.toNat % 16) →
    step s = .next { s with
      pending := rest, cmd := w, errKind := .commandError, errDetail := .reservedOpcode,
      status := { s.status with busy := false, done := true, err := true, esticky := true } } ∧
    ErrKind.commandError.code = 5 ∧ Detail.reservedOpcode.code = 0x40

/-- 30_encoding R96: with a legal opcode, a word that matches no row of the opcode table (a reserved or unused
field is not 0) ends with CommandError, detail 0x41, and does nothing else. -/
def Obligations.ReservedFieldEndsAtOnce : Prop :=
  ∀ (s : State) (w : Word) (rest : List HostAction),
    s.pending = .writeReg 0 w :: rest → s.status.busy = false → 1 ≤ w.toNat % 16 → w.toNat % 16 ≤ 11 →
    (∀ row ∈ opcodeTable, w &&& row.2 ≠ row.1) →
    step s = .next { s with
      pending := rest, cmd := w, errKind := .commandError, errDetail := .reservedField,
      status := { s.status with busy := false, done := true, err := true, esticky := true } } ∧
    Detail.reservedField.code = 0x41

/-- 70 R302, R314: with nothing for the host to do, the block does nothing. -/
def Obligations.IdleStepChangesNothing : Prop :=
  ∀ s : State, s.pending = [] → step s = .next s

/-- 10_state R24, R28: a host write to ARG0 or ARG1 sets that register and nothing else; a write to any other
number but CMD is ignored. -/
def Obligations.RegisterWritesReachOnlyTheArguments : Prop :=
  ∀ (s : State) (n : Nat) (v : Word) (rest : List HostAction),
    s.pending = .writeReg n v :: rest → s.status.busy = false →
    (n = 1 → step s = .next { s with pending := rest, arg0 := v }) ∧
    (n = 2 → step s = .next { s with pending := rest, arg1 := v }) ∧
    (2 < n → step s = .next { s with pending := rest })

/-- 10_state R28, R34, R35, 20_memory R70: a register read gives the register's value, 0 for the reserved numbers,
and changes nothing of the block. -/
def Obligations.RegisterReadsGiveTheRegister : Prop :=
  ∀ (s : State) (n : Nat) (rest : List HostAction),
    s.pending = .readReg n :: rest → s.status.busy = false →
    step s = .next { s with pending := rest, replies := s.replies ++ [.reg n (readReg s n)] } ∧
    (readReg s 0x00 = s.cmd ∧ readReg s 0x01 = s.arg0 ∧ readReg s 0x02 = s.arg1) ∧
    ((∀ k : Nat, (readReg s 0x03).getLsbD k =
        ((k = 0 ∧ s.status.busy) ∨ (k = 1 ∧ s.status.done) ∨ (k = 2 ∧ s.status.err) ∨ (k = 3 ∧ s.status.esticky) ∨
          (k = 4 ∧ s.status.qvalid) : Bool)) ∧
      (readReg s 0x04).toNat = s.errKind.code ∧ (readReg s 0x05).toNat = s.errDetail.code) ∧
    ((readReg s 0x10).toNat = s.bh.valid.toNat ∧ readReg s 0x11 = s.bh.signature ∧ readReg s 0x12 = s.bh.fileSize ∧
      readReg s 0x13 = s.bh.pixOff ∧ readReg s 0x14 = s.bh.hdrSize ∧ readReg s 0x15 = s.bh.width ∧
      readReg s 0x16 = s.bh.height ∧ readReg s 0x17 = s.bh.bpp ∧ readReg s 0x18 = s.bh.comp ∧
      readReg s 0x19 = s.bh.imgSize ∧ readReg s 0x1A = s.bh.palColors) ∧
    ((readReg s 0x20).toNat = s.ph.valid.toNat ∧ readReg s 0x21 = s.ph.id ∧ readReg s 0x22 = s.ph.version ∧
      readReg s 0x23 = s.ph.encoding ∧ readReg s 0x24 = s.ph.bpp ∧ readReg s 0x25 = s.ph.xMin ∧
      readReg s 0x26 = s.ph.yMin ∧ readReg s 0x27 = s.ph.xMax ∧ readReg s 0x28 = s.ph.yMax ∧
      readReg s 0x29 = s.ph.planes ∧ readReg s 0x2A = s.ph.bpl) ∧
    ∀ k : Nat, (0x06 ≤ k ∧ k ≤ 0x0F) ∨ (0x1B ≤ k ∧ k ≤ 0x1F) ∨ 0x2B ≤ k → readReg s k = 0

/-- 10_state R44 (b), R29: `HostLoad` replaces one byte slot and nothing else; outside its precondition it is
refused (93 V14; log 6). -/
def Obligations.HostLoadReplacesOneSlot : Prop :=
  ∀ (s : State) (b : Nat) (X : Buffer) (rest : List HostAction),
    s.pending = .load b X :: rest → s.status.busy = false →
    (b < s.nBslot → X.length ≤ s.params.bufCap →
      ∃ t, step s = .next t ∧ t = { s with pending := rest, mem := t.mem } ∧ t.mem.frames = s.mem.frames ∧
        t.nBslot = s.nBslot ∧ t.mem.buf? b = some X ∧ ∀ b' ≠ b, t.mem.buf? b' = s.mem.buf? b') ∧
    ((s.nBslot ≤ b ∨ s.params.bufCap < X.length) → step s = .refused .notAHostLoad)

/-- 10_state R44 (c) to (e), R45: `HostRead`, `HostFrame` and `HostTables` give the slot, the frame (or `valid` = 0
and nothing else) and the tables, and change nothing of the block; a slot that does not exist faults (log 6). -/
def Obligations.HostReadsGiveTheSlots : Prop :=
  ∀ (s : State) (rest : List HostAction), s.status.busy = false →
    (∀ b X, s.pending = .readSlot b :: rest → s.mem.buf? b = some X →
      step s = .next { s with pending := rest, replies := s.replies ++ [.slot b X] }) ∧
    (∀ b, s.pending = .readSlot b :: rest → s.nBslot ≤ b → step s = .fault .noSuchByteSlot) ∧
    (∀ f, s.pending = .readFrame f :: rest → f < s.nFslot →
      step s = .next { s with pending := rest, replies := s.replies ++ [.frame f (s.mem.frame? f)] }) ∧
    (∀ f, s.pending = .readFrame f :: rest → s.nFslot ≤ f → step s = .fault .noSuchFrameSlot) ∧
    (s.pending = .readTables :: rest →
      step s = .next { s with pending := rest, replies := s.replies ++ [.tables s.hist s.lut] })

/-- 70 R304, 93 V13: while BUSY = 1 no host action is given a meaning; the model refuses each of them by name (log
5). Reset and the entropy source are not gated. -/
def Obligations.BusyHostActionsAreRefused : Prop :=
  ∀ (s : State) (a : HostAction) (rest : List HostAction),
    s.pending = a :: rest → s.status.busy = true → a ≠ .reset → (∀ ent, a ≠ .supplyEntropy ent) →
    step s = .refused .hostWhileBusy

/-- 10_state R40: what the entropy source supplies is taken in the order it came, and nothing else changes. -/
def Obligations.EntropyIsTakenInOrder : Prop :=
  ∀ (s : State) (ent : List Byte) (rest : List HostAction), s.pending = .supplyEntropy ent :: rest →
    ∃ t, step s = .next t ∧ t = { s with pending := rest, entropy := s.entropy ++ ent } ∧
      (∀ k < s.entropy.length, t.ent k = s.ent k) ∧
      ∀ (k : Nat) (v : Byte), ent[k]? = some v → t.ent (s.entropy.length + k) = v

/-- 70 R301, 10_state R43: RESET from any state gives every piece of the block's state its reset value: all
registers 0, every byte slot empty, every frame slot invalid, both latches 0 and not valid, the tables 0. -/
def Obligations.ResetGivesEveryResetValue : Prop :=
  ∀ (s : State) (rest : List HostAction), s.pending = .reset :: rest →
    ∃ t, step s = .next t ∧
      t.cmd = 0 ∧ t.arg0 = 0 ∧ t.arg1 = 0 ∧ t.status.word = 0 ∧ t.status.busy = false ∧ t.status.done = false ∧
      t.status.qvalid = false ∧ t.errKind = .noKind ∧ t.errDetail = .noError ∧ (∀ n : Nat, readReg t n = 0) ∧
      (∀ b < s.nBslot, t.mem.buf? b = some []) ∧ t.nBslot = s.nBslot ∧
      (∀ f, t.mem.frame? f = none) ∧ t.nFslot = s.nFslot ∧
      t.bh.valid = false ∧ t.ph.valid = false ∧
      t.hist.length = 256 ∧ t.lut.length = 256 ∧ (∀ v ∈ t.hist, v = 0) ∧ (∀ v ∈ t.lut, v = 0)

/-- 10_state R41, R40: reset does not touch what is not state of the block: the configuration, the entropy port
(log 2), the host's further actions and what it has read (log 3). That the last three stand in State is the model's
choice. -/
def Obligations.ResetKeepsWhatIsNotState : Prop :=
  ∀ (s : State) (rest : List HostAction), s.pending = .reset :: rest →
    ∃ t, step s = .next t ∧ t.params = s.params ∧ t.entropy = s.entropy ∧ t.entDrawn = s.entDrawn ∧
      t.pending = rest ∧ t.replies = s.replies

/-! ### Errors, and what holds of every command -/

/-- 60_exceptions R270: a command that ends with an error writes ERR_KIND, ERR_DETAIL, BUSY ← 0, DONE ← 1,
ERR ← 1, ESTICKY ← 1 and nothing else: every slot, latch, table, QVALID, ARG0 and ARG1 keeps its value, CMD holds
the failing word, and no entropy byte is taken. It covers every word written to CMD. -/
def Obligations.FailingCommandWritesOnlyTheErrorRegisters : Prop :=
  ∀ (s t : State) (w : Word) (rest : List HostAction),
    s.pending = .writeReg 0 w :: rest → s.status.busy = false → step s = .next t → t.status.err = true →
    ∃ d : Detail, d ≠ .noError ∧ t = { s with
      pending := rest, cmd := w, errKind := d.kind, errDetail := d,
      status := { busy := false, done := true, err := true, esticky := true, qvalid := s.status.qvalid } }

/-- 60_exceptions R272: a command that ends without an error writes ERR_KIND ← 0, ERR_DETAIL ← 0, BUSY ← 0,
DONE ← 1, ERR ← 0, and leaves ESTICKY as it was. -/
def Obligations.SuccessfulCommandStatus : Prop :=
  ∀ (i : Instr) (s t : State), exec i s = .next t → t.status.err = false →
    t.errKind = .noKind ∧ ErrKind.noKind.code = 0 ∧ t.errDetail = .noError ∧ Detail.noError.code = 0 ∧
    t.status.busy = false ∧ t.status.done = true ∧ t.status.esticky = s.status.esticky

/-- 93 part 2: "every command ends with DONE = 1"; 70 R312: every command terminates. No command stops the machine,
from any state and with any operands. -/
def Obligations.EveryCommandEndsWithDone : Prop :=
  ∀ (i : Instr) (s : State), ∃ t, exec i s = .next t ∧ t.status.done = true ∧ t.status.busy = false

/-- 60_exceptions R274: ESTICKY is set by a failing command and by nothing else, it stays set, and only reset
clears it. A command is a word that an action writes to CMD, by number or at the bus address of CMD. -/
def Obligations.OnlyResetClearsTheStickyError : Prop :=
  ∀ (s t : State) (a : HostAction) (rest : List HostAction),
    s.pending = a :: rest → step s = .next t →
    (a = .reset → t.status.esticky = false) ∧
    (a ≠ .reset → s.status.esticky = true → t.status.esticky = true) ∧
    ((∃ w, cmdWord? s.params a = some w) → t.status.err = true → t.status.esticky = true) ∧
    (t.status.esticky = true → s.status.esticky = false →
      (∃ w, cmdWord? s.params a = some w) ∧ t.status.err = true)

/-- 60_exceptions R262: the kind is a function of the detail, its high nibble plus 1; detail 0 goes with kind 0;
the codes are bytes, and two causes never share one. -/
def Obligations.KindIsTheHighNibbleOfTheDetail : Prop :=
  (∀ d : Detail, d ≠ .noError → d.kind.code = d.code / 16 + 1) ∧ Detail.noError.kind = .noKind ∧
  Detail.noError.code = 0 ∧ (∀ d : Detail, d.code < 256) ∧ ∀ d d' : Detail, d.code = d'.code → d = d'

/-- 60_exceptions R267 steps 3 to 5: for every command, a slot that does not exist gives 0x42 first, then an
invalid source frame gives 0x43, then an illegal operand gives 0x44, and nothing but the error is written. -/
def Obligations.CommandLevelChecksInOrder : Prop :=
  ∀ (i : Instr) (s : State),
    (¬ slotsExist s i → exec i s = .next (raise .slotOutOfRange s)) ∧
    (slotsExist s i → ¬ sourcesValid s i → exec i s = .next (raise .sourceFrameInvalid s)) ∧
    (slotsExist s i → sourcesValid s i → ¬ operandsLegal s i → exec i s = .next (raise .illegalOperand s))

/-- 10_state R42: no command writes a slot it does not name as destination, byte by byte and frame by frame; no
command writes ARG0, ARG1 or CMD, nor the configuration (R41) or what stands outside the block but the entropy
port. -/
def Obligations.CommandsWriteOnlyTheirDestinations : Prop :=
  ∀ (i : Instr) (s t : State), exec i s = .next t →
    (∀ b, b ∉ destBytesOf i → (t.mem.buf b).length = (s.mem.buf b).length ∧
      ∀ o, t.mem.byte? b o = s.mem.byte? b o) ∧
    (∀ f, f ∉ destFramesOf i → t.mem.frame? f = s.mem.frame? f) ∧
    t.nBslot = s.nBslot ∧ t.nFslot = s.nFslot ∧ t.cmd = s.cmd ∧ t.arg0 = s.arg0 ∧ t.arg1 = s.arg1 ∧
    t.params = s.params ∧ t.pending = s.pending ∧ t.replies = s.replies

/-- 10_state R34, R35: the BMP latch changes only by a successful DECBMP, the PCX latch only by a successful
DECPCX. -/
def Obligations.LatchesChangeOnlyByTheirDecoder : Prop :=
  ∀ (i : Instr) (s t : State), exec i s = .next t →
    ((t.status.err = true ∨ ∀ fd ba, i ≠ .decbmp fd ba) → t.bh = s.bh) ∧
    ((t.status.err = true ∨ ∀ fd ba, i ≠ .decpcx fd ba) → t.ph = s.ph)

/-- 10_state R36 to R38: HIST, LUT and QVALID change only by a successful QUANT, which sets QVALID. -/
def Obligations.TablesChangeOnlyByQuant : Prop :=
  ∀ (i : Instr) (s t : State), exec i s = .next t →
    ((t.status.err = true ∨ ∀ fd fa bb, i ≠ .quant fd fa bb) →
      t.hist = s.hist ∧ t.lut = s.lut ∧ t.status.qvalid = s.status.qvalid) ∧
    ((∃ fd fa bb, i = .quant fd fa bb) → t.status.err = false → t.status.qvalid = true)

/-- 42_transform R184: BORDER is the only command whose result is not a function of the block's state and the
command word alone. Two runs of any other command that differ only in the entropy port end alike, and the port is
left as it was. -/
def Obligations.OnlyBorderDependsOnEntropy : Prop :=
  ∀ (i : Instr) (s t : State) (ent : List Byte) (n : Nat), (∀ fd fa, i ≠ .border fd fa) → exec i s = .next t →
    exec i { s with entropy := ent, entDrawn := n } = .next { t with entropy := ent, entDrawn := n } ∧
    t.entropy = s.entropy ∧ t.entDrawn = s.entDrawn

/-- 10_state R39: no command's result depends on a flag or an error register left by an earlier command. -/
def Obligations.ResultsDoNotDependOnStatus : Prop :=
  ∀ (i : Instr) (s t : State) (st : Status) (k : ErrKind) (d : Detail), exec i s = .next t →
    ∃ u, exec i { s with status := st, errKind := k, errDetail := d } = .next u ∧
      u.mem = t.mem ∧ u.bh = t.bh ∧ u.ph = t.ph ∧ u.hist = t.hist ∧ u.lut = t.lut ∧ u.errKind = t.errKind ∧
      u.errDetail = t.errDetail ∧ u.status.err = t.status.err ∧ u.entropy = t.entropy

/-! ### The invariant -/

/-- THE INVARIANT IS KEPT BY EVERY STEP: from every state that has it, a next state has it (10_state R29, R31, R34
to R38, 60_exceptions R262, 70 R304). -/
def Obligations.StepKeepsTheInvariant : Prop :=
  ∀ s t : State, s.Inv → step s = .next t → t.Inv

/-- The state after reset has the invariant (10_state R43). It rests on the default configuration (log 1). -/
def Obligations.ResetHasTheInvariant : Prop :=
  State.reset.Inv

/-! ### BMP -/

/-- DECBMP of an accepted file (40_bmp_codec R121, R125 to R127, 30_encoding R103 to R105): the frame written, pixel
by pixel at each depth, and nothing else changes but the latch and the status registers. -/
def Obligations.DecbmpReadsEveryPixel : Prop :=
  ∀ (s : State) (fd ba : Nat) (X : Buffer) (d : Depth),
    fd < s.nFslot → s.mem.buf? ba = some X → BmpAccepted s.params X d →
    ∃ (Q : Frame) (l : BmpLatch),
      exec (.decbmp fd ba) s = .next (succeed ((s.setBmpLatch l).setFrame fd Q)) ∧
      (Q.w : Int) = i32le X 18 ∧ (Q.h : Int) = |i32le X 22| ∧ Q.depth = d ∧ Q.data.length = Q.w * Q.h ∧
      Q.palLen = (if d.bits ≤ 8 then (if u32le X 46 = 0 then 2 ^ d.bits else u32le X 46) else 0) ∧
      (∀ i < Q.palLen, Q.pal[i]? =
        some { b := byteAt X (54 + 4 * i), g := byteAt X (54 + 4 * i + 1), r := byteAt X (54 + 4 * i + 2) }) ∧
      ∀ x y, x < Q.w → y < Q.h → ∀ rb,
        rb = u32le X 10 + (if 0 < i32le X 22 then Q.h - 1 - y else y) * ((d.bits * Q.w + 31) / 32 * 4) →
        (d = .d1 → Q.px x y = ((byteAt X (rb + x / 8)).getLsbD (7 - x % 8)).toNat) ∧
        (d = .d4 → Q.px x y = if x % 2 = 0 then (byteAt X (rb + x / 2)).toNat / 16
          else (byteAt X (rb + x / 2)).toNat % 16) ∧
        (d = .d8 → Q.px x y = (byteAt X (rb + x)).toNat) ∧
        (d = .d24 → Q.px x y = (byteAt X (rb + 3 * x)).toNat + 2 ^ 8 * (byteAt X (rb + 3 * x + 1)).toNat +
          2 ^ 16 * (byteAt X (rb + 3 * x + 2)).toNat) ∧
        (d = .d32 → Q.px x y = u32le X (rb + 4 * x))

/-- 10_state R34: after a successful DECBMP the BH registers read the fields of the file as found. -/
def Obligations.DecbmpLatchesTheHeaderFields : Prop :=
  ∀ (s : State) (fd ba : Nat) (X : Buffer) (d : Depth),
    fd < s.nFslot → s.mem.buf? ba = some X → BmpAccepted s.params X d →
    ∃ t, exec (.decbmp fd ba) s = .next t ∧
      (readReg t 0x10).toNat = 1 ∧ (readReg t 0x11).toNat = 0x4D42 ∧ (readReg t 0x11).toNat = u16le X 0 ∧
      (readReg t 0x12).toNat = u32le X 2 ∧ (readReg t 0x13).toNat = u32le X 10 ∧ (readReg t 0x14).toNat = u32le X 14 ∧
      (readReg t 0x15).toInt = i32le X 18 ∧ (readReg t 0x16).toInt = i32le X 22 ∧
      (readReg t 0x17).toNat = u16le X 28 ∧ (readReg t 0x18).toNat = 0 ∧ (readReg t 0x19).toNat = u32le X 34 ∧
      (readReg t 0x1A).toNat = u32le X 46 ∧ t.ph = s.ph

/-- 40_bmp_codec R122 to R128, 60_exceptions R268: the errors of DECBMP and the order they are tested in. -/
def Obligations.DecbmpErrorsInOrder : Prop :=
  ∀ (s : State) (fd ba : Nat) (X : Buffer), fd < s.nFslot → s.mem.buf? ba = some X →
    ((X.length < 2 ∨ byteAt X 0 ≠ 0x42 ∨ byteAt X 1 ≠ 0x4D) →
      exec (.decbmp fd ba) s = .next (raise .notBmSignature s)) ∧
    (2 ≤ X.length → byteAt X 0 = 0x42 → byteAt X 1 = 0x4D →
      (X.length < 54 → exec (.decbmp fd ba) s = .next (raise .bmpHeaderShort s)) ∧
      (54 ≤ X.length →
        (u32le X 30 ≠ 0 → exec (.decbmp fd ba) s = .next (raise .compressedBmp s)) ∧
        (u32le X 30 = 0 →
          (u16le X 28 ∉ [1, 4, 8, 24, 32] → exec (.decbmp fd ba) s = .next (raise .badBmpDepth s)) ∧
          ∀ d : Depth, u16le X 28 = d.bits →
            ((i32le X 18 ≤ 0 ∨ i32le X 22 = 0) → exec (.decbmp fd ba) s = .next (raise .badBmpGeometry s)) ∧
            (0 < i32le X 18 → i32le X 22 ≠ 0 →
              (256 < bmpPalLen d (u32le X 46) → exec (.decbmp fd ba) s = .next (raise .paletteTooLong s)) ∧
              (bmpPalLen d (u32le X 46) ≤ 256 →
                (X.length < 54 + 4 * bmpPalLen d (u32le X 46) →
                  exec (.decbmp fd ba) s = .next (raise .bmpPaletteShort s)) ∧
                (54 + 4 * bmpPalLen d (u32le X 46) ≤ X.length →
                  (X.length < u32le X 10 + stride d (i32le X 18).toNat * (i32le X 22).natAbs →
                    exec (.decbmp fd ba) s = .next (raise .bmpRowsShort s)) ∧
                  (u32le X 10 + stride d (i32le X 18).toNat * (i32le X 22).natAbs ≤ X.length →
                    frameFits s.params (i32le X 18).toNat (i32le X 22).natAbs = false →
                    exec (.decbmp fd ba) s = .next (raise .capacityExceeded s))))))))

/-- ENCBMP (40_bmp_codec R135, R136): whether the file fits, its length, and the 54 header bytes. The frame's
invariants (10_state R31) are the premise `P.wf`. A file that does not fit ends with 0x46. -/
def Obligations.EncbmpWritesTheHeader : Prop :=
  ∀ (s : State) (bd fa : Nat) (td : Bool) (P : Frame),
    bd < s.nBslot → s.mem.frame? fa = some P → P.wf s.params = true →
    ∀ (strd fileSize pixOff : Nat), strd = (P.depth.bits * P.w + 31) / 32 * 4 → pixOff = 54 + 4 * P.palLen →
    fileSize = pixOff + strd * P.h →
    ((s.params.bufCap < fileSize ∨ 2 ^ 32 ≤ fileSize) →
      exec (.encbmp bd fa td) s = .next (raise .capacityExceeded s)) ∧
    (fileSize ≤ s.params.bufCap → fileSize < 2 ^ 32 →
      ∃ Y : Buffer, exec (.encbmp bd fa td) s = .next (succeed (s.setBuf bd Y)) ∧ Y.length = fileSize ∧
        byteAt Y 0 = 0x42 ∧ byteAt Y 1 = 0x4D ∧ u32le Y 2 = fileSize ∧ u32le Y 6 = 0 ∧ u32le Y 10 = pixOff ∧
        u32le Y 14 = 40 ∧ i32le Y 18 = P.w ∧ i32le Y 22 = (if td then -(P.h : Int) else P.h) ∧ u16le Y 26 = 1 ∧
        u16le Y 28 = P.depth.bits ∧ u32le Y 30 = 0 ∧ u32le Y 34 = strd * P.h ∧ u32le Y 38 = 0 ∧ u32le Y 42 = 0 ∧
        u32le Y 46 = P.palLen ∧ u32le Y 50 = 0)

/-- ENCBMP (40_bmp_codec R137): the palette bytes behind the header: B, G, R, 0 for each colour. -/
def Obligations.EncbmpWritesThePalette : Prop :=
  ∀ (s : State) (bd fa : Nat) (td : Bool) (P : Frame),
    bd < s.nBslot → s.mem.frame? fa = some P →
    54 + 4 * P.palLen + (P.depth.bits * P.w + 31) / 32 * 4 * P.h ≤ s.params.bufCap →
    54 + 4 * P.palLen + (P.depth.bits * P.w + 31) / 32 * 4 * P.h < 2 ^ 32 →
    ∃ Y : Buffer, exec (.encbmp bd fa td) s = .next (succeed (s.setBuf bd Y)) ∧
      ∀ (i : Nat) (c : Colour), P.pal[i]? = some c →
        byteAt Y (54 + 4 * i) = c.b ∧ byteAt Y (54 + 4 * i + 1) = c.g ∧ byteAt Y (54 + 4 * i + 2) = c.r ∧
        byteAt Y (54 + 4 * i + 3) = 0

/-- ENCBMP (40_bmp_codec R135 step 6, R138; 30_encoding R104, R105): the row bytes at each depth and orientation, the
padding bytes and padding bits zero. The frame's invariants (10_state R31) are the premise `P.wf`. -/
def Obligations.EncbmpWritesTheRows : Prop :=
  ∀ (s : State) (bd fa : Nat) (td : Bool) (P : Frame),
    bd < s.nBslot → s.mem.frame? fa = some P → P.wf s.params = true →
    ∀ (strd pixOff : Nat), strd = (P.depth.bits * P.w + 31) / 32 * 4 → pixOff = 54 + 4 * P.palLen →
    pixOff + strd * P.h ≤ s.params.bufCap → pixOff + strd * P.h < 2 ^ 32 →
    ∃ Y : Buffer, exec (.encbmp bd fa td) s = .next (succeed (s.setBuf bd Y)) ∧
      ∀ r < P.h, ∀ rb y, rb = pixOff + r * strd → y = (if td then r else P.h - 1 - r) →
        (∀ x < P.w,
          (P.depth = .d1 → ((byteAt Y (rb + x / 8)).getLsbD (7 - x % 8)).toNat = P.px x y) ∧
          (P.depth = .d4 → (if x % 2 = 0 then (byteAt Y (rb + x / 2)).toNat / 16
            else (byteAt Y (rb + x / 2)).toNat % 16) = P.px x y) ∧
          (P.depth = .d8 → (byteAt Y (rb + x)).toNat = P.px x y) ∧
          (P.depth = .d24 → (byteAt Y (rb + 3 * x)).toNat = P.px x y % 256 ∧
            (byteAt Y (rb + 3 * x + 1)).toNat = P.px x y / 2 ^ 8 % 256 ∧
            (byteAt Y (rb + 3 * x + 2)).toNat = P.px x y / 2 ^ 16) ∧
          (P.depth = .d32 → u32le Y (rb + 4 * x) = P.px x y)) ∧
        (∀ k j, k < strd → j < 8 → P.depth.bits * P.w ≤ 8 * k + (7 - j) → (byteAt Y (rb + k)).getLsbD j = false)

/-- 40_bmp_codec R140: what ENCBMP writes, DECBMP reads back: the same dimensions, depth, palette and pixels, for
both orientations. -/
def Obligations.DecbmpOfEncbmpIsTheFrame : Prop :=
  ∀ (s t : State) (bd fa fd : Nat) (td : Bool) (P : Frame),
    s.Inv → s.mem.frame? fa = some P → fd < s.nFslot →
    exec (.encbmp bd fa td) s = .next t → t.status.err = false →
    ∃ u, exec (.decbmp fd bd) t = .next u ∧ u.status.err = false ∧ u.mem.frame? fd = some P

/-! ### PCX -/

/-- DECPCX of an accepted file (41_pcx_codec R151, R156 to R158, R160, 30_encoding R107): the data region is the
codes of H rows, each row just long enough for bytesPerLine values, and perhaps bytes left over. The frame holds
the first W values of each row and 256 colours. -/
def Obligations.DecpcxReadsEveryRow : Prop :=
  ∀ (s : State) (fd ba : Nat) (X : Buffer) (rows : List (List PcxCode)) (rest : Buffer) (W H m : Nat),
    fd < s.nFslot → s.mem.buf? ba = some X → PcxAccepted s.params X →
    W = u16le X 8 - u16le X 4 + 1 → H = u16le X 10 - u16le X 6 + 1 → m = X.length - 769 →
    rows.length = H → (∀ row ∈ rows, rowComplete (u16le X 66) row) →
    (X.take m).drop 128 = (rows.flatMap fun row => row.flatMap PcxCode.bytes) ++ rest →
    ∃ (Q : Frame) (l : PcxLatch),
      exec (.decpcx fd ba) s = .next (succeed ((s.setPcxLatch l).setFrame fd Q)) ∧
      Q.w = W ∧ Q.h = H ∧ Q.depth = .d8 ∧
      Q.data = rows.flatMap (fun row => ((rowPixels row).take W).map BitVec.toNat) ∧
      Q.palLen = 256 ∧ (∀ i < 256, Q.pal[i]? =
        some { r := byteAt X (m + 1 + 3 * i), g := byteAt X (m + 2 + 3 * i), b := byteAt X (m + 3 + 3 * i) }) ∧
      l = { valid := true, id := 0x0A, version := BitVec.ofNat 32 (byteAt X 1).toNat, encoding := 1, bpp := 8,
            xMin := BitVec.ofNat 32 (u16le X 4), yMin := BitVec.ofNat 32 (u16le X 6),
            xMax := BitVec.ofNat 32 (u16le X 8), yMax := BitVec.ofNat 32 (u16le X 10), planes := 1,
            bpl := BitVec.ofNat 32 (u16le X 66) }

/-- 41_pcx_codec R159, R313: when the region ends before the last row is complete (between codes, or behind a run
marker whose value byte is missing), DECPCX ends with 0x34, whatever zero-count runs it met. -/
def Obligations.DecpcxDataExhausted : Prop :=
  ∀ (s : State) (fd ba : Nat) (X : Buffer) (rows : List (List PcxCode)) (part : List PcxCode) (tail : Buffer),
    fd < s.nFslot → s.mem.buf? ba = some X → PcxAccepted s.params X →
    rows.length < u16le X 10 - u16le X 6 + 1 → (∀ row ∈ rows, rowComplete (u16le X 66) row) →
    (∀ c ∈ part, c.legal = true) → (rowPixels part).length < u16le X 66 →
    (tail = [] ∨ ∃ c : Byte, tail = [c] ∧ 0xC0 ≤ c.toNat) →
    (X.take (X.length - 769)).drop 128 =
      (rows.flatMap fun row => row.flatMap PcxCode.bytes) ++ part.flatMap PcxCode.bytes ++ tail →
    exec (.decpcx fd ba) s = .next (raise .pcxDataExhausted s)

/-- 41_pcx_codec R152 to R156, 60_exceptions R268: the errors of DECPCX before its image data, in order. -/
def Obligations.DecpcxErrorsInOrder : Prop :=
  ∀ (s : State) (fd ba : Nat) (X : Buffer), fd < s.nFslot → s.mem.buf? ba = some X →
    ((X.length < 1 ∨ byteAt X 0 ≠ 0x0A) → exec (.decpcx fd ba) s = .next (raise .notPcxId s)) ∧
    (1 ≤ X.length → byteAt X 0 = 0x0A →
      (X.length < 897 → exec (.decpcx fd ba) s = .next (raise .pcxFileShort s)) ∧
      (897 ≤ X.length →
        (byteAt X 2 ≠ 1 → exec (.decpcx fd ba) s = .next (raise .pcxNotRle s)) ∧
        (byteAt X 2 = 1 → byteAt X 3 ≠ 8 → exec (.decpcx fd ba) s = .next (raise .pcxNotEightBit s)) ∧
        (byteAt X 2 = 1 → byteAt X 3 = 8 → byteAt X 65 ≠ 1 →
          exec (.decpcx fd ba) s = .next (raise .pcxNotOnePlane s)) ∧
        (byteAt X 2 = 1 → byteAt X 3 = 8 → byteAt X 65 = 1 →
          ((u16le X 8 < u16le X 4 ∨ u16le X 10 < u16le X 6) →
            exec (.decpcx fd ba) s = .next (raise .badPcxGeometry s)) ∧
          (u16le X 4 ≤ u16le X 8 → u16le X 6 ≤ u16le X 10 →
            (u16le X 66 < u16le X 8 - u16le X 4 + 1 →
              exec (.decpcx fd ba) s = .next (raise .pcxLineTooNarrow s)) ∧
            (u16le X 8 - u16le X 4 + 1 ≤ u16le X 66 →
              (byteAt X (X.length - 769) ≠ 0x0C → exec (.decpcx fd ba) s = .next (raise .noPaletteMarker s)) ∧
              (byteAt X (X.length - 769) = 0x0C →
                samplesFit s.params ((u16le X 8 - u16le X 4 + 1) * (u16le X 10 - u16le X 6 + 1)) = false →
                exec (.decpcx fd ba) s = .next (raise .capacityExceeded s)))))))

/-! ### Transforms -/

/-- GRAY (42_transform R175, R176): every palette colour becomes its luma, rounded half up; dimensions and samples
stay; another depth ends with 0x16. -/
def Obligations.GrayReplacesThePalette : Prop :=
  ∀ (s : State) (fd fa : Nat) (P : Frame), fd < s.nFslot → fa < s.nFslot → s.mem.frame? fa = some P →
    (P.depth = .d8 → ∃ pal : List Colour,
      exec (.gray fd fa) s = .next (succeed (s.setFrame fd { P with pal := pal })) ∧ pal.length = P.palLen ∧
      ∀ (i : Nat) (c : Colour), P.pal[i]? = some c → ∃ c' : Colour, pal[i]? = some c' ∧ c'.r = c'.g ∧ c'.g = c'.b ∧
        c'.b.toNat = (299 * c.r.toNat + 587 * c.g.toNat + 114 * c.b.toNat + 500) / 1000) ∧
    (P.depth ≠ .d8 → exec (.gray fd fa) s = .next (raise .depthNotAccepted s))

/-- 42_transform R177: applying GRAY twice equals applying it once. -/
def Obligations.GrayTwiceIsGrayOnce : Prop :=
  ∀ (s t u : State) (fa fd fe : Nat), fe < s.nFslot → exec (.gray fd fa) s = .next t → t.status.err = false →
    exec (.gray fe fd) t = .next u → u.status.err = false ∧ u.mem.frame? fe = t.mem.frame? fd

/-- BORDER (42_transform R180 to R183, R306): the new size, the interior copied, every margin pixel made of the
next `nb` bytes of the entropy sequence in a row-major scan of the margin, and exactly
`nb·(30·W + 30·H + 900)` bytes taken from the port. It holds for every sequence: the bytes supplied and the free
bytes behind them (log 2). -/
def Obligations.BorderAddsTheMargin : Prop :=
  ∀ (s : State) (fd fa nb : Nat) (P : Frame), fd < s.nFslot → fa < s.nFslot → s.mem.frame? fa = some P →
    P.data.length = P.w * P.h →
    ((P.depth = .d8 ∧ nb = 1) ∨ (P.depth = .d24 ∧ nb = 3) ∨ (P.depth = .d32 ∧ nb = 4)) →
    frameFits s.params (P.w + 30) (P.h + 30) = true →
    ∃ Q : Frame,
      exec (.border fd fa) s =
        .next (succeed ((s.setFrame fd Q).drawEntropy (nb * (30 * P.w + 30 * P.h + 900)))) ∧
      Q.w = P.w + 30 ∧ Q.h = P.h + 30 ∧ Q.depth = P.depth ∧ Q.pal = P.pal ∧ Q.data.length = Q.w * Q.h ∧
      (∀ x y, x < P.w → y < P.h → Q.px (x + 15) (y + 15) = P.px x y) ∧
      ∀ x y, x < Q.w → y < Q.h → ¬ (15 ≤ x ∧ x < 15 + P.w ∧ 15 ≤ y ∧ y < 15 + P.h) →
        ∀ k, k = nb * ((List.range (y * Q.w + x)).countP fun a =>
          ¬ (15 ≤ a % Q.w ∧ a % Q.w < 15 + P.w ∧ 15 ≤ a / Q.w ∧ a / Q.w < 15 + P.h)) →
        Q.px x y = ((List.range nb).map fun j => (s.ent (k + j)).toNat * 2 ^ (8 * j)).sum

/-- 42_transform R180, R184, R171: BORDER refuses depths 1 and 4 with 0x16, and a result that does not fit with
0x46. -/
def Obligations.BorderErrorsInOrder : Prop :=
  ∀ (s : State) (fd fa : Nat) (P : Frame), fd < s.nFslot → fa < s.nFslot → s.mem.frame? fa = some P →
    ((P.depth = .d1 ∨ P.depth = .d4) → exec (.border fd fa) s = .next (raise .depthNotAccepted s)) ∧
    (P.depth ≠ .d1 → P.depth ≠ .d4 → frameFits s.params (P.w + 30) (P.h + 30) = false →
      exec (.border fd fa) s = .next (raise .capacityExceeded s))

/-- ROT90 (42_transform R185, R186): source (x, y) goes to (y, W − 1 − x) of the H×W result, and every result
sample is reached; another depth ends with 0x16. -/
def Obligations.RotNinetyMovesEveryPixel : Prop :=
  ∀ (s : State) (fd fa : Nat) (P : Frame), fd < s.nFslot → fa < s.nFslot → s.mem.frame? fa = some P →
    (P.depth = .d24 → ∃ Q : Frame, exec (.rot90 fd fa) s = .next (succeed (s.setFrame fd Q)) ∧
      Q.w = P.h ∧ Q.h = P.w ∧ Q.depth = .d24 ∧ Q.pal = [] ∧ Q.data.length = P.w * P.h ∧
      (∀ x y, x < P.w → y < P.h → Q.px y (Q.h - 1 - x) = P.px x y) ∧
      ∀ x' y', x' < Q.w → y' < Q.h → Q.px x' y' = P.px (P.w - 1 - y') x') ∧
    (P.depth ≠ .d24 → exec (.rot90 fd fa) s = .next (raise .depthNotAccepted s))

/-- 42_transform R187: four applications of ROT90 reproduce a 24-bit frame exactly. -/
def Obligations.FourRotationsAreTheIdentity : Prop :=
  ∀ (s a b c d : State) (f : Nat) (P : Frame), s.mem.frame? f = some P → P.wf s.params = true → P.depth = .d24 →
    exec (.rot90 f f) s = .next a → exec (.rot90 f f) a = .next b → exec (.rot90 f f) b = .next c →
    exec (.rot90 f f) c = .next d →
    d.status.err = false ∧ d.mem.frame? f = some P

/-- SCALE (42_transform R190 to R192): sizes rounded half up, each destination pixel from its clamped source pixel,
palette copied; the errors 0x16, 0x45, 0x46 in order. -/
def Obligations.ScaleSamplesTheNearestPixel : Prop :=
  ∀ (s : State) (fd fa num den W H : Nat) (P : Frame), fd < s.nFslot → fa < s.nFslot → s.mem.frame? fa = some P →
    num = s.arg0.toNat → den = s.arg1.toNat → 1 ≤ num → 1 ≤ den →
    W = (2 * (P.w * num) + den) / (2 * den) → H = (2 * (P.h * num) + den) / (2 * den) →
    (P.depth ≠ .d8 → exec (.scale fd fa) s = .next (raise .depthNotAccepted s)) ∧
    (P.depth = .d8 → (W = 0 ∨ H = 0) → exec (.scale fd fa) s = .next (raise .zeroDimension s)) ∧
    (P.depth = .d8 → W ≠ 0 → H ≠ 0 → frameFits s.params W H = false →
      exec (.scale fd fa) s = .next (raise .capacityExceeded s)) ∧
    (P.depth = .d8 → W ≠ 0 → H ≠ 0 → frameFits s.params W H = true →
      ∃ Q : Frame, exec (.scale fd fa) s = .next (succeed (s.setFrame fd Q)) ∧ Q.w = W ∧ Q.h = H ∧ Q.depth = .d8 ∧
        Q.pal = P.pal ∧ Q.data.length = W * H ∧
        ∀ x y, x < W → y < H → Q.px x y = P.px (min (x * den / num) (P.w - 1)) (min (y * den / num) (P.h - 1)))

/-- 42_transform R192: with exact arithmetic the clamp of SCALE never acts. -/
def Obligations.ScaleClampNeverActs : Prop :=
  ∀ w num den x : Nat, 1 ≤ w → 1 ≤ num → 1 ≤ den → x < rhu (w * num) den →
    x * den / num ≤ w - 1 ∧ scaleSource w num den x = x * den / num

/-- OVERLAY (42_transform R200 to R204): the logo is centred (floor toward minus infinity); a pixel without an
aligned logo pixel, or whose logo pixel equals the key, keeps the background; every other is blended channel by
channel, rounded half up; another depth ends with 0x16. -/
def Obligations.OverlayBlendsTheLogo : Prop :=
  ∀ (s : State) (fd fa fb num den : Nat) (G L : Frame), fd < s.nFslot → fa < s.nFslot → fb < s.nFslot →
    s.mem.frame? fa = some G → s.mem.frame? fb = some L →
    num = s.arg0.toNat → den = s.arg1.toNat → 1 ≤ den → num ≤ den →
    ((G.depth ≠ .d24 ∨ L.depth ≠ .d24) → exec (.overlay fd fa fb) s = .next (raise .depthNotAccepted s)) ∧
    (G.depth = .d24 → L.depth = .d24 →
      ∃ Q : Frame, exec (.overlay fd fa fb) s = .next (succeed (s.setFrame fd Q)) ∧
        Q.w = G.w ∧ Q.h = G.h ∧ Q.depth = .d24 ∧ Q.pal = [] ∧ Q.data.length = G.w * G.h ∧
        ∀ x y, x < G.w → y < G.h → ∀ ox oy : Int, ox = ((G.w : Int) - L.w) / 2 → oy = ((G.h : Int) - L.h) / 2 →
          ((∀ lx ly : Nat, lx < L.w → ly < L.h → ¬ (ox + lx = x ∧ oy + ly = y)) → Q.px x y = G.px x y) ∧
          ∀ lx ly : Nat, lx < L.w → ly < L.h → ox + lx = x → oy + ly = y →
            (L.px lx ly = L.px 0 0 → Q.px x y = G.px x y) ∧
            (L.px lx ly ≠ L.px 0 0 → Q.px x y =
              rhu (bch (G.px x y) * num + bch (L.px lx ly) * (den - num)) den +
              2 ^ 8 * rhu (gch (G.px x y) * num + gch (L.px lx ly) * (den - num)) den +
              2 ^ 16 * rhu (rch (G.px x y) * num + rch (L.px lx ly) * (den - num)) den))

/-- 42_transform R203: the blend lies between its two channel values; weight 1 leaves the background, weight 0 the
logo. -/
def Obligations.BlendStaysBetween : Prop :=
  ∀ num den a c : Nat, 1 ≤ den → num ≤ den →
    min a c ≤ blend num den a c ∧ blend num den a c ≤ max a c ∧ blend den den a c = a ∧ blend 0 den a c = c

/-- 42_transform R205: a frame laid over itself is unchanged. -/
def Obligations.OverlayOfAFrameOnItself : Prop :=
  ∀ (s t : State) (fd f : Nat) (P : Frame), s.mem.frame? f = some P → P.wf s.params = true → fd < s.nFslot →
    exec (.overlay fd f f) s = .next t → t.status.err = false → t.mem.frame? fd = some P

/-! ### The bit packer -/

/-- EMBED (43_stego R213 to R215, 30_encoding R109, R110), bit by bit: bit `t` of the length header and of the
payload (most significant bit of each byte first) stands at bit `b − 1 − t mod b` of container byte `t div b` of
its run; pad bits are 0; the high bits of those bytes and every byte behind them are the container's. The errors
0x47 and 0x20 in order. -/
def Obligations.EmbedHidesEveryBit : Prop :=
  ∀ (s : State) (bd ba bb imm3 b HB PB : Nat) (C P : Buffer), bd < s.nBslot → s.mem.buf? ba = some C →
    s.mem.buf? bb = some P → imm3 ∈ [1, 2, 3] → b = 2 * imm3 →
    HB = (headerBits s.params.header + b - 1) / b → PB = (8 * P.length + b - 1) / b →
    (2 ^ headerBits s.params.header ≤ P.length → exec (.embed bd ba bb imm3) s = .next (raise .lengthOverflow s)) ∧
    (P.length < 2 ^ headerBits s.params.header → C.length < HB + PB →
      exec (.embed bd ba bb imm3) s = .next (raise .containerTooSmall s)) ∧
    (P.length < 2 ^ headerBits s.params.header → HB + PB ≤ C.length →
      ∃ Y : Buffer, exec (.embed bd ba bb imm3) s = .next (succeed (s.setBuf bd Y)) ∧ Y.length = C.length ∧
        (∀ t < HB * b, (byteAt Y (t / b)).getLsbD (b - 1 - t % b) =
          (decide (t < headerBits s.params.header) && (P.length / 256 ^ (t / 8)).testBit (7 - t % 8))) ∧
        (∀ t < PB * b, (byteAt Y (HB + t / b)).getLsbD (b - 1 - t % b) =
          (decide (t < 8 * P.length) && (byteAt P (t / 8)).getLsbD (7 - t % 8))) ∧
        (∀ j < HB + PB, (byteAt Y j).toNat / 2 ^ b = (byteAt C j).toNat / 2 ^ b) ∧
        ∀ j, HB + PB ≤ j → byteAt Y j = byteAt C j)

/-- EXTRACT (43_stego R216, R217), bit by bit, for the one number `L` whose little-endian bytes the header bits
spell; the errors 0x36 and 0x37. -/
def Obligations.ExtractRecoversEveryBit : Prop :=
  ∀ (s : State) (bd ba imm3 b HB : Nat) (C : Buffer), bd < s.nBslot → s.mem.buf? ba = some C →
    imm3 ∈ [1, 2, 3] → b = 2 * imm3 → HB = (headerBits s.params.header + b - 1) / b →
    (C.length < HB → exec (.extract bd ba imm3) s = .next (raise .containerNoHeader s)) ∧
    ∀ L PB : Nat, L < 2 ^ headerBits s.params.header →
      (∀ t < headerBits s.params.header, (L / 256 ^ (t / 8)).testBit (7 - t % 8) =
        (byteAt C (t / b)).getLsbD (b - 1 - t % b)) →
      PB = (8 * L + b - 1) / b → HB ≤ C.length →
      (C.length < HB + PB → exec (.extract bd ba imm3) s = .next (raise .extractTooLong s)) ∧
      (HB + PB ≤ C.length →
        ∃ P : Buffer, exec (.extract bd ba imm3) s = .next (succeed (s.setBuf bd P)) ∧ P.length = L ∧
          ∀ t < 8 * L, (byteAt P (t / 8)).getLsbD (7 - t % 8) = (byteAt C (HB + t / b)).getLsbD (b - 1 - t % b))

/-- 43_stego R218: whenever EMBED succeeds, EXTRACT of its output with the same `b` succeeds and gives the payload
back, for both header widths, every payload and every container. -/
def Obligations.ExtractOfEmbedIsThePayload : Prop :=
  ∀ (s t : State) (bd ba bb be imm3 : Nat) (P : Buffer), s.mem.buf? bb = some P → be < s.nBslot →
    exec (.embed bd ba bb imm3) s = .next t → t.status.err = false →
    ∃ u, exec (.extract be bd imm3) t = .next u ∧ u.status.err = false ∧ u.mem.buf? be = some P

/-- 30_encoding R109: `ungroups` undoes `groups`, for every group width. -/
def Obligations.UngroupsOfGroupsIsTheBits : Prop :=
  ∀ (S : List Bool) (b : Nat), 1 ≤ b → ungroups (groups S b) b S.length = S

/-- 00_scope R13: the three field reads, and the matching writes: what is written little-endian reads back, at any
offset, whatever stands around it. -/
def Obligations.LittleEndianReadsWhatWasWritten : Prop :=
  (∀ (X : Buffer) (o : Nat),
    u16le X o = (byteAt X o).toNat + 256 * (byteAt X (o + 1)).toNat ∧
    u32le X o = (byteAt X o).toNat + 2 ^ 8 * (byteAt X (o + 1)).toNat + 2 ^ 16 * (byteAt X (o + 2)).toNat +
      2 ^ 24 * (byteAt X (o + 3)).toNat ∧
    i32le X o = if u32le X o < 2 ^ 31 then (u32le X o : Int) else (u32le X o : Int) - 2 ^ 32) ∧
  ∀ pre post : Buffer,
    (∀ v < 2 ^ 16, u16le (pre ++ put16 v ++ post) pre.length = v ∧ (put16 v).length = 2) ∧
    (∀ v < 2 ^ 32, u32le (pre ++ put32 v ++ post) pre.length = v ∧ (put32 v).length = 4) ∧
    ∀ v : Int, -(2 ^ 31) ≤ v → v < 2 ^ 31 → i32le (pre ++ putI32 v ++ post) pre.length = v ∧ (putI32 v).length = 4

/-! ### The quantizer -/

/-- QUANT (44_quantizer R241 to R249, 30_encoding R111): the histogram, the candidate order, the greedy pass, the
fill pass and the black padding as folds over the candidates, the index table, the frame and the RGBA rendering;
the errors 0x16, 0x46, 0x38 in order. -/
def Obligations.QuantReducesThePalette : Prop :=
  ∀ (s : State) (fd fa bb K : Nat) (P : Frame), fd < s.nFslot → fa < s.nFslot → bb < s.nBslot →
    s.mem.frame? fa = some P → P.wf s.params = true → K = s.arg0.toNat → 1 ≤ K → K ≤ 256 →
    (P.depth ≠ .d8 → exec (.quant fd fa bb) s = .next (raise .depthNotAccepted s)) ∧
    (P.depth = .d8 → s.params.bufCap < 4 * P.w * P.h →
      exec (.quant fd fa bb) s = .next (raise .capacityExceeded s)) ∧
    (P.depth = .d8 → 4 * P.w * P.h ≤ s.params.bufCap → (∃ v ∈ P.data, P.palLen ≤ v) →
      exec (.quant fd fa bb) s = .next (raise .indexWithoutColour s)) ∧
    (P.depth = .d8 → 4 * P.w * P.h ≤ s.params.bufCap → (∀ v ∈ P.data, v < P.palLen) →
      ∃ (cand hist lut data : List Nat) (np : List Colour) (rgba : Buffer),
        exec (.quant fd fa bb) s = .next (succeed (((s.setFrame fd
          { w := P.w, h := P.h, depth := .d8, pal := np, data := data }).setBuf bb rgba).setTables hist lut)) ∧
        (hist.length = 256 ∧ ∀ i < 256, hist[i]? = some (P.data.count i)) ∧
        cand.Perm (List.range P.palLen) ∧
        cand.Pairwise (fun i j => P.data.count j < P.data.count i ∨ (P.data.count i = P.data.count j ∧ i < j)) ∧
        (∀ greedy fill : List Colour, ∀ colours : List Colour,
          colours = cand.map (fun i => P.pal.getD i { r := 0, g := 0, b := 0 }) →
          greedy = colours.foldl (fun acc c =>
            if acc.length < K ∧ ∀ q ∈ acc, 4000 < d2 c q then acc ++ [c] else acc) [] →
          fill = colours.foldl (fun acc c => if acc.length < K ∧ c ∉ acc then acc ++ [c] else acc) greedy →
          np = fill ++ List.replicate (K - fill.length) { r := 0, g := 0, b := 0 }) ∧
        np.length = K ∧
        lut.length = 256 ∧ (∀ i, P.palLen ≤ i → i < 256 → lut[i]? = some 0) ∧
        (∀ (i : Nat) (c : Colour), P.pal[i]? = some c → ∃ (j : Nat) (q : Colour), lut[i]? = some j ∧ np[j]? = some q ∧
          ∀ (j' : Nat) (q' : Colour), np[j']? = some q' → d2 c q ≤ d2 c q' ∧ (j' < j → d2 c q < d2 c q')) ∧
        data.length = P.data.length ∧
        (∀ (a v : Nat), P.data[a]? = some v → data[a]? = lut[v]?) ∧
        rgba.length = 4 * P.w * P.h ∧
        ∀ (a v : Nat) (q : Colour), data[a]? = some v → np[v]? = some q →
          rgba[4 * a]? = some q.r ∧ rgba[4 * a + 1]? = some q.g ∧ rgba[4 * a + 2]? = some q.b ∧
          rgba[4 * a + 3]? = some 0xFF)

/-- 44_quantizer R242: after a successful QUANT counter `i` is the number of samples equal to `i`, for all 256
values, and the counters add up to the number of pixels. -/
def Obligations.HistogramCountsEveryPixel : Prop :=
  ∀ (s t : State) (fd fa bb : Nat) (P : Frame), s.mem.frame? fa = some P → P.wf s.params = true →
    exec (.quant fd fa bb) s = .next t → t.status.err = false →
    t.hist.length = 256 ∧ (∀ i < 256, t.hist[i]? = some (P.data.count i)) ∧ t.hist.sum = P.w * P.h

/-- 44_quantizer R250: a successful QUANT leaves exactly K palette entries and indices below K; the first entry is
the colour of a most used index; a colour of the source palette that is in the new one is mapped to itself. -/
def Obligations.QuantKeepsTheMostUsedColour : Prop :=
  ∀ (s t : State) (fd fa bb : Nat) (P Q : Frame), s.mem.frame? fa = some P → P.wf s.params = true →
    exec (.quant fd fa bb) s = .next t → t.status.err = false → t.mem.frame? fd = some Q →
    Q.palLen = s.arg0.toNat ∧ (∀ v ∈ Q.data, v < s.arg0.toNat) ∧
    (∃ i, Q.pal[0]? = P.pal[i]? ∧ i < P.palLen ∧ ∀ j < P.palLen, P.data.count j < P.data.count i ∨
      (P.data.count j = P.data.count i ∧ i ≤ j)) ∧
    ∀ (i j : Nat) (c : Colour), P.pal[i]? = some c → c ∈ Q.pal → t.lut[i]? = some j → Q.pal[j]? = some c

/-! ### The bus map -/

/-- 00_scope R8, 10_state R28, 20_memory R71: an access at the bus address of a register, a slot window or the tables
is the host operation on it by number, for a write to CMD, which starts a command, as well. An address where
`REG_MAP` puts nothing faults, and an access the thing there does not have is refused (the model's choice, log 8). -/
def Obligations.BusAccessIsTheAccessByNumber : Prop :=
  ∀ (s : State) (addr : Nat) (x : BusAccess) (rest : List HostAction),
    s.pending = .atBus addr x :: rest → s.status.busy = false →
    (∀ n, busTarget? s.params addr = some (.reg n) →
      (x = .read → step s = step { s with pending := .readReg n :: rest }) ∧
      (∀ v, x = .write v → step s = step { s with pending := .writeReg n v :: rest }) ∧
      (∀ X, x = .load X → step s = .refused .notABusAccess)) ∧
    (∀ b, busTarget? s.params addr = some (.byteSlot b) →
      (x = .read → step s = step { s with pending := .readSlot b :: rest }) ∧
      (∀ v, x = .write v → step s = .refused .notABusAccess) ∧
      (∀ X, x = .load X → step s = step { s with pending := .load b X :: rest })) ∧
    (∀ f, busTarget? s.params addr = some (.frameSlot f) →
      (x = .read → step s = step { s with pending := .readFrame f :: rest }) ∧
      (x ≠ .read → step s = .refused .notABusAccess)) ∧
    (busTarget? s.params addr = some .tables →
      (x = .read → step s = step { s with pending := .readTables :: rest }) ∧
      (x ≠ .read → step s = .refused .notABusAccess)) ∧
    (busTarget? s.params addr = none → step s = .fault .noSuchBusAddress)

/-- 92_eei_decisions, last table: `REG_MAP` is an injective map. In a legal configuration the address of a thing and
the thing at an address are two readings of one map: each is what the map lists, whatever the order of the list. -/
def Obligations.BusMapIsOneToOne : Prop :=
  ∀ (p : Params) (t : BusTarget) (addr : Nat), paramsLegal p = true →
    (busAddress? p t = some addr ↔ (t, addr) ∈ p.regMap) ∧ (busTarget? p addr = some t ↔ (t, addr) ∈ p.regMap)
end

