-- ==== Sys2Proof/Laws/Operands.lean ====
section
/-! SUPPORT. Lemmas about the operand forms: tabulated lists and rasters, byte and little-endian reads, bit runs,
rounding. -/

namespace Sys2Proof.Machine

/-! ### tab and raster -/

@[simp] theorem length_tab {α : Type} (n : Nat) (f : Nat → α) : (tab n f).length = n := by simp [tab]

theorem getElem?_tab {α : Type} (n : Nat) (f : Nat → α) (i : Nat) :
    (tab n f)[i]? = if i < n then some (f i) else none := by
  by_cases h : i < n
  · simp [tab, h]
  · simp [tab, h]

@[simp] theorem getElem_tab {α : Type} (n : Nat) (f : Nat → α) (i : Nat) (h : i < (tab n f).length) :
    (tab n f)[i] = f i := by simp [tab]

theorem getElem?_tab_lt {α : Type} {n : Nat} (f : Nat → α) {i : Nat} (h : i < n) : (tab n f)[i]? = some (f i) := by
  rw [getElem?_tab, if_pos h]

theorem getD_tab {α : Type} (n : Nat) (f : Nat → α) (i : Nat) (d : α) :
    (tab n f).getD i d = if i < n then f i else d := by
  rw [List.getD_eq_getElem?_getD, getElem?_tab]
  split <;> rfl

theorem mem_tab {α : Type} {n : Nat} {f : Nat → α} {v : α} : v ∈ tab n f ↔ ∃ i < n, f i = v := by simp [tab]

@[simp] theorem length_raster {α : Type} (w h : Nat) (f : Nat → Nat → α) : (raster w h f).length = w * h := by
  simp [raster]

/-- The sample address of a pixel lies in the raster (10_state R32). -/
theorem addr_lt {x y w h : Nat} (hx : x < w) (hy : y < h) : y * w + x < w * h := by
  calc y * w + x < y * w + w := by omega
    _ = (y + 1) * w := by ring
    _ ≤ h * w := Nat.mul_le_mul_right _ hy
    _ = w * h := Nat.mul_comm _ _

theorem addr_mod {x y w : Nat} (hx : x < w) : (y * w + x) % w = x := by
  rw [Nat.add_comm, Nat.add_mul_mod_self_right, Nat.mod_eq_of_lt hx]

theorem addr_div {x y w : Nat} (hx : x < w) : (y * w + x) / w = y := by
  have hw : 0 < w := by omega
  rw [Nat.add_comm, Nat.add_mul_div_right _ _ hw, Nat.div_eq_of_lt hx, Nat.zero_add]

/-- Every address of a raster is that of a pixel. -/
theorem addr_split {a w h : Nat} (ha : a < w * h) : a % w < w ∧ a / w < h ∧ a / w * w + a % w = a := by
  have hw : 0 < w := by
    rcases Nat.eq_zero_or_pos w with h0 | h0
    · simp [h0] at ha
    · exact h0
  exact ⟨Nat.mod_lt _ hw, Nat.div_lt_of_lt_mul ha, by rw [Nat.mul_comm]; exact Nat.div_add_mod a w⟩

theorem getD_raster {α : Type} {w h x y : Nat} (f : Nat → Nat → α) (d : α) (hx : x < w) (hy : y < h) :
    (raster w h f).getD (y * w + x) d = f x y := by
  rw [raster, getD_tab, if_pos (addr_lt hx hy), addr_mod hx, addr_div hx]

theorem mem_raster {α : Type} {w h : Nat} {f : Nat → Nat → α} {v : α} (hv : v ∈ raster w h f) :
    ∃ x y, x < w ∧ y < h ∧ f x y = v := by
  obtain ⟨a, ha, rfl⟩ := mem_tab.mp hv
  obtain ⟨h1, h2, -⟩ := addr_split ha
  exact ⟨_, _, h1, h2, rfl⟩

/-- Two frames of one size with the same pixels have the same data. -/
theorem data_eq_raster {P : Frame} (h : P.data.length = P.w * P.h) : P.data = raster P.w P.h P.px := by
  apply List.ext_getElem
  · simp [h]
  · intro a h1 h2
    have ha : a < P.w * P.h := h ▸ h1
    obtain ⟨-, -, h3⟩ := addr_split ha
    simp [raster, tab, Frame.px, h3, List.getElem?_eq_getElem h1]

/-! ### bytes and little-endian fields -/

theorem byteAt_append_left {X Y : Buffer} {i : Nat} (h : i < X.length) : byteAt (X ++ Y) i = byteAt X i := by
  simp [byteAt, List.getElem?_append_left h]

theorem byteAt_append_right {X Y : Buffer} {i : Nat} (h : X.length ≤ i) :
    byteAt (X ++ Y) i = byteAt Y (i - X.length) := by
  simp [byteAt, List.getElem?_append_right h]

theorem byteAt_tab (n : Nat) (f : Nat → Byte) (i : Nat) : byteAt (tab n f) i = if i < n then f i else 0 := getD_tab ..

theorem byteAt_eq_getElem {X : Buffer} {i : Nat} (h : i < X.length) : byteAt X i = X[i] := by simp [byteAt, h]

theorem leRead_lt (X : Buffer) (o n : Nat) : leRead X o n < 256 ^ n := by
  induction n generalizing o with
  | zero => simp [leRead]
  | succ n ih =>
    have h1 := ih (o + 1)
    have h2 : (byteAt X o).toNat < 256 := (byteAt X o).isLt
    simp only [leRead, Nat.pow_succ]
    omega

theorem u16le_lt (X : Buffer) (o : Nat) : u16le X o < 2 ^ 16 := leRead_lt X o 2

theorem u32le_lt (X : Buffer) (o : Nat) : u32le X o < 2 ^ 32 := leRead_lt X o 4

@[simp] theorem length_leBytes (n v : Nat) : (leBytes n v).length = n := by
  induction n generalizing v with
  | zero => rfl
  | succ n ih => simp [leBytes, ih]

/-- A little-endian read looks only at its own bytes. -/
theorem leRead_congr {X Y : Buffer} {o p n : Nat} (h : ∀ k < n, byteAt X (o + k) = byteAt Y (p + k)) :
    leRead X o n = leRead Y p n := by
  induction n generalizing o p with
  | zero => rfl
  | succ n ih =>
    have h0 := h 0 (by omega)
    have hr : leRead X (o + 1) n = leRead Y (p + 1) n := by
      apply ih
      intro k hk
      have := h (k + 1) (by omega)
      rwa [Nat.add_assoc, Nat.add_comm 1 k, Nat.add_assoc, Nat.add_comm 1 k]
    simp only [Nat.add_zero] at h0
    simp [leRead, h0, hr]

/-- A signed field is within 32-bit two's complement. -/
theorem i32le_bounds (X : Buffer) (o : Nat) : -(2 ^ 31) ≤ i32le X o ∧ i32le X o < 2 ^ 31 := by
  have h := u32le_lt X o
  unfold i32le
  split <;> omega

/-! ### depths, samples and bits -/

theorem ofBits_bits (d : Depth) : Depth.ofBits d.bits = some d := by cases d <;> rfl

theorem bits_of_ofBits {n : Nat} {d : Depth} (h : Depth.ofBits n = some d) : d.bits = n := by
  unfold Depth.ofBits at h
  split at h <;> simp_all <;> subst h <;> rfl

theorem bits_lt (v hi lo : Nat) : bits v hi lo < 2 ^ (hi + 1 - lo) := Nat.mod_lt _ (by positivity)

theorem bch_lt (v : Nat) : bch v < 256 := bits_lt v 7 0
theorem gch_lt (v : Nat) : gch v < 256 := bits_lt v 15 8
theorem rch_lt (v : Nat) : rch v < 256 := bits_lt v 23 16

/-- A 24-bit sample is made of its channels (00_scope R15). -/
theorem sample24_channels {v : Nat} (h : v < 2 ^ 24) : sample24 (bch v) (gch v) (rch v) = v := by
  simp only [sample24, bch, gch, rch, bits]
  omega

theorem sample24_lt {b g r : Nat} (hb : b < 256) (hg : g < 256) (hr : r < 256) : sample24 b g r < 2 ^ 24 := by
  unfold sample24; omega

/-! ### bit runs -/

theorem msbVal_append_singleton (S : List Bool) (b : Bool) : msbVal (S ++ [b]) = 2 * msbVal S + b.toNat := by
  simp [msbVal]

theorem tab_succ {α : Type} (n : Nat) (f : Nat → α) : tab (n + 1) f = tab n f ++ [f n] := by
  simp [tab, List.range_succ]

theorem msbVal_tab_lt (n : Nat) (f : Nat → Bool) : msbVal (tab n f) < 2 ^ n := by
  induction n with
  | zero => simp [tab, msbVal]
  | succ n ih =>
    rw [tab_succ, msbVal_append_singleton, Nat.pow_succ]
    have := Bool.toNat_le (f n)
    omega

/-- Bit `n − 1 − t` of the number of a run of `n` bits is its bit `t` (30_encoding R109). -/
theorem testBit_msbVal_tab (n : Nat) (f : Nat → Bool) (t : Nat) (ht : t < n) :
    (msbVal (tab n f)).testBit (n - 1 - t) = f t := by
  induction n with
  | zero => omega
  | succ n ih =>
    rw [tab_succ, msbVal_append_singleton]
    by_cases h : t = n
    · subst h
      have : t + 1 - 1 - t = 0 := by omega
      rw [this, Nat.testBit_zero]
      cases f t <;> simp
    · have ht' : t < n := by omega
      have : n + 1 - 1 - t = (n - 1 - t) + 1 := by omega
      rw [this, Nat.testBit_succ, ← ih ht']
      congr 1
      have := Bool.toNat_le (f n)
      omega

/-! ### rounding -/

/-- Round half up is the floor of n/d + 1/2 (00_scope R11). -/
theorem rhu_mul_self {n d : Nat} (hd : 1 ≤ d) : rhu (n * d) d = n := by
  unfold rhu
  rw [Nat.div_eq_iff (by omega)]
  constructor
  · nlinarith
  · have : 2 * (n * d) + d = n * (2 * d) + d := by ring
    omega

theorem rhu_mono {n m d : Nat} (h : n ≤ m) : rhu n d ≤ rhu m d := Nat.div_le_div_right (by omega)

end Sys2Proof.Machine
end

