-- ==== Sys2Proof/Laws/State.lean ====
section
/-! SUPPORT. One lemma for each field of State after each named update, true by definition, so that no proof
unfolds an update. -/

namespace Sys2Proof.Machine

/-! ### setBuf -/

@[simp] theorem setBuf_params (s : State) (b : BSlot) (X : Buffer) : (s.setBuf b X).params = s.params := rfl
@[simp] theorem setBuf_cmd (s : State) (b : BSlot) (X : Buffer) : (s.setBuf b X).cmd = s.cmd := rfl
@[simp] theorem setBuf_arg0 (s : State) (b : BSlot) (X : Buffer) : (s.setBuf b X).arg0 = s.arg0 := rfl
@[simp] theorem setBuf_arg1 (s : State) (b : BSlot) (X : Buffer) : (s.setBuf b X).arg1 = s.arg1 := rfl
@[simp] theorem setBuf_status (s : State) (b : BSlot) (X : Buffer) : (s.setBuf b X).status = s.status := rfl
@[simp] theorem setBuf_errKind (s : State) (b : BSlot) (X : Buffer) : (s.setBuf b X).errKind = s.errKind := rfl
@[simp] theorem setBuf_errDetail (s : State) (b : BSlot) (X : Buffer) : (s.setBuf b X).errDetail = s.errDetail := rfl
@[simp] theorem setBuf_mem (s : State) (b : BSlot) (X : Buffer) : (s.setBuf b X).mem = s.mem.setBuf b X := rfl
@[simp] theorem setBuf_bh (s : State) (b : BSlot) (X : Buffer) : (s.setBuf b X).bh = s.bh := rfl
@[simp] theorem setBuf_ph (s : State) (b : BSlot) (X : Buffer) : (s.setBuf b X).ph = s.ph := rfl
@[simp] theorem setBuf_hist (s : State) (b : BSlot) (X : Buffer) : (s.setBuf b X).hist = s.hist := rfl
@[simp] theorem setBuf_lut (s : State) (b : BSlot) (X : Buffer) : (s.setBuf b X).lut = s.lut := rfl
@[simp] theorem setBuf_entropy (s : State) (b : BSlot) (X : Buffer) : (s.setBuf b X).entropy = s.entropy := rfl
@[simp] theorem setBuf_entDrawn (s : State) (b : BSlot) (X : Buffer) : (s.setBuf b X).entDrawn = s.entDrawn := rfl
@[simp] theorem setBuf_pending (s : State) (b : BSlot) (X : Buffer) : (s.setBuf b X).pending = s.pending := rfl
@[simp] theorem setBuf_replies (s : State) (b : BSlot) (X : Buffer) : (s.setBuf b X).replies = s.replies := rfl

/-! ### setFrame -/

@[simp] theorem setFrame_params (s : State) (f : FSlot) (P : Frame) : (s.setFrame f P).params = s.params := rfl
@[simp] theorem setFrame_cmd (s : State) (f : FSlot) (P : Frame) : (s.setFrame f P).cmd = s.cmd := rfl
@[simp] theorem setFrame_arg0 (s : State) (f : FSlot) (P : Frame) : (s.setFrame f P).arg0 = s.arg0 := rfl
@[simp] theorem setFrame_arg1 (s : State) (f : FSlot) (P : Frame) : (s.setFrame f P).arg1 = s.arg1 := rfl
@[simp] theorem setFrame_status (s : State) (f : FSlot) (P : Frame) : (s.setFrame f P).status = s.status := rfl
@[simp] theorem setFrame_errKind (s : State) (f : FSlot) (P : Frame) : (s.setFrame f P).errKind = s.errKind := rfl
@[simp] theorem setFrame_errDetail (s : State) (f : FSlot) (P : Frame) : (s.setFrame f P).errDetail = s.errDetail := rfl
@[simp] theorem setFrame_mem (s : State) (f : FSlot) (P : Frame) : (s.setFrame f P).mem = s.mem.setFrame f P := rfl
@[simp] theorem setFrame_bh (s : State) (f : FSlot) (P : Frame) : (s.setFrame f P).bh = s.bh := rfl
@[simp] theorem setFrame_ph (s : State) (f : FSlot) (P : Frame) : (s.setFrame f P).ph = s.ph := rfl
@[simp] theorem setFrame_hist (s : State) (f : FSlot) (P : Frame) : (s.setFrame f P).hist = s.hist := rfl
@[simp] theorem setFrame_lut (s : State) (f : FSlot) (P : Frame) : (s.setFrame f P).lut = s.lut := rfl
@[simp] theorem setFrame_entropy (s : State) (f : FSlot) (P : Frame) : (s.setFrame f P).entropy = s.entropy := rfl
@[simp] theorem setFrame_entDrawn (s : State) (f : FSlot) (P : Frame) : (s.setFrame f P).entDrawn = s.entDrawn := rfl
@[simp] theorem setFrame_pending (s : State) (f : FSlot) (P : Frame) : (s.setFrame f P).pending = s.pending := rfl
@[simp] theorem setFrame_replies (s : State) (f : FSlot) (P : Frame) : (s.setFrame f P).replies = s.replies := rfl

/-! ### setBmpLatch -/

@[simp] theorem setBmpLatch_params (s : State) (l : BmpLatch) : (s.setBmpLatch l).params = s.params := rfl
@[simp] theorem setBmpLatch_cmd (s : State) (l : BmpLatch) : (s.setBmpLatch l).cmd = s.cmd := rfl
@[simp] theorem setBmpLatch_arg0 (s : State) (l : BmpLatch) : (s.setBmpLatch l).arg0 = s.arg0 := rfl
@[simp] theorem setBmpLatch_arg1 (s : State) (l : BmpLatch) : (s.setBmpLatch l).arg1 = s.arg1 := rfl
@[simp] theorem setBmpLatch_status (s : State) (l : BmpLatch) : (s.setBmpLatch l).status = s.status := rfl
@[simp] theorem setBmpLatch_errKind (s : State) (l : BmpLatch) : (s.setBmpLatch l).errKind = s.errKind := rfl
@[simp] theorem setBmpLatch_errDetail (s : State) (l : BmpLatch) : (s.setBmpLatch l).errDetail = s.errDetail := rfl
@[simp] theorem setBmpLatch_mem (s : State) (l : BmpLatch) : (s.setBmpLatch l).mem = s.mem := rfl
@[simp] theorem setBmpLatch_bh (s : State) (l : BmpLatch) : (s.setBmpLatch l).bh = l := rfl
@[simp] theorem setBmpLatch_ph (s : State) (l : BmpLatch) : (s.setBmpLatch l).ph = s.ph := rfl
@[simp] theorem setBmpLatch_hist (s : State) (l : BmpLatch) : (s.setBmpLatch l).hist = s.hist := rfl
@[simp] theorem setBmpLatch_lut (s : State) (l : BmpLatch) : (s.setBmpLatch l).lut = s.lut := rfl
@[simp] theorem setBmpLatch_entropy (s : State) (l : BmpLatch) : (s.setBmpLatch l).entropy = s.entropy := rfl
@[simp] theorem setBmpLatch_entDrawn (s : State) (l : BmpLatch) : (s.setBmpLatch l).entDrawn = s.entDrawn := rfl
@[simp] theorem setBmpLatch_pending (s : State) (l : BmpLatch) : (s.setBmpLatch l).pending = s.pending := rfl
@[simp] theorem setBmpLatch_replies (s : State) (l : BmpLatch) : (s.setBmpLatch l).replies = s.replies := rfl

/-! ### setPcxLatch -/

@[simp] theorem setPcxLatch_params (s : State) (l : PcxLatch) : (s.setPcxLatch l).params = s.params := rfl
@[simp] theorem setPcxLatch_cmd (s : State) (l : PcxLatch) : (s.setPcxLatch l).cmd = s.cmd := rfl
@[simp] theorem setPcxLatch_arg0 (s : State) (l : PcxLatch) : (s.setPcxLatch l).arg0 = s.arg0 := rfl
@[simp] theorem setPcxLatch_arg1 (s : State) (l : PcxLatch) : (s.setPcxLatch l).arg1 = s.arg1 := rfl
@[simp] theorem setPcxLatch_status (s : State) (l : PcxLatch) : (s.setPcxLatch l).status = s.status := rfl
@[simp] theorem setPcxLatch_errKind (s : State) (l : PcxLatch) : (s.setPcxLatch l).errKind = s.errKind := rfl
@[simp] theorem setPcxLatch_errDetail (s : State) (l : PcxLatch) : (s.setPcxLatch l).errDetail = s.errDetail := rfl
@[simp] theorem setPcxLatch_mem (s : State) (l : PcxLatch) : (s.setPcxLatch l).mem = s.mem := rfl
@[simp] theorem setPcxLatch_bh (s : State) (l : PcxLatch) : (s.setPcxLatch l).bh = s.bh := rfl
@[simp] theorem setPcxLatch_ph (s : State) (l : PcxLatch) : (s.setPcxLatch l).ph = l := rfl
@[simp] theorem setPcxLatch_hist (s : State) (l : PcxLatch) : (s.setPcxLatch l).hist = s.hist := rfl
@[simp] theorem setPcxLatch_lut (s : State) (l : PcxLatch) : (s.setPcxLatch l).lut = s.lut := rfl
@[simp] theorem setPcxLatch_entropy (s : State) (l : PcxLatch) : (s.setPcxLatch l).entropy = s.entropy := rfl
@[simp] theorem setPcxLatch_entDrawn (s : State) (l : PcxLatch) : (s.setPcxLatch l).entDrawn = s.entDrawn := rfl
@[simp] theorem setPcxLatch_pending (s : State) (l : PcxLatch) : (s.setPcxLatch l).pending = s.pending := rfl
@[simp] theorem setPcxLatch_replies (s : State) (l : PcxLatch) : (s.setPcxLatch l).replies = s.replies := rfl

/-! ### setTables -/

@[simp] theorem setTables_params (s : State) (h l : List Nat) : (s.setTables h l).params = s.params := rfl
@[simp] theorem setTables_cmd (s : State) (h l : List Nat) : (s.setTables h l).cmd = s.cmd := rfl
@[simp] theorem setTables_arg0 (s : State) (h l : List Nat) : (s.setTables h l).arg0 = s.arg0 := rfl
@[simp] theorem setTables_arg1 (s : State) (h l : List Nat) : (s.setTables h l).arg1 = s.arg1 := rfl
@[simp] theorem setTables_status (s : State) (h l : List Nat) : (s.setTables h l).status = { s.status with qvalid := true } := rfl
@[simp] theorem setTables_errKind (s : State) (h l : List Nat) : (s.setTables h l).errKind = s.errKind := rfl
@[simp] theorem setTables_errDetail (s : State) (h l : List Nat) : (s.setTables h l).errDetail = s.errDetail := rfl
@[simp] theorem setTables_mem (s : State) (h l : List Nat) : (s.setTables h l).mem = s.mem := rfl
@[simp] theorem setTables_bh (s : State) (h l : List Nat) : (s.setTables h l).bh = s.bh := rfl
@[simp] theorem setTables_ph (s : State) (h l : List Nat) : (s.setTables h l).ph = s.ph := rfl
@[simp] theorem setTables_hist (s : State) (h l : List Nat) : (s.setTables h l).hist = h := rfl
@[simp] theorem setTables_lut (s : State) (h l : List Nat) : (s.setTables h l).lut = l := rfl
@[simp] theorem setTables_entropy (s : State) (h l : List Nat) : (s.setTables h l).entropy = s.entropy := rfl
@[simp] theorem setTables_entDrawn (s : State) (h l : List Nat) : (s.setTables h l).entDrawn = s.entDrawn := rfl
@[simp] theorem setTables_pending (s : State) (h l : List Nat) : (s.setTables h l).pending = s.pending := rfl
@[simp] theorem setTables_replies (s : State) (h l : List Nat) : (s.setTables h l).replies = s.replies := rfl

/-! ### drawEntropy -/

@[simp] theorem drawEntropy_params (s : State) (n : Nat) : (s.drawEntropy n).params = s.params := rfl
@[simp] theorem drawEntropy_cmd (s : State) (n : Nat) : (s.drawEntropy n).cmd = s.cmd := rfl
@[simp] theorem drawEntropy_arg0 (s : State) (n : Nat) : (s.drawEntropy n).arg0 = s.arg0 := rfl
@[simp] theorem drawEntropy_arg1 (s : State) (n : Nat) : (s.drawEntropy n).arg1 = s.arg1 := rfl
@[simp] theorem drawEntropy_status (s : State) (n : Nat) : (s.drawEntropy n).status = s.status := rfl
@[simp] theorem drawEntropy_errKind (s : State) (n : Nat) : (s.drawEntropy n).errKind = s.errKind := rfl
@[simp] theorem drawEntropy_errDetail (s : State) (n : Nat) : (s.drawEntropy n).errDetail = s.errDetail := rfl
@[simp] theorem drawEntropy_mem (s : State) (n : Nat) : (s.drawEntropy n).mem = s.mem := rfl
@[simp] theorem drawEntropy_bh (s : State) (n : Nat) : (s.drawEntropy n).bh = s.bh := rfl
@[simp] theorem drawEntropy_ph (s : State) (n : Nat) : (s.drawEntropy n).ph = s.ph := rfl
@[simp] theorem drawEntropy_hist (s : State) (n : Nat) : (s.drawEntropy n).hist = s.hist := rfl
@[simp] theorem drawEntropy_lut (s : State) (n : Nat) : (s.drawEntropy n).lut = s.lut := rfl
@[simp] theorem drawEntropy_entropy (s : State) (n : Nat) : (s.drawEntropy n).entropy = s.entropy.drop n := rfl
@[simp] theorem drawEntropy_entDrawn (s : State) (n : Nat) : (s.drawEntropy n).entDrawn = s.entDrawn + n := rfl
@[simp] theorem drawEntropy_pending (s : State) (n : Nat) : (s.drawEntropy n).pending = s.pending := rfl
@[simp] theorem drawEntropy_replies (s : State) (n : Nat) : (s.drawEntropy n).replies = s.replies := rfl

/-! ### raise -/

@[simp] theorem raise_params (s : State) (d : Detail) : (raise d s).params = s.params := rfl
@[simp] theorem raise_cmd (s : State) (d : Detail) : (raise d s).cmd = s.cmd := rfl
@[simp] theorem raise_arg0 (s : State) (d : Detail) : (raise d s).arg0 = s.arg0 := rfl
@[simp] theorem raise_arg1 (s : State) (d : Detail) : (raise d s).arg1 = s.arg1 := rfl
@[simp] theorem raise_status (s : State) (d : Detail) : (raise d s).status = s.status.failed := rfl
@[simp] theorem raise_errKind (s : State) (d : Detail) : (raise d s).errKind = d.kind := rfl
@[simp] theorem raise_errDetail (s : State) (d : Detail) : (raise d s).errDetail = d := rfl
@[simp] theorem raise_mem (s : State) (d : Detail) : (raise d s).mem = s.mem := rfl
@[simp] theorem raise_bh (s : State) (d : Detail) : (raise d s).bh = s.bh := rfl
@[simp] theorem raise_ph (s : State) (d : Detail) : (raise d s).ph = s.ph := rfl
@[simp] theorem raise_hist (s : State) (d : Detail) : (raise d s).hist = s.hist := rfl
@[simp] theorem raise_lut (s : State) (d : Detail) : (raise d s).lut = s.lut := rfl
@[simp] theorem raise_entropy (s : State) (d : Detail) : (raise d s).entropy = s.entropy := rfl
@[simp] theorem raise_entDrawn (s : State) (d : Detail) : (raise d s).entDrawn = s.entDrawn := rfl
@[simp] theorem raise_pending (s : State) (d : Detail) : (raise d s).pending = s.pending := rfl
@[simp] theorem raise_replies (s : State) (d : Detail) : (raise d s).replies = s.replies := rfl

/-! ### succeed -/

@[simp] theorem succeed_params (s : State) : (succeed s).params = s.params := rfl
@[simp] theorem succeed_cmd (s : State) : (succeed s).cmd = s.cmd := rfl
@[simp] theorem succeed_arg0 (s : State) : (succeed s).arg0 = s.arg0 := rfl
@[simp] theorem succeed_arg1 (s : State) : (succeed s).arg1 = s.arg1 := rfl
@[simp] theorem succeed_status (s : State) : (succeed s).status = s.status.succeeded := rfl
@[simp] theorem succeed_errKind (s : State) : (succeed s).errKind = ErrKind.noKind := rfl
@[simp] theorem succeed_errDetail (s : State) : (succeed s).errDetail = Detail.noError := rfl
@[simp] theorem succeed_mem (s : State) : (succeed s).mem = s.mem := rfl
@[simp] theorem succeed_bh (s : State) : (succeed s).bh = s.bh := rfl
@[simp] theorem succeed_ph (s : State) : (succeed s).ph = s.ph := rfl
@[simp] theorem succeed_hist (s : State) : (succeed s).hist = s.hist := rfl
@[simp] theorem succeed_lut (s : State) : (succeed s).lut = s.lut := rfl
@[simp] theorem succeed_entropy (s : State) : (succeed s).entropy = s.entropy := rfl
@[simp] theorem succeed_entDrawn (s : State) : (succeed s).entDrawn = s.entDrawn := rfl
@[simp] theorem succeed_pending (s : State) : (succeed s).pending = s.pending := rfl
@[simp] theorem succeed_replies (s : State) : (succeed s).replies = s.replies := rfl

/-! ### startCommand -/

@[simp] theorem startCommand_params (s : State) (w : Word) : (startCommand w s).params = s.params := rfl
@[simp] theorem startCommand_cmd (s : State) (w : Word) : (startCommand w s).cmd = w := rfl
@[simp] theorem startCommand_arg0 (s : State) (w : Word) : (startCommand w s).arg0 = s.arg0 := rfl
@[simp] theorem startCommand_arg1 (s : State) (w : Word) : (startCommand w s).arg1 = s.arg1 := rfl
@[simp] theorem startCommand_status (s : State) (w : Word) : (startCommand w s).status = s.status.started := rfl
@[simp] theorem startCommand_errKind (s : State) (w : Word) : (startCommand w s).errKind = s.errKind := rfl
@[simp] theorem startCommand_errDetail (s : State) (w : Word) : (startCommand w s).errDetail = s.errDetail := rfl
@[simp] theorem startCommand_mem (s : State) (w : Word) : (startCommand w s).mem = s.mem := rfl
@[simp] theorem startCommand_bh (s : State) (w : Word) : (startCommand w s).bh = s.bh := rfl
@[simp] theorem startCommand_ph (s : State) (w : Word) : (startCommand w s).ph = s.ph := rfl
@[simp] theorem startCommand_hist (s : State) (w : Word) : (startCommand w s).hist = s.hist := rfl
@[simp] theorem startCommand_lut (s : State) (w : Word) : (startCommand w s).lut = s.lut := rfl
@[simp] theorem startCommand_entropy (s : State) (w : Word) : (startCommand w s).entropy = s.entropy := rfl
@[simp] theorem startCommand_entDrawn (s : State) (w : Word) : (startCommand w s).entDrawn = s.entDrawn := rfl
@[simp] theorem startCommand_pending (s : State) (w : Word) : (startCommand w s).pending = s.pending := rfl
@[simp] theorem startCommand_replies (s : State) (w : Word) : (startCommand w s).replies = s.replies := rfl

/-! ### resetBlock -/

@[simp] theorem resetBlock_params (s : State) : (resetBlock s).params = s.params := rfl
@[simp] theorem resetBlock_cmd (s : State) : (resetBlock s).cmd = 0 := rfl
@[simp] theorem resetBlock_arg0 (s : State) : (resetBlock s).arg0 = 0 := rfl
@[simp] theorem resetBlock_arg1 (s : State) : (resetBlock s).arg1 = 0 := rfl
@[simp] theorem resetBlock_status (s : State) : (resetBlock s).status = Status.initial := rfl
@[simp] theorem resetBlock_errKind (s : State) : (resetBlock s).errKind = ErrKind.noKind := rfl
@[simp] theorem resetBlock_errDetail (s : State) : (resetBlock s).errDetail = Detail.noError := rfl
@[simp] theorem resetBlock_mem (s : State) : (resetBlock s).mem = Memory.initial s.nBslot s.nFslot := rfl
@[simp] theorem resetBlock_bh (s : State) : (resetBlock s).bh = BmpLatch.initial := rfl
@[simp] theorem resetBlock_ph (s : State) : (resetBlock s).ph = PcxLatch.initial := rfl
@[simp] theorem resetBlock_hist (s : State) : (resetBlock s).hist = zeroTable := rfl
@[simp] theorem resetBlock_lut (s : State) : (resetBlock s).lut = zeroTable := rfl
@[simp] theorem resetBlock_entropy (s : State) : (resetBlock s).entropy = s.entropy := rfl
@[simp] theorem resetBlock_entDrawn (s : State) : (resetBlock s).entDrawn = s.entDrawn := rfl
@[simp] theorem resetBlock_pending (s : State) : (resetBlock s).pending = s.pending := rfl
@[simp] theorem resetBlock_replies (s : State) : (resetBlock s).replies = s.replies := rfl

/-! ### reply -/

@[simp] theorem reply_params (s : State) (r : HostReply) : (reply r s).params = s.params := rfl
@[simp] theorem reply_cmd (s : State) (r : HostReply) : (reply r s).cmd = s.cmd := rfl
@[simp] theorem reply_arg0 (s : State) (r : HostReply) : (reply r s).arg0 = s.arg0 := rfl
@[simp] theorem reply_arg1 (s : State) (r : HostReply) : (reply r s).arg1 = s.arg1 := rfl
@[simp] theorem reply_status (s : State) (r : HostReply) : (reply r s).status = s.status := rfl
@[simp] theorem reply_errKind (s : State) (r : HostReply) : (reply r s).errKind = s.errKind := rfl
@[simp] theorem reply_errDetail (s : State) (r : HostReply) : (reply r s).errDetail = s.errDetail := rfl
@[simp] theorem reply_mem (s : State) (r : HostReply) : (reply r s).mem = s.mem := rfl
@[simp] theorem reply_bh (s : State) (r : HostReply) : (reply r s).bh = s.bh := rfl
@[simp] theorem reply_ph (s : State) (r : HostReply) : (reply r s).ph = s.ph := rfl
@[simp] theorem reply_hist (s : State) (r : HostReply) : (reply r s).hist = s.hist := rfl
@[simp] theorem reply_lut (s : State) (r : HostReply) : (reply r s).lut = s.lut := rfl
@[simp] theorem reply_entropy (s : State) (r : HostReply) : (reply r s).entropy = s.entropy := rfl
@[simp] theorem reply_entDrawn (s : State) (r : HostReply) : (reply r s).entDrawn = s.entDrawn := rfl
@[simp] theorem reply_pending (s : State) (r : HostReply) : (reply r s).pending = s.pending := rfl
@[simp] theorem reply_replies (s : State) (r : HostReply) : (reply r s).replies = s.replies ++ [r] := rfl

/-! ### supply -/

@[simp] theorem supply_params (s : State) (e : List Byte) : (supply e s).params = s.params := rfl
@[simp] theorem supply_cmd (s : State) (e : List Byte) : (supply e s).cmd = s.cmd := rfl
@[simp] theorem supply_arg0 (s : State) (e : List Byte) : (supply e s).arg0 = s.arg0 := rfl
@[simp] theorem supply_arg1 (s : State) (e : List Byte) : (supply e s).arg1 = s.arg1 := rfl
@[simp] theorem supply_status (s : State) (e : List Byte) : (supply e s).status = s.status := rfl
@[simp] theorem supply_errKind (s : State) (e : List Byte) : (supply e s).errKind = s.errKind := rfl
@[simp] theorem supply_errDetail (s : State) (e : List Byte) : (supply e s).errDetail = s.errDetail := rfl
@[simp] theorem supply_mem (s : State) (e : List Byte) : (supply e s).mem = s.mem := rfl
@[simp] theorem supply_bh (s : State) (e : List Byte) : (supply e s).bh = s.bh := rfl
@[simp] theorem supply_ph (s : State) (e : List Byte) : (supply e s).ph = s.ph := rfl
@[simp] theorem supply_hist (s : State) (e : List Byte) : (supply e s).hist = s.hist := rfl
@[simp] theorem supply_lut (s : State) (e : List Byte) : (supply e s).lut = s.lut := rfl
@[simp] theorem supply_entropy (s : State) (e : List Byte) : (supply e s).entropy = s.entropy ++ e := rfl
@[simp] theorem supply_entDrawn (s : State) (e : List Byte) : (supply e s).entDrawn = s.entDrawn := rfl
@[simp] theorem supply_pending (s : State) (e : List Byte) : (supply e s).pending = s.pending := rfl
@[simp] theorem supply_replies (s : State) (e : List Byte) : (supply e s).replies = s.replies := rfl

/-! ### withAction -/

@[simp] theorem withAction_params (s : State) (a : HostAction) : (s.withAction a).params = s.params := rfl
@[simp] theorem withAction_cmd (s : State) (a : HostAction) : (s.withAction a).cmd = s.cmd := rfl
@[simp] theorem withAction_arg0 (s : State) (a : HostAction) : (s.withAction a).arg0 = s.arg0 := rfl
@[simp] theorem withAction_arg1 (s : State) (a : HostAction) : (s.withAction a).arg1 = s.arg1 := rfl
@[simp] theorem withAction_status (s : State) (a : HostAction) : (s.withAction a).status = s.status := rfl
@[simp] theorem withAction_errKind (s : State) (a : HostAction) : (s.withAction a).errKind = s.errKind := rfl
@[simp] theorem withAction_errDetail (s : State) (a : HostAction) : (s.withAction a).errDetail = s.errDetail := rfl
@[simp] theorem withAction_mem (s : State) (a : HostAction) : (s.withAction a).mem = s.mem := rfl
@[simp] theorem withAction_bh (s : State) (a : HostAction) : (s.withAction a).bh = s.bh := rfl
@[simp] theorem withAction_ph (s : State) (a : HostAction) : (s.withAction a).ph = s.ph := rfl
@[simp] theorem withAction_hist (s : State) (a : HostAction) : (s.withAction a).hist = s.hist := rfl
@[simp] theorem withAction_lut (s : State) (a : HostAction) : (s.withAction a).lut = s.lut := rfl
@[simp] theorem withAction_entropy (s : State) (a : HostAction) : (s.withAction a).entropy = s.entropy := rfl
@[simp] theorem withAction_entDrawn (s : State) (a : HostAction) : (s.withAction a).entDrawn = s.entDrawn := rfl
@[simp] theorem withAction_pending (s : State) (a : HostAction) : (s.withAction a).pending = a :: s.pending := rfl
@[simp] theorem withAction_replies (s : State) (a : HostAction) : (s.withAction a).replies = s.replies := rfl

/-! ### the flags of the two ends and the start of a command -/

@[simp] theorem failed_busy (st : Status) : st.failed.busy = false := rfl
@[simp] theorem failed_done (st : Status) : st.failed.done = true := rfl
@[simp] theorem failed_err (st : Status) : st.failed.err = true := rfl
@[simp] theorem failed_esticky (st : Status) : st.failed.esticky = true := rfl
@[simp] theorem failed_qvalid (st : Status) : st.failed.qvalid = st.qvalid := rfl
@[simp] theorem succeeded_busy (st : Status) : st.succeeded.busy = false := rfl
@[simp] theorem succeeded_done (st : Status) : st.succeeded.done = true := rfl
@[simp] theorem succeeded_err (st : Status) : st.succeeded.err = false := rfl
@[simp] theorem succeeded_esticky (st : Status) : st.succeeded.esticky = st.esticky := rfl
@[simp] theorem succeeded_qvalid (st : Status) : st.succeeded.qvalid = st.qvalid := rfl
@[simp] theorem started_busy (st : Status) : st.started.busy = true := rfl
@[simp] theorem started_done (st : Status) : st.started.done = false := rfl
@[simp] theorem started_err (st : Status) : st.started.err = st.err := rfl
@[simp] theorem started_esticky (st : Status) : st.started.esticky = st.esticky := rfl
@[simp] theorem started_qvalid (st : Status) : st.started.qvalid = st.qvalid := rfl

/-! ### slots after slot updates -/

@[simp] theorem setBuf_bytes (m : Memory) (b : BSlot) (X : Buffer) : (m.setBuf b X).bytes = m.bytes.set b X := rfl
@[simp] theorem setBuf_frames (m : Memory) (b : BSlot) (X : Buffer) : (m.setBuf b X).frames = m.frames := rfl
@[simp] theorem setFrame_bytes (m : Memory) (f : FSlot) (P : Frame) : (m.setFrame f P).bytes = m.bytes := rfl
@[simp] theorem setFrame_frames (m : Memory) (f : FSlot) (P : Frame) :
    (m.setFrame f P).frames = m.frames.set f (some P) := rfl

@[simp] theorem setBuf_frame? (m : Memory) (b : BSlot) (X : Buffer) (f : FSlot) :
    (m.setBuf b X).frame? f = m.frame? f := rfl
@[simp] theorem setFrame_buf? (m : Memory) (f : FSlot) (P : Frame) (b : BSlot) :
    (m.setFrame f P).buf? b = m.buf? b := rfl
@[simp] theorem setFrame_buf (m : Memory) (f : FSlot) (P : Frame) (b : BSlot) :
    (m.setFrame f P).buf b = m.buf b := rfl

/-- A byte slot read after it was replaced. -/
theorem setBuf_buf?_same (m : Memory) (b : BSlot) (X : Buffer) (h : b < m.bytes.length) :
    (m.setBuf b X).buf? b = some X := by
  simp [Memory.buf?, h]

/-- Another byte slot is left alone. -/
theorem setBuf_buf?_other (m : Memory) (b b' : BSlot) (X : Buffer) (h : b' ≠ b) :
    (m.setBuf b X).buf? b' = m.buf? b' := by
  simp [Memory.buf?, List.getElem?_set_ne (Ne.symm h)]

/-- Another byte slot is left alone. -/
theorem setBuf_buf_other (m : Memory) (b b' : BSlot) (X : Buffer) (h : b' ≠ b) :
    (m.setBuf b X).buf b' = m.buf b' := by
  simp [Memory.buf, List.getElem?_set_ne (Ne.symm h)]

/-- A byte slot that exists holds what `buf?` says. -/
theorem buf_eq_of_buf? {m : Memory} {b : BSlot} {X : Buffer} (h : m.buf? b = some X) : m.buf b = X := by
  simp_all [Memory.buf?, Memory.buf]

/-- A byte slot that has a content exists. -/
theorem lt_of_buf? {m : Memory} {b : BSlot} {X : Buffer} (h : m.buf? b = some X) : b < m.bytes.length := by
  simp only [Memory.buf?] at h
  exact (List.getElem?_eq_some_iff.mp h).1

/-- A frame slot read after it was replaced. -/
theorem setFrame_frame?_same (m : Memory) (f : FSlot) (P : Frame) (h : f < m.frames.length) :
    (m.setFrame f P).frame? f = some P := by
  simp [Memory.frame?, h]

/-- Another frame slot is left alone. -/
theorem setFrame_frame?_other (m : Memory) (f f' : FSlot) (P : Frame) (h : f' ≠ f) :
    (m.setFrame f P).frame? f' = m.frame? f' := by
  simp [Memory.frame?, List.getElem?_set_ne (Ne.symm h)]

/-- A frame slot that is valid exists. -/
theorem lt_of_frame? {m : Memory} {f : FSlot} {P : Frame} (h : m.frame? f = some P) : f < m.frames.length := by
  by_contra hn
  simp [Memory.frame?, List.getElem?_eq_none (Nat.le_of_not_lt hn)] at h

/-- A valid frame slot's frame is one of the stored ones. -/
theorem mem_of_frame? {m : Memory} {f : FSlot} {P : Frame} (h : m.frame? f = some P) : some P ∈ m.frames := by
  have hl := lt_of_frame? h
  simp only [Memory.frame?, List.getD_eq_getElem?_getD, List.getElem?_eq_getElem hl, Option.getD_some] at h
  exact h ▸ List.getElem_mem hl

@[simp] theorem setBuf_nBslot (s : State) (b : BSlot) (X : Buffer) : (s.setBuf b X).nBslot = s.nBslot := by
  simp [State.nBslot]
@[simp] theorem setBuf_nFslot (s : State) (b : BSlot) (X : Buffer) : (s.setBuf b X).nFslot = s.nFslot := rfl
@[simp] theorem setFrame_nBslot (s : State) (f : FSlot) (P : Frame) : (s.setFrame f P).nBslot = s.nBslot := rfl
@[simp] theorem setFrame_nFslot (s : State) (f : FSlot) (P : Frame) : (s.setFrame f P).nFslot = s.nFslot := by
  simp [State.nFslot]

/-! ### the store and the tables after reset -/

@[simp] theorem initial_bytes_length (nb nf : Nat) : (Memory.initial nb nf).bytes.length = nb := List.length_replicate
@[simp] theorem initial_frames_length (nb nf : Nat) : (Memory.initial nb nf).frames.length = nf := List.length_replicate

theorem initial_buf? {nb nf b : Nat} (h : b < nb) : (Memory.initial nb nf).buf? b = some [] := by
  simp [Memory.initial, Memory.buf?, h]

@[simp] theorem initial_frame? (nb nf f : Nat) : (Memory.initial nb nf).frame? f = none := by
  rw [Memory.initial, Memory.frame?, List.getD_eq_getElem?_getD, List.getElem?_replicate]
  split <;> rfl

@[simp] theorem length_zeroTable : zeroTable.length = 256 := List.length_replicate

theorem mem_zeroTable {v : Nat} (h : v ∈ zeroTable) : v = 0 := (List.mem_replicate.mp h).2

@[simp] theorem resetBlock_nBslot (s : State) : (resetBlock s).nBslot = s.nBslot := initial_bytes_length ..
@[simp] theorem resetBlock_nFslot (s : State) : (resetBlock s).nFslot = s.nFslot := initial_frames_length ..

end Sys2Proof.Machine
end

