-- ==== Sys2Proof/Laws/Commands.lean ====
section
/-! SUPPORT. What a command can do, said once: it ends with an error, or it commits (`Committed`). Later proofs cite
`exec_next` and `exec_of_committed` instead of unfolding a meaning. -/

namespace Sys2Proof.Machine

/-! ### the checks -/

theorem need_eq_ok {α : Type} {c : Prop} [Decidable c] {d : Detail} {k : Except Detail α} {v : α} :
    need c d k = .ok v ↔ c ∧ k = .ok v := by
  unfold need; split <;> simp_all

theorem need_eq_error {α : Type} {c : Prop} [Decidable c] {d e : Detail} {k : Except Detail α} :
    need c d k = .error e ↔ (¬ c ∧ e = d) ∨ (c ∧ k = .error e) := by
  unfold need; split <;> simp_all [eq_comm]

theorem need_pos {α : Type} {c : Prop} [Decidable c] {d : Detail} {k : Except Detail α} (h : c) : need c d k = k :=
  if_pos h

theorem need_neg {α : Type} {c : Prop} [Decidable c] {d : Detail} {k : Except Detail α} (h : ¬ c) :
    need c d k = .error d := if_neg h

theorem needSlots_eq {α : Type} (s : State) (bs fs : List Nat) (k : Except Detail α) :
    needSlots s bs fs k = need ((∀ b ∈ bs, b < s.nBslot) ∧ ∀ f ∈ fs, f < s.nFslot) .slotOutOfRange k := rfl

theorem withFrame_eq_ok {α : Type} {s : State} {f : Nat} {k : Frame → Except Detail α} {v : α} :
    withFrame s f k = .ok v ↔ ∃ P, s.mem.frame? f = some P ∧ k P = .ok v := by
  unfold withFrame; split <;> simp_all

theorem withFrame_eq_error {α : Type} {s : State} {f : Nat} {k : Frame → Except Detail α} {e : Detail} :
    withFrame s f k = .error e ↔
      (s.mem.frame? f = none ∧ e = .sourceFrameInvalid) ∨ ∃ P, s.mem.frame? f = some P ∧ k P = .error e := by
  cases h : s.mem.frame? f <;> simp [withFrame, h, eq_comm]

theorem withFrame_some {α : Type} {s : State} {f : Nat} {P : Frame} {k : Frame → Except Detail α}
    (h : s.mem.frame? f = some P) : withFrame s f k = k P := by simp [withFrame, h]

theorem storeFrame_eq_ok {s : State} {f : Nat} {r : Except Detail Frame} {u : State} :
    storeFrame s f r = .ok u ↔ ∃ Q, r = .ok Q ∧ u = s.setFrame f Q := by
  unfold storeFrame; split <;> simp_all [eq_comm]

theorem storeFrame_eq_error {s : State} {f : Nat} {r : Except Detail Frame} {e : Detail} :
    storeFrame s f r = .error e ↔ r = .error e := by
  unfold storeFrame; split <;> simp_all

theorem storeBuf_eq_ok {s : State} {b : Nat} {r : Except Detail Buffer} {u : State} :
    storeBuf s b r = .ok u ↔ ∃ Y, r = .ok Y ∧ u = s.setBuf b Y := by
  unfold storeBuf; split <;> simp_all [eq_comm]

theorem storeBuf_eq_error {s : State} {b : Nat} {r : Except Detail Buffer} {e : Detail} :
    storeBuf s b r = .error e ↔ r = .error e := by
  unfold storeBuf; split <;> simp_all

@[simp] theorem storeFrame_ok (s : State) (f : Nat) (Q : Frame) : storeFrame s f (.ok Q) = .ok (s.setFrame f Q) := rfl
@[simp] theorem storeFrame_error (s : State) (f : Nat) (d : Detail) : storeFrame s f (.error d) = .error d := rfl
@[simp] theorem storeBuf_ok (s : State) (b : Nat) (Y : Buffer) : storeBuf s b (.ok Y) = .ok (s.setBuf b Y) := rfl
@[simp] theorem storeBuf_error (s : State) (b : Nat) (d : Detail) : storeBuf s b (.error d) = .error d := rfl
@[simp] theorem conclude_ok (s u : State) : conclude s (.ok u) = .next (succeed u) := rfl
@[simp] theorem conclude_error (s : State) (d : Detail) : conclude s (.error d) = .next (raise d s) := rfl

theorem conclude_eq_next {s t : State} {r : Except Detail State} :
    conclude s r = .next t ↔ (∃ d, r = .error d ∧ t = raise d s) ∨ ∃ u, r = .ok u ∧ t = succeed u := by
  cases r <;> simp [eq_comm]

/-! ### the commits -/

/-- `Committed i s u`: command `i` passes all its checks from `s`, and `u` is `s` with its data results written,
before the status writes of R272. -/
inductive Committed : Instr → State → State → Prop where
  | decbmp {s : State} {fd ba : Nat} {X : Buffer} {Q : Frame} (hf : fd < s.nFslot) (hb : s.mem.buf? ba = some X)
      (hr : decodeBmp s.params X = .ok Q) :
      Committed (.decbmp fd ba) s ((s.setBmpLatch (bmpLatchOf X)).setFrame fd Q)
  | encbmp {s : State} {bd fa : Nat} {td : Bool} {P : Frame} {Y : Buffer} (hb : bd < s.nBslot)
      (hp : s.mem.frame? fa = some P) (hr : encodeBmp s.params P td = .ok Y) :
      Committed (.encbmp bd fa td) s (s.setBuf bd Y)
  | decpcx {s : State} {fd ba : Nat} {X : Buffer} {Q : Frame} (hf : fd < s.nFslot) (hb : s.mem.buf? ba = some X)
      (hr : decodePcx s.params X = .ok Q) :
      Committed (.decpcx fd ba) s ((s.setPcxLatch (pcxLatchOf X)).setFrame fd Q)
  | gray {s : State} {fd fa : Nat} {P Q : Frame} (hf : fd < s.nFslot) (hp : s.mem.frame? fa = some P)
      (hr : grayFrame P = .ok Q) : Committed (.gray fd fa) s (s.setFrame fd Q)
  | border {s : State} {fd fa nb : Nat} {P : Frame} (hf : fd < s.nFslot) (hp : s.mem.frame? fa = some P)
      (hn : borderBytes P.depth = some nb)
      (hr : frameFits s.params (P.w + 2 * Config.borderW) (P.h + 2 * Config.borderW) = true) :
      Committed (.border fd fa) s ((s.setFrame fd (borderFrame P nb s.ent)).drawEntropy (borderDraw P nb))
  | rot90 {s : State} {fd fa : Nat} {P Q : Frame} (hf : fd < s.nFslot) (hp : s.mem.frame? fa = some P)
      (hr : rot90Frame P = .ok Q) : Committed (.rot90 fd fa) s (s.setFrame fd Q)
  | scale {s : State} {fd fa : Nat} {P Q : Frame} (hf : fd < s.nFslot) (hp : s.mem.frame? fa = some P)
      (ho : s.arg0 ≠ 0 ∧ s.arg1 ≠ 0) (hr : scaleFrame s.params P s.arg0.toNat s.arg1.toNat = .ok Q) :
      Committed (.scale fd fa) s (s.setFrame fd Q)
  | overlay {s : State} {fd fa fb : Nat} {G L Q : Frame} (hf : fd < s.nFslot) (hg : s.mem.frame? fa = some G)
      (hl : s.mem.frame? fb = some L) (ho : s.arg1 ≠ 0 ∧ s.arg0.toNat ≤ s.arg1.toNat)
      (hr : overlayFrame G L s.arg0.toNat s.arg1.toNat = .ok Q) :
      Committed (.overlay fd fa fb) s (s.setFrame fd Q)
  | embed {s : State} {bd ba bb imm3 : Nat} {C P Y : Buffer} (hd : bd < s.nBslot) (hc : s.mem.buf? ba = some C)
      (hp : s.mem.buf? bb = some P) (ho : imm3Legal imm3 = true)
      (hr : embed s.params.header (2 * imm3) C P = .ok Y) : Committed (.embed bd ba bb imm3) s (s.setBuf bd Y)
  | extract {s : State} {bd ba imm3 : Nat} {C Y : Buffer} (hd : bd < s.nBslot) (hc : s.mem.buf? ba = some C)
      (ho : imm3Legal imm3 = true) (hr : extract s.params.header (2 * imm3) C = .ok Y) :
      Committed (.extract bd ba imm3) s (s.setBuf bd Y)
  | quant {s : State} {fd fa bb : Nat} {P : Frame} (hf : fd < s.nFslot) (hb : bb < s.nBslot)
      (hp : s.mem.frame? fa = some P) (ho : 1 ≤ s.arg0.toNat ∧ s.arg0.toNat ≤ 256) (hd : P.depth = .d8)
      (hc : 4 * P.w * P.h ≤ s.params.bufCap) (hi : indexWithoutEntry (histogram P.data) P.palLen = false) :
      Committed (.quant fd fa bb) s (quantCommit s fd bb P s.arg0.toNat)

theorem buf?_of_lt {s : State} {b : Nat} (h : b < s.nBslot) : s.mem.buf? b = some (s.mem.buf b) := by
  have h' : b < s.mem.bytes.length := h
  simp [Memory.buf?, Memory.buf, h']

/-- A command that commits answers the successful next state. -/
theorem exec_of_committed {i : Instr} {s u : State} (h : Committed i s u) : exec i s = .next (succeed u) := by
  cases h with
  | decbmp hf hb hr =>
    simp [exec, execDecbmp, needSlots_eq, need_pos, hf, show _ < s.nBslot from lt_of_buf? hb, buf_eq_of_buf? hb, hr]
  | encbmp hb hp hr =>
    simp [exec, execEncbmp, needSlots_eq, need_pos, hb, show _ < s.nFslot from lt_of_frame? hp, withFrame_some hp, hr]
  | decpcx hf hb hr =>
    simp [exec, execDecpcx, needSlots_eq, need_pos, hf, show _ < s.nBslot from lt_of_buf? hb, buf_eq_of_buf? hb, hr]
  | gray hf hp hr =>
    simp [exec, execGray, needSlots_eq, need_pos, hf, show _ < s.nFslot from lt_of_frame? hp, withFrame_some hp, hr]
  | border hf hp hn hr =>
    simp [exec, execBorder, needSlots_eq, need_pos, hf, show _ < s.nFslot from lt_of_frame? hp, withFrame_some hp, hn, hr]
  | rot90 hf hp hr =>
    simp [exec, execRot90, needSlots_eq, need_pos, hf, show _ < s.nFslot from lt_of_frame? hp, withFrame_some hp, hr]
  | scale hf hp ho hr =>
    simp only [exec, execScale, needSlots_eq]
    rw [need_pos (by simp [hf, show _ < s.nFslot from lt_of_frame? hp]), withFrame_some hp, need_pos ho, hr]
    rfl
  | overlay hf hg hl ho hr =>
    simp only [exec, execOverlay, needSlots_eq]
    rw [need_pos (by simp [hf, show _ < s.nFslot from lt_of_frame? hg, show _ < s.nFslot from lt_of_frame? hl]),
      withFrame_some hg, withFrame_some hl, need_pos ho, hr]
    rfl
  | embed hd hc hp ho hr =>
    simp [exec, execEmbed, needSlots_eq, need_pos, hd, show _ < s.nBslot from lt_of_buf? hc,
      show _ < s.nBslot from lt_of_buf? hp, buf_eq_of_buf? hc, buf_eq_of_buf? hp, ho, hr]
  | extract hd hc ho hr =>
    simp [exec, execExtract, needSlots_eq, need_pos, hd, show _ < s.nBslot from lt_of_buf? hc, buf_eq_of_buf? hc, ho, hr]
  | quant hf hb hp ho hd hc hi =>
    simp [exec, execQuant, needSlots_eq, need_pos, hf, hb, show _ < s.nFslot from lt_of_frame? hp, withFrame_some hp,
      ho, hd, hc, hi]

/-! ### the errors of the result functions are never "no error" -/

theorem decodeBmp_error {p : Params} {X : Buffer} {d : Detail} (h : decodeBmp p X = .error d) : d ≠ .noError := by
  unfold decodeBmp at h
  simp only [need_eq_error] at h
  rcases h with ⟨-, rfl⟩ | ⟨-, ⟨-, rfl⟩ | ⟨-, ⟨-, rfl⟩ | ⟨-, h⟩⟩⟩ <;> try simp
  split at h
  · simp_all [eq_comm]
  · simp only [need_eq_error] at h
    rcases h with ⟨-, rfl⟩ | ⟨-, ⟨-, rfl⟩ | ⟨-, ⟨-, rfl⟩ | ⟨-, ⟨-, rfl⟩ | ⟨-, ⟨-, rfl⟩ | ⟨-, h⟩⟩⟩⟩⟩ <;> simp_all

theorem encodeBmp_error {p : Params} {P : Frame} {td : Bool} {d : Detail} (h : encodeBmp p P td = .error d) :
    d ≠ .noError := by
  simp only [encodeBmp, need_eq_error] at h
  rcases h with ⟨-, rfl⟩ | ⟨-, h⟩ <;> simp_all

/-- A literal control byte (41_pcx_codec R157). -/
theorem rleProduce_literal {n : Nat} {c : Byte} {rest : Buffer} (hc : isRunMarker c = false) :
    rleProduce (n + 1) (c :: rest) = match rleProduce n rest with
      | .ok (out, left) => .ok (c :: out, left)
      | .error d => .error d := by
  rw [rleProduce.eq_def]
  simp only [hc]
  rfl

/-- A run marker and its value byte (41_pcx_codec R157). -/
theorem rleProduce_run {n : Nat} {c v : Byte} {rest : Buffer} (hc : isRunMarker c = true) :
    rleProduce (n + 1) (c :: v :: rest) = match rleProduce (n + 1 - bits c.toNat 5 0) rest with
      | .ok (out, left) => .ok (List.replicate (bits c.toNat 5 0) v ++ out, left)
      | .error d => .error d := by
  rw [rleProduce.eq_def]
  simp only [hc]
  rfl

/-- A run marker whose value byte is missing (41_pcx_codec R159). -/
theorem rleProduce_marker_alone {n : Nat} {c : Byte} (hc : isRunMarker c = true) :
    rleProduce (n + 1) [c] = .error .pcxDataExhausted := by
  rw [rleProduce.eq_def]
  simp [hc]

@[simp] theorem rleProduce_zero (R : Buffer) : rleProduce 0 R = .ok ([], R) := by rw [rleProduce.eq_def]

@[simp] theorem rleProduce_nil (n : Nat) : rleProduce (n + 1) [] = .error .pcxDataExhausted := by
  rw [rleProduce.eq_def]

theorem rleProduce_error {n : Nat} {R : Buffer} {d : Detail} (h : rleProduce n R = .error d) :
    d = .pcxDataExhausted := by
  induction n, R using rleProduce.induct with
  | case1 => simp at h
  | case2 => simpa [eq_comm] using h
  | case3 n c hc => simpa [rleProduce_marker_alone hc, eq_comm] using h
  | case4 n c hc v rest' out left hr ih => simp [rleProduce_run hc, hr] at h
  | case5 n c hc v rest' e hr ih => exact ih (by simpa [rleProduce_run hc, hr] using h)
  | case6 n c rest hc out left hr ih => simp [rleProduce_literal (by simpa using hc), hr] at h
  | case7 n c rest hc e hr ih => exact ih (by simpa [rleProduce_literal (by simpa using hc), hr] using h)

theorem rleRows_error {w bpl h : Nat} {R : Buffer} {d : Detail} (hr : rleRows w bpl h R = .error d) :
    d = .pcxDataExhausted := by
  induction h generalizing R with
  | zero => simp [rleRows] at hr
  | succ h ih =>
    simp only [rleRows] at hr
    split at hr
    · next e he => exact rleProduce_error (by simpa [← Except.error.inj hr] using he)
    · split at hr
      · next e he => exact ih (by simpa [← Except.error.inj hr] using he)
      · simp at hr

theorem decodePcx_error {p : Params} {X : Buffer} {d : Detail} (h : decodePcx p X = .error d) : d ≠ .noError := by
  simp only [decodePcx, need_eq_error] at h
  rcases h with ⟨-, rfl⟩ | ⟨-, ⟨-, rfl⟩ | ⟨-, ⟨-, rfl⟩ | ⟨-, ⟨-, rfl⟩ | ⟨-, ⟨-, rfl⟩ | ⟨-, ⟨-, rfl⟩ | ⟨-, ⟨-, rfl⟩ |
    ⟨-, ⟨-, rfl⟩ | ⟨-, ⟨-, rfl⟩ | ⟨-, h⟩⟩⟩⟩⟩⟩⟩⟩⟩ <;> try simp
  split at h
  · next e he =>
    have := rleRows_error he
    rw [← Except.error.inj h, this]
    simp
  · simp at h

theorem grayFrame_error {P : Frame} {d : Detail} (h : grayFrame P = .error d) : d ≠ .noError := by
  simp only [grayFrame, need_eq_error] at h
  rcases h with ⟨-, rfl⟩ | ⟨-, h⟩ <;> simp_all

theorem rot90Frame_error {P : Frame} {d : Detail} (h : rot90Frame P = .error d) : d ≠ .noError := by
  simp only [rot90Frame, need_eq_error] at h
  rcases h with ⟨-, rfl⟩ | ⟨-, h⟩ <;> simp_all

theorem scaleFrame_error {p : Params} {P : Frame} {n m : Nat} {d : Detail} (h : scaleFrame p P n m = .error d) :
    d ≠ .noError := by
  simp only [scaleFrame, need_eq_error] at h
  rcases h with ⟨-, rfl⟩ | ⟨-, ⟨-, rfl⟩ | ⟨-, ⟨-, rfl⟩ | ⟨-, h⟩⟩⟩ <;> simp_all

theorem overlayFrame_error {G L : Frame} {n m : Nat} {d : Detail} (h : overlayFrame G L n m = .error d) :
    d ≠ .noError := by
  simp only [overlayFrame, need_eq_error] at h
  rcases h with ⟨-, rfl⟩ | ⟨-, h⟩ <;> simp_all

theorem embed_error {hw : HeaderWidth} {b : Nat} {C P : Buffer} {d : Detail} (h : embed hw b C P = .error d) :
    d ≠ .noError := by
  simp only [embed, need_eq_error] at h
  rcases h with ⟨-, rfl⟩ | ⟨-, ⟨-, rfl⟩ | ⟨-, h⟩⟩ <;> simp_all

theorem extract_error {hw : HeaderWidth} {b : Nat} {C : Buffer} {d : Detail} (h : extract hw b C = .error d) :
    d ≠ .noError := by
  simp only [extract, need_eq_error] at h
  rcases h with ⟨-, rfl⟩ | ⟨-, ⟨-, rfl⟩ | ⟨-, h⟩⟩ <;> simp_all

/-! ### the inversion of exec -/

/-- What a command can answer: the error entry with a real cause, or its commit. -/
theorem exec_next {i : Instr} {s t : State} (h : exec i s = .next t) :
    (∃ d, d ≠ .noError ∧ t = raise d s) ∨ ∃ u, Committed i s u ∧ t = succeed u := by
  cases i with
  | decbmp fd ba =>
    simp only [exec, execDecbmp, conclude_eq_next, needSlots_eq, need_eq_error, need_eq_ok, storeFrame_eq_error,
      storeFrame_eq_ok] at h
    rcases h with ⟨d, ⟨-, rfl⟩ | ⟨-, h⟩, rfl⟩ | ⟨u, ⟨⟨hb, hf⟩, Q, hr, rfl⟩, rfl⟩
    · exact .inl ⟨_, by simp, rfl⟩
    · exact .inl ⟨_, decodeBmp_error h, rfl⟩
    · exact .inr ⟨_, .decbmp (by simpa using hf) (buf?_of_lt (by simpa using hb)) hr, rfl⟩
  | encbmp bd fa td =>
    simp only [exec, execEncbmp, conclude_eq_next, needSlots_eq, need_eq_error, need_eq_ok, withFrame_eq_error,
      withFrame_eq_ok, storeBuf_eq_error, storeBuf_eq_ok] at h
    rcases h with ⟨d, ⟨-, rfl⟩ | ⟨-, ⟨-, rfl⟩ | ⟨P, -, h⟩⟩, rfl⟩ | ⟨u, ⟨⟨hb, hf⟩, P, hp, Q, hr, rfl⟩, rfl⟩
    · exact .inl ⟨_, by simp, rfl⟩
    · exact .inl ⟨_, by simp, rfl⟩
    · exact .inl ⟨_, encodeBmp_error h, rfl⟩
    · exact .inr ⟨_, .encbmp (by simpa using hb) hp hr, rfl⟩
  | decpcx fd ba =>
    simp only [exec, execDecpcx, conclude_eq_next, needSlots_eq, need_eq_error, need_eq_ok, storeFrame_eq_error,
      storeFrame_eq_ok] at h
    rcases h with ⟨d, ⟨-, rfl⟩ | ⟨-, h⟩, rfl⟩ | ⟨u, ⟨⟨hb, hf⟩, Q, hr, rfl⟩, rfl⟩
    · exact .inl ⟨_, by simp, rfl⟩
    · exact .inl ⟨_, decodePcx_error h, rfl⟩
    · exact .inr ⟨_, .decpcx (by simpa using hf) (buf?_of_lt (by simpa using hb)) hr, rfl⟩
  | gray fd fa =>
    simp only [exec, execGray, conclude_eq_next, needSlots_eq, need_eq_error, need_eq_ok, withFrame_eq_error,
      withFrame_eq_ok, storeFrame_eq_error, storeFrame_eq_ok] at h
    rcases h with ⟨d, ⟨-, rfl⟩ | ⟨-, ⟨-, rfl⟩ | ⟨P, -, h⟩⟩, rfl⟩ | ⟨u, ⟨⟨-, hf⟩, P, hp, Q, hr, rfl⟩, rfl⟩
    · exact .inl ⟨_, by simp, rfl⟩
    · exact .inl ⟨_, by simp, rfl⟩
    · exact .inl ⟨_, grayFrame_error h, rfl⟩
    · exact .inr ⟨_, .gray (hf _ (by simp)) hp hr, rfl⟩
  | border fd fa =>
    simp only [exec, execBorder, conclude_eq_next, needSlots_eq, need_eq_error, need_eq_ok, withFrame_eq_error,
      withFrame_eq_ok] at h
    rcases h with ⟨d, ⟨-, rfl⟩ | ⟨-, ⟨-, rfl⟩ | ⟨P, -, h⟩⟩, rfl⟩ | ⟨u, ⟨⟨-, hf⟩, P, hp, hr⟩, rfl⟩
    · exact .inl ⟨_, by simp, rfl⟩
    · exact .inl ⟨_, by simp, rfl⟩
    · refine .inl ⟨_, ?_, rfl⟩
      split at h
      · simp_all [eq_comm]
      · simp only [need_eq_error] at h
        rcases h with ⟨-, rfl⟩ | ⟨-, h⟩ <;> simp_all
    · split at hr
      · simp at hr
      · next nb hn =>
        obtain ⟨hfit, hu⟩ := need_eq_ok.mp hr
        obtain rfl := Except.ok.inj hu
        exact .inr ⟨_, .border (hf _ (by simp)) hp hn hfit, rfl⟩
  | rot90 fd fa =>
    simp only [exec, execRot90, conclude_eq_next, needSlots_eq, need_eq_error, need_eq_ok, withFrame_eq_error,
      withFrame_eq_ok, storeFrame_eq_error, storeFrame_eq_ok] at h
    rcases h with ⟨d, ⟨-, rfl⟩ | ⟨-, ⟨-, rfl⟩ | ⟨P, -, h⟩⟩, rfl⟩ | ⟨u, ⟨⟨-, hf⟩, P, hp, Q, hr, rfl⟩, rfl⟩
    · exact .inl ⟨_, by simp, rfl⟩
    · exact .inl ⟨_, by simp, rfl⟩
    · exact .inl ⟨_, rot90Frame_error h, rfl⟩
    · exact .inr ⟨_, .rot90 (hf _ (by simp)) hp hr, rfl⟩
  | scale fd fa =>
    simp only [exec, execScale, conclude_eq_next, needSlots_eq, need_eq_error, need_eq_ok, withFrame_eq_error,
      withFrame_eq_ok, storeFrame_eq_error, storeFrame_eq_ok] at h
    rcases h with ⟨d, ⟨-, rfl⟩ | ⟨-, ⟨-, rfl⟩ | ⟨P, -, ⟨-, rfl⟩ | ⟨-, h⟩⟩⟩, rfl⟩ | ⟨u, ⟨⟨-, hf⟩, P, hp, ho, Q, hr, rfl⟩, rfl⟩
    · exact .inl ⟨_, by simp, rfl⟩
    · exact .inl ⟨_, by simp, rfl⟩
    · exact .inl ⟨_, by simp, rfl⟩
    · exact .inl ⟨_, scaleFrame_error h, rfl⟩
    · exact .inr ⟨_, .scale (hf _ (by simp)) hp ho hr, rfl⟩
  | overlay fd fa fb =>
    simp only [exec, execOverlay, conclude_eq_next, needSlots_eq, need_eq_error, need_eq_ok, withFrame_eq_error,
      withFrame_eq_ok, storeFrame_eq_error, storeFrame_eq_ok] at h
    rcases h with ⟨d, ⟨-, rfl⟩ | ⟨-, ⟨-, rfl⟩ | ⟨P, -, ⟨-, rfl⟩ | ⟨L, -, ⟨-, rfl⟩ | ⟨-, h⟩⟩⟩⟩, rfl⟩ |
      ⟨u, ⟨⟨-, hf⟩, P, hp, L, hl, ho, Q, hr, rfl⟩, rfl⟩
    · exact .inl ⟨_, by simp, rfl⟩
    · exact .inl ⟨_, by simp, rfl⟩
    · exact .inl ⟨_, by simp, rfl⟩
    · exact .inl ⟨_, by simp, rfl⟩
    · exact .inl ⟨_, overlayFrame_error h, rfl⟩
    · exact .inr ⟨_, .overlay (hf _ (by simp)) hp hl ho hr, rfl⟩
  | embed bd ba bb imm3 =>
    simp only [exec, execEmbed, conclude_eq_next, needSlots_eq, need_eq_error, need_eq_ok, storeBuf_eq_error,
      storeBuf_eq_ok] at h
    rcases h with ⟨d, ⟨-, rfl⟩ | ⟨-, ⟨-, rfl⟩ | ⟨-, h⟩⟩, rfl⟩ | ⟨u, ⟨⟨hb, -⟩, ho, Q, hr, rfl⟩, rfl⟩
    · exact .inl ⟨_, by simp, rfl⟩
    · exact .inl ⟨_, by simp, rfl⟩
    · exact .inl ⟨_, embed_error h, rfl⟩
    · exact .inr ⟨_, .embed (hb _ (by simp)) (buf?_of_lt (hb _ (by simp))) (buf?_of_lt (hb _ (by simp))) ho hr, rfl⟩
  | extract bd ba imm3 =>
    simp only [exec, execExtract, conclude_eq_next, needSlots_eq, need_eq_error, need_eq_ok, storeBuf_eq_error,
      storeBuf_eq_ok] at h
    rcases h with ⟨d, ⟨-, rfl⟩ | ⟨-, ⟨-, rfl⟩ | ⟨-, h⟩⟩, rfl⟩ | ⟨u, ⟨⟨hb, -⟩, ho, Q, hr, rfl⟩, rfl⟩
    · exact .inl ⟨_, by simp, rfl⟩
    · exact .inl ⟨_, by simp, rfl⟩
    · exact .inl ⟨_, extract_error h, rfl⟩
    · exact .inr ⟨_, .extract (hb _ (by simp)) (buf?_of_lt (hb _ (by simp))) ho hr, rfl⟩
  | quant fd fa bb =>
    simp only [exec, execQuant, conclude_eq_next, needSlots_eq, need_eq_error, need_eq_ok, withFrame_eq_error,
      withFrame_eq_ok] at h
    rcases h with ⟨d, ⟨-, rfl⟩ | ⟨-, ⟨-, rfl⟩ | ⟨P, -, ⟨-, rfl⟩ | ⟨-, ⟨-, rfl⟩ | ⟨-, ⟨-, rfl⟩ | ⟨-, ⟨-, rfl⟩ | ⟨-, h⟩⟩⟩⟩⟩⟩, rfl⟩ |
      ⟨u, ⟨⟨hb, hf⟩, P, hp, ho, hd, hc, hi, hu⟩, rfl⟩
    · exact .inl ⟨_, by simp, rfl⟩
    · exact .inl ⟨_, by simp, rfl⟩
    · exact .inl ⟨_, by simp, rfl⟩
    · exact .inl ⟨_, by simp, rfl⟩
    · exact .inl ⟨_, by simp, rfl⟩
    · exact .inl ⟨_, by simp, rfl⟩
    · simp at h
    · obtain rfl := Except.ok.inj hu
      exact .inr ⟨_, .quant (hf _ (by simp)) (hb _ (by simp)) hp ho hd hc hi, rfl⟩

/-- Every meaning is a `conclude`. -/
theorem exec_eq_conclude (i : Instr) (s : State) : ∃ r, exec i s = conclude s r := by
  cases i <;> exact ⟨_, rfl⟩

/-- A commit leaves the error status and what stands outside the block as it was; only BORDER touches the entropy
port. -/
theorem committed_frame {i : Instr} {s u : State} (h : Committed i s u) :
    u.params = s.params ∧ u.cmd = s.cmd ∧ u.arg0 = s.arg0 ∧ u.arg1 = s.arg1 ∧ u.status.esticky = s.status.esticky ∧
      u.pending = s.pending ∧ u.replies = s.replies ∧ u.nBslot = s.nBslot ∧ u.nFslot = s.nFslot := by
  cases h <;> simp [quantCommit, State.nBslot, State.nFslot]

end Sys2Proof.Machine
end

