-- ==== Sys2Proof/Laws/Memory.lean ====
section
/-! SUPPORT. The form of the slot store (`Memory.wf`, spec 10_state R29, R31): what it says, that every memory
operation keeps it, and that reset has it. -/

namespace Sys2Proof.Machine

/-- What a well-formed frame is (R31). -/
theorem frame_wf_iff {p : Params} {P : Frame} : P.wf p = true ↔
    1 ≤ P.w ∧ 1 ≤ P.h ∧ frameFits p P.w P.h = true ∧
      (if P.depth.indexed = true then 1 ≤ P.palLen ∧ P.palLen ≤ 256 else P.palLen = 0) ∧
      P.data.length = P.w * P.h ∧ ∀ v ∈ P.data, v < 2 ^ P.depth.bits := by
  unfold Frame.wf
  by_cases h : P.depth.indexed = true <;> simp [h, and_assoc]

/-- What a well-formed store is (R8, R29, R31). -/
theorem memory_wf_iff {p : Params} {m : Memory} : m.wf p = true ↔
    (3 ≤ m.bytes.length ∧ m.bytes.length ≤ 16) ∧ (3 ≤ m.frames.length ∧ m.frames.length ≤ 16) ∧
      (∀ X ∈ m.bytes, X.length ≤ p.bufCap) ∧ ∀ P, some P ∈ m.frames → P.wf p = true := by
  simp only [Memory.wf, Bool.and_eq_true, decide_eq_true_eq, List.all_eq_true, and_assoc]
  simp only [Config.minSlots, Config.maxSlots]
  constructor
  · rintro ⟨h1, h2, h3, h4, h5, h6⟩
    exact ⟨h1, h2, h3, h4, h5, fun P hP => h6 _ hP⟩
  · rintro ⟨h1, h2, h3, h4, h5, h6⟩
    refine ⟨h1, h2, h3, h4, h5, fun f hf => ?_⟩
    cases f with
    | none => rfl
    | some P => exact h6 P hf

/-- Replacing a byte slot keeps the form. -/
theorem setBuf_wf {p : Params} {m : Memory} {b : BSlot} {X : Buffer} (h : m.wf p = true) (hX : X.length ≤ p.bufCap) :
    (m.setBuf b X).wf p = true := by
  rw [memory_wf_iff] at h ⊢
  obtain ⟨h1, h2, h3, h4⟩ := h
  refine ⟨by simpa using h1, h2, fun Y hY => ?_, h4⟩
  rcases List.mem_or_eq_of_mem_set hY with h | rfl
  · exact h3 Y h
  · exact hX

/-- Replacing a frame slot keeps the form. -/
theorem setFrame_wf {p : Params} {m : Memory} {f : FSlot} {P : Frame} (h : m.wf p = true) (hP : P.wf p = true) :
    (m.setFrame f P).wf p = true := by
  rw [memory_wf_iff] at h ⊢
  obtain ⟨h1, h2, h3, h4⟩ := h
  refine ⟨h1, by simpa using h2, h3, fun Q hQ => ?_⟩
  rcases List.mem_or_eq_of_mem_set hQ with h | h
  · exact h4 Q h
  · exact (Option.some.inj h) ▸ hP

/-- The store after reset has the form, for legal slot counts. -/
theorem initial_wf {p : Params} {nb nf : Nat} (h1 : 3 ≤ nb ∧ nb ≤ 16) (h2 : 3 ≤ nf ∧ nf ≤ 16) :
    (Memory.initial nb nf).wf p = true := by
  rw [memory_wf_iff]
  simp only [Memory.initial, List.length_replicate]
  refine ⟨h1, h2, fun X hX => ?_, fun P hP => ?_⟩
  · simp [(List.mem_replicate.mp hX).2]
  · simp [List.mem_replicate] at hP

theorem reset_memory_wf : State.reset.mem.wf State.reset.params = true := initial_wf (by decide) (by decide)

/-- A frame read from a well-formed store is well-formed. -/
theorem wf_of_frame? {p : Params} {m : Memory} {f : FSlot} {P : Frame} (h : m.wf p = true) (hP : m.frame? f = some P) :
    P.wf p = true := (memory_wf_iff.mp h).2.2.2 P (mem_of_frame? hP)

/-- A buffer read from a well-formed store is within `BUF_CAP`. -/
theorem length_le_of_buf? {p : Params} {m : Memory} {b : BSlot} {X : Buffer} (h : m.wf p = true)
    (hX : m.buf? b = some X) : X.length ≤ p.bufCap :=
  (memory_wf_iff.mp h).2.2.1 X (List.mem_of_getElem? hX)

/-- Dimensions that fit are bounded. -/
theorem frameFits_iff {p : Params} {w h : Nat} :
    frameFits p w h = true ↔ w ≤ 2 ^ 31 - 1 ∧ h ≤ 2 ^ 31 - 1 ∧ samplesFit p (w * h) = true := by
  simp only [frameFits, Bool.and_eq_true, decide_eq_true_eq, and_assoc]
  simp only [Config.dimMax]

/-- A pixel of a well-formed frame is below `2^depth` (R15, R31). -/
theorem px_lt {p : Params} {P : Frame} (h : P.wf p = true) (x y : Nat) : P.px x y < 2 ^ P.depth.bits := by
  obtain ⟨-, -, -, -, -, hv⟩ := frame_wf_iff.mp h
  unfold Frame.px
  rw [List.getD_eq_getElem?_getD]
  cases ha : P.data[y * P.w + x]? with
  | none => simp
  | some v => exact hv v (List.mem_of_getElem? ha)

/-- A frame built as a raster: its pixels. -/
theorem px_raster {w h : Nat} {d : Depth} {pal : List Colour} {f : Nat → Nat → Nat} {x y : Nat} (hx : x < w)
    (hy : y < h) : (Frame.px { w := w, h := h, depth := d, pal := pal, data := raster w h f } x y) = f x y :=
  getD_raster f 0 hx hy

end Sys2Proof.Machine
end

