-- ==== Sys2Proof/Laws/Bmp.lean ====
section
/-! SUPPORT. What DECBMP and ENCBMP compute: when a file is accepted, that its frame keeps R31, and the parts of a
written file. -/

namespace Sys2Proof.Machine

/-- DECBMP succeeds exactly on an accepted file, with its frame (40_bmp_codec R121). -/
theorem decodeBmp_ok {p : Params} {X : Buffer} {Q : Frame} :
    decodeBmp p X = .ok Q ↔ ∃ d, BmpAccepted p X d ∧ Q = bmpFrame X d := by
  unfold decodeBmp
  simp only [need_eq_ok]
  constructor
  · rintro ⟨⟨-, h1, h2⟩, h3, h4, h⟩
    split at h
    · simp at h
    · next d hd =>
      simp only [need_eq_ok] at h
      obtain ⟨h5, h6, h7, h8, h9, h⟩ := h
      exact ⟨d, ⟨⟨h1, h2⟩, h3, h4, (bits_of_ofBits hd).symm, h5, h6, h7, h8, h9⟩, (Except.ok.inj h).symm⟩
  · rintro ⟨d, ⟨⟨h1, h2⟩, h3, h4, hd, h5, h6, h7, h8, h9⟩, rfl⟩
    refine ⟨⟨by omega, h1, h2⟩, h3, h4, ?_⟩
    rw [hd, ofBits_bits]
    simp only [need_eq_ok]
    exact ⟨h5, h6, h7, h8, h9, trivial⟩

/-- A sample read from a file is below `2^bpp` (30_encoding R105). -/
theorem bmpSample_lt (X : Buffer) (rb x : Nat) (d : Depth) : bmpSample X rb x d < 2 ^ d.bits := by
  have hb (i : Nat) : (byteAt X i).toNat < 256 := (byteAt X i).isLt
  cases d with
  | d1 =>
    have := bits_lt (byteAt X (rb + x / 8)).toNat (7 - x % 8) (7 - x % 8)
    rwa [Nat.add_sub_cancel_left] at this
  | d4 =>
    simp only [bmpSample, Depth.bits]
    split
    · exact bits_lt _ 7 4
    · exact bits_lt _ 3 0
  | d8 => exact hb _
  | d24 => exact sample24_lt (hb _) (hb _) (hb _)
  | d32 => exact u32le_lt _ _

theorem bmpPalLen_pos {d : Depth} {palc : Nat} (h : d.indexed = true) : 1 ≤ bmpPalLen d palc := by
  simp only [bmpPalLen, h, if_true]
  split
  · omega
  · exact Nat.one_le_two_pow

/-- The frame of an accepted file keeps R31. -/
theorem bmpFrame_wf {p : Params} {X : Buffer} {d : Depth} (h : BmpAccepted p X d) : (bmpFrame X d).wf p = true := by
  obtain ⟨-, -, -, -, ⟨h5, h5'⟩, h6, -, -, h9⟩ := h
  rw [frame_wf_iff]
  refine ⟨?_, ?_, h9, ?_, ?_, ?_⟩
  · simp only [bmpFrame]; omega
  · simp only [bmpFrame]; omega
  · by_cases hd : d.indexed = true
    · simpa [bmpFrame, hd, Frame.palLen] using ⟨bmpPalLen_pos hd, h6⟩
    · simp [bmpFrame, hd, Frame.palLen, bmpPalLen]
  · simp [bmpFrame]
  · intro v hv
    simp only [bmpFrame] at hv
    obtain ⟨x, y, -, -, rfl⟩ := mem_raster hv
    exact bmpSample_lt _ _ _ _

/-- The pixels of an accepted file's frame (R127). -/
theorem bmpFrame_px {X : Buffer} {d : Depth} {x y : Nat} (hx : x < (i32le X 18).toNat) (hy : y < (i32le X 22).natAbs) :
    (bmpFrame X d).px x y = bmpSample X
      (u32le X 10 + bmpFileRow (i32le X 22) (i32le X 22).natAbs y * stride d (i32le X 18).toNat) x d := by
  simp only [bmpFrame]
  exact px_raster hx hy

/-! ### the written file -/

@[simp] theorem length_bmpHeader (P : Frame) (td : Bool) : (bmpHeader P td).length = 54 := by
  simp [bmpHeader, put16, put32, putI32]

@[simp] theorem length_bmpPalBytes (pal : List Colour) : (bmpPalBytes pal).length = 4 * pal.length := by
  induction pal with
  | nil => rfl
  | cons c pal ih =>
    simp only [bmpPalBytes, List.flatMap_cons, List.length_append, List.length_cons, List.length_nil] at ih ⊢
    omega

@[simp] theorem length_bmpRows (P : Frame) (td : Bool) : (bmpRows P td).length = stride P.depth P.w * P.h := by
  simp [bmpRows]

/-- ENCBMP succeeds exactly when the file fits, with these bytes (R135). -/
theorem encodeBmp_ok {p : Params} {P : Frame} {td : Bool} {Y : Buffer} : encodeBmp p P td = .ok Y ↔
    (54 + 4 * P.palLen + stride P.depth P.w * P.h ≤ p.bufCap ∧
      54 + 4 * P.palLen + stride P.depth P.w * P.h < 2 ^ 32) ∧
    Y = bmpHeader P td ++ bmpPalBytes P.pal ++ bmpRows P td := by
  simp only [encodeBmp, need_eq_ok]
  constructor
  · rintro ⟨h, h'⟩; exact ⟨h, (Except.ok.inj h').symm⟩
  · rintro ⟨h, rfl⟩; exact ⟨h, rfl⟩

theorem encodeBmp_length {p : Params} {P : Frame} {td : Bool} {Y : Buffer} (h : encodeBmp p P td = .ok Y) :
    Y.length = 54 + 4 * P.palLen + stride P.depth P.w * P.h ∧ Y.length ≤ p.bufCap := by
  obtain ⟨⟨h1, -⟩, rfl⟩ := encodeBmp_ok.mp h
  simp [Frame.palLen] at h1 ⊢
  omega

end Sys2Proof.Machine
end

