-- ==== Sys2Proof/Laws/Host.lean ====
section
/-! SUPPORT. What a bus access can be: a stop of its own name, or the action by number that it stands for. Later
proofs treat that action only. -/

namespace Sys2Proof.Machine

/-- A bus access stops by name, or is one other action, by number, which writes the same word to CMD, if any. -/
theorem act_atBus (addr : Nat) (x : BusAccess) (s : State) :
    act (.atBus addr x) s = .refused .hostWhileBusy ∨ act (.atBus addr x) s = .fault .noSuchBusAddress ∨
    act (.atBus addr x) s = .refused .notABusAccess ∨
    ∃ a : HostAction, a ≠ .reset ∧ (∀ addr' x', a ≠ .atBus addr' x') ∧ act (.atBus addr x) s = act a s ∧
      cmdWord? s.params (.atBus addr x) = cmdWord? s.params a := by
  by_cases hb : s.status.busy = true
  · exact .inl (by simp only [act, whenIdle, hb, if_true])
  refine .inr ?_
  simp only [act, whenIdle, hb, hostBus, Bool.false_eq_true, if_false]
  cases ht : busTarget? s.params addr with
  | none => exact .inl rfl
  | some t =>
    refine .inr ?_
    cases t with
    | reg n => cases x with
      | read => exact .inr ⟨.readReg n, by simp, by simp, by simp [accessTarget], rfl⟩
      | write v => exact .inr ⟨.writeReg n v, by simp, by simp, by simp [accessTarget], by simp [cmdWord?, ht]⟩
      | load X => exact .inl rfl
    | byteSlot b => cases x with
      | read => exact .inr ⟨.readSlot b, by simp, by simp, by simp [accessTarget], rfl⟩
      | write v => exact .inl rfl
      | load X => exact .inr ⟨.load b X, by simp, by simp, by simp [accessTarget], rfl⟩
    | frameSlot f => cases x with
      | read => exact .inr ⟨.readFrame f, by simp, by simp, by simp [accessTarget], rfl⟩
      | write v => exact .inl rfl
      | load X => exact .inl rfl
    | tables => cases x with
      | read => exact .inr ⟨.readTables, by simp, by simp, by simp [accessTarget], rfl⟩
      | write v => exact .inl rfl
      | load X => exact .inl rfl

/-- The entry a lookup finds is one of the map's. -/
theorem mem_of_busTarget? {p : Params} {t : BusTarget} {addr : Nat} (h : busTarget? p addr = some t) :
    (t, addr) ∈ p.regMap := by
  obtain ⟨⟨t', a'⟩, he, rfl⟩ := Option.map_eq_some_iff.mp h
  have := List.find?_some he
  simp only [decide_eq_true_eq] at this
  exact this ▸ List.mem_of_find?_eq_some he

/-- The entry a lookup finds is one of the map's. -/
theorem mem_of_busAddress? {p : Params} {t : BusTarget} {addr : Nat} (h : busAddress? p t = some addr) :
    (t, addr) ∈ p.regMap := by
  obtain ⟨⟨t', a'⟩, he, rfl⟩ := Option.map_eq_some_iff.mp h
  have := List.find?_some he
  simp only [decide_eq_true_eq] at this
  exact this ▸ List.mem_of_find?_eq_some he

end Sys2Proof.Machine
end

