-- ==== Sys2Proof/Laws/Pcx.lean ====
section
/-! SUPPORT. What DECPCX computes: when a file is accepted, and that its frame keeps R31. -/

namespace Sys2Proof.Machine

theorem pcxWidth_pos {X : Buffer} : 0 < pcxWidth X ↔ u16le X 4 ≤ u16le X 8 := by unfold pcxWidth; omega
theorem pcxHeight_pos {X : Buffer} : 0 < pcxHeight X ↔ u16le X 6 ≤ u16le X 10 := by unfold pcxHeight; omega

theorem pcxWidth_toNat {X : Buffer} (h : u16le X 4 ≤ u16le X 8) :
    (pcxWidth X).toNat = u16le X 8 - u16le X 4 + 1 := by unfold pcxWidth; omega

theorem pcxHeight_toNat {X : Buffer} (h : u16le X 6 ≤ u16le X 10) :
    (pcxHeight X).toNat = u16le X 10 - u16le X 6 + 1 := by unfold pcxHeight; omega

/-- DECPCX of an accepted file is the decoding of its rows (41_pcx_codec R151). -/
theorem decodePcx_accepted {p : Params} {X : Buffer} (h : PcxAccepted p X) :
    decodePcx p X = match rleRows (u16le X 8 - u16le X 4 + 1) (u16le X 66) (u16le X 10 - u16le X 6 + 1) (pcxRegion X) with
      | .error d => .error d
      | .ok rows => .ok (pcxFrame X rows) := by
  obtain ⟨h1, h2, h3, h4, h5, ⟨h6, h6'⟩, h7, h8, h9⟩ := h
  unfold decodePcx
  rw [need_pos ⟨by omega, h1⟩, need_pos h2, need_pos h3, need_pos h4, need_pos h5,
    need_pos ⟨pcxWidth_pos.mpr h6, pcxHeight_pos.mpr h6'⟩, need_pos (by unfold pcxWidth; omega), need_pos h8,
    need_pos (by rw [pcxWidth_toNat h6, pcxHeight_toNat h6']; exact h9), pcxWidth_toNat h6, pcxHeight_toNat h6']
  all_goals
    cases rleRows (u16le X 8 - u16le X 4 + 1) (u16le X 66) (u16le X 10 - u16le X 6 + 1) (pcxRegion X) <;> rfl

/-- DECPCX succeeds exactly on an accepted file whose rows decode (41_pcx_codec R151). -/
theorem decodePcx_ok {p : Params} {X : Buffer} {Q : Frame} : decodePcx p X = .ok Q ↔ PcxAccepted p X ∧
    ∃ rows, rleRows (u16le X 8 - u16le X 4 + 1) (u16le X 66) (u16le X 10 - u16le X 6 + 1) (pcxRegion X) = .ok rows ∧
      Q = pcxFrame X rows := by
  have key : PcxAccepted p X → (decodePcx p X = .ok Q ↔ ∃ rows, rleRows (u16le X 8 - u16le X 4 + 1) (u16le X 66)
      (u16le X 10 - u16le X 6 + 1) (pcxRegion X) = .ok rows ∧ Q = pcxFrame X rows) := by
    intro h
    rw [decodePcx_accepted h]
    cases rleRows (u16le X 8 - u16le X 4 + 1) (u16le X 66) (u16le X 10 - u16le X 6 + 1) (pcxRegion X) <;>
      simp [eq_comm]
  constructor
  · intro h
    have hacc : PcxAccepted p X := by
      simp only [decodePcx, need_eq_ok] at h
      obtain ⟨⟨-, h1⟩, h2, h3, h4, h5, ⟨h6, h6'⟩, h7, h8, h9, -⟩ := h
      have h6 := pcxWidth_pos.mp h6
      have h6' := pcxHeight_pos.mp h6'
      rw [pcxWidth_toNat h6, pcxHeight_toNat h6'] at h9
      exact ⟨h1, h2, h3, h4, h5, ⟨h6, h6'⟩, by unfold pcxWidth at h7; omega, h8, h9⟩
    exact ⟨hacc, (key hacc).mp h⟩
  · rintro ⟨h, hr⟩
    exact (key h).mpr hr

/-- Decoding produces at least the values asked for (R158). -/
theorem rleProduce_length {n : Nat} {R out left : Buffer} (h : rleProduce n R = .ok (out, left)) : n ≤ out.length := by
  induction n, R using rleProduce.induct generalizing out left with
  | case1 => omega
  | case2 => simp at h
  | case3 n c hc => simp [rleProduce_marker_alone hc] at h
  | case4 n c hc v rest' out' left' hr ih =>
    have := ih hr
    simp [rleProduce_run hc, hr] at h
    simp [← h.1]
    omega
  | case5 n c hc v rest' e hr ih => simp [rleProduce_run hc, hr] at h
  | case6 n c rest hc out' left' hr ih =>
    have := ih hr
    simp [rleProduce_literal (by simpa using hc), hr] at h
    simp [← h.1]
    omega
  | case7 n c rest hc e hr ih => simp [rleProduce_literal (by simpa using hc), hr] at h

/-- Rows of `w ≤ bpl` pixels decode to `w·h` bytes (R151: every element is written exactly once). -/
theorem rleRows_length {w bpl h : Nat} {R rows : Buffer} (hw : w ≤ bpl) (hr : rleRows w bpl h R = .ok rows) :
    rows.length = w * h := by
  induction h generalizing R rows with
  | zero =>
    simp only [rleRows, Except.ok.injEq] at hr
    simp [← hr]
  | succ h ih =>
    simp only [rleRows] at hr
    split at hr
    · simp at hr
    · next row rest hp =>
      have hl := rleProduce_length hp
      split at hr
      · simp at hr
      · next rows' hr' =>
        have := ih hr'
        simp only [Except.ok.injEq] at hr
        rw [← hr, List.length_append, List.length_take, this, Nat.min_eq_left (by omega)]
        ring

/-- The frame of an accepted file keeps R31. -/
theorem pcxFrame_wf {p : Params} {X rows : Buffer} (h : PcxAccepted p X)
    (hr : rleRows (u16le X 8 - u16le X 4 + 1) (u16le X 66) (u16le X 10 - u16le X 6 + 1) (pcxRegion X) = .ok rows) :
    (pcxFrame X rows).wf p = true := by
  obtain ⟨-, -, -, -, -, ⟨h6, h6'⟩, h7, -, h9⟩ := h
  have hl := rleRows_length h7 hr
  have b1 := u16le_lt X 8
  have b2 := u16le_lt X 10
  rw [frame_wf_iff]
  simp only [pcxFrame, pcxWidth_toNat h6, pcxHeight_toNat h6', Depth.indexed, Depth.bits, Frame.palLen, length_tab,
    List.length_map, frameFits_iff]
  refine ⟨by omega, by omega, ⟨by omega, by omega, h9⟩, by simp, hl, fun v hv => ?_⟩
  obtain ⟨c, -, rfl⟩ := List.mem_map.mp hv
  exact c.isLt

end Sys2Proof.Machine
end

