-- ==== Sys2Proof/Laws/PerInstr.lean ====
section
/-! SUPPORT. The family `EncodesToItsRow`: the word of a well-formed command matches its row of opcode_table.json
(spec 30_encoding R91, R93). -/

namespace Sys2Proof.Laws.EncodesToItsRow

open Sys2Proof

/-- `match` and `mask` of the command's row of opcode_table.json. -/
def rowOf : Instr → Word × Word
  | .decbmp _ _ => (0x00000001, 0xFFFFF00F)
  | .encbmp _ _ _ => (0x00000002, 0xFFFEF00F)
  | .decpcx _ _ => (0x00000003, 0xFFFFF00F)
  | .gray _ _ => (0x00000004, 0xFFFFF00F)
  | .border _ _ => (0x00000005, 0xFFFFF00F)
  | .rot90 _ _ => (0x00000006, 0xFFFFF00F)
  | .scale _ _ => (0x00000007, 0xFFFFF00F)
  | .overlay _ _ _ => (0x00000008, 0xFFFF000F)
  | .embed _ _ _ _ => (0x00000009, 0xFFF8000F)
  | .extract _ _ _ => (0x0000000A, 0xFFF8F00F)
  | .quant _ _ _ => (0x0000000B, 0xFFFF000F)

/-- A well-formed command encodes to a word of its own row. -/
def Statement (i : Instr) : Prop := i.wf = true → encode i &&& (rowOf i).2 = (rowOf i).1

/-- A word is determined by its bits, each a remainder of the number it stands for. -/
theorem ofNat_and {n : Nat} {k v : Word}
    (h : ∀ i < 32, (decide (n / 2 ^ i % 2 = 1) && k.getLsbD i) = v.getLsbD i) : BitVec.ofNat 32 n &&& k = v := by
  apply BitVec.eq_of_getLsbD_eq
  intro i hi
  rw [BitVec.getLsbD_and, BitVec.getLsbD_ofNat, Nat.testBit_eq_decide_div_mod_eq, ← h i hi]
  simp [hi]

/-- Words without RB and IMM3. -/
theorem assemble_two (opc : Nat) {rd ra : Nat} (hd : rd < 16) (ha : ra < 16)
    (h : ∀ rd ra : Fin 16, assemble opc rd ra 0 0 &&& 0xFFFFF00F = BitVec.ofNat 32 opc) :
    assemble opc rd ra 0 0 &&& 0xFFFFF00F = BitVec.ofNat 32 opc := h ⟨rd, hd⟩ ⟨ra, ha⟩

theorem decbmp (fd ba : Nat) : Statement (.decbmp fd ba) := by
  intro h
  simp only [Instr.wf, fitsSlotField, Bool.and_eq_true, decide_eq_true_eq] at h
  exact assemble_two 1 h.1 h.2 (by decide +kernel)

theorem encbmp (bd fa : Nat) (td : Bool) : Statement (.encbmp bd fa td) := by
  intro h
  simp only [Instr.wf, fitsSlotField, Bool.and_eq_true, decide_eq_true_eq] at h
  have : ∀ (td : Bool) (bd fa : Fin 16), encode (.encbmp bd fa td) &&& (0xFFFEF00F : Word) = 0x00000002 := by decide +kernel
  exact this td ⟨bd, h.1⟩ ⟨fa, h.2⟩

theorem decpcx (fd ba : Nat) : Statement (.decpcx fd ba) := by
  intro h
  simp only [Instr.wf, fitsSlotField, Bool.and_eq_true, decide_eq_true_eq] at h
  exact assemble_two 3 h.1 h.2 (by decide +kernel)

theorem gray (fd fa : Nat) : Statement (.gray fd fa) := by
  intro h
  simp only [Instr.wf, fitsSlotField, Bool.and_eq_true, decide_eq_true_eq] at h
  exact assemble_two 4 h.1 h.2 (by decide +kernel)

theorem border (fd fa : Nat) : Statement (.border fd fa) := by
  intro h
  simp only [Instr.wf, fitsSlotField, Bool.and_eq_true, decide_eq_true_eq] at h
  exact assemble_two 5 h.1 h.2 (by decide +kernel)

theorem rot90 (fd fa : Nat) : Statement (.rot90 fd fa) := by
  intro h
  simp only [Instr.wf, fitsSlotField, Bool.and_eq_true, decide_eq_true_eq] at h
  exact assemble_two 6 h.1 h.2 (by decide +kernel)

theorem scale (fd fa : Nat) : Statement (.scale fd fa) := by
  intro h
  simp only [Instr.wf, fitsSlotField, Bool.and_eq_true, decide_eq_true_eq] at h
  exact assemble_two 7 h.1 h.2 (by decide +kernel)

theorem overlay (fd fa fb : Nat) : Statement (.overlay fd fa fb) := by
  intro h
  simp only [Instr.wf, fitsSlotField, Bool.and_eq_true, decide_eq_true_eq] at h
  refine ofNat_and fun i hi => ?_
  interval_cases i <;> simp [rowOf] <;> omega

theorem embed (bd ba bb imm3 : Nat) : Statement (.embed bd ba bb imm3) := by
  intro h
  simp only [Instr.wf, fitsSlotField, fitsImm3, Bool.and_eq_true, decide_eq_true_eq] at h
  refine ofNat_and fun i hi => ?_
  interval_cases i <;> simp [rowOf] <;> omega

theorem extract (bd ba imm3 : Nat) : Statement (.extract bd ba imm3) := by
  intro h
  simp only [Instr.wf, fitsSlotField, fitsImm3, Bool.and_eq_true, decide_eq_true_eq] at h
  refine ofNat_and fun i hi => ?_
  interval_cases i <;> simp [rowOf] <;> omega

theorem quant (fd fa bb : Nat) : Statement (.quant fd fa bb) := by
  intro h
  simp only [Instr.wf, fitsSlotField, Bool.and_eq_true, decide_eq_true_eq] at h
  refine ofNat_and fun i hi => ?_
  interval_cases i <;> simp [rowOf] <;> omega

end Sys2Proof.Laws.EncodesToItsRow
end

