-- ==== Sys2Proof/Laws/Quant.lean ====
section
/-! SUPPORT. What QUANT computes: the candidates, the size of the new palette, the index table, and that the
committed frame and rendering keep R29 and R31. -/

namespace Sys2Proof.Machine

@[simp] theorem length_histogram (data : List Nat) : (histogram data).length = 256 := length_tab ..

theorem histogram_getD (data : List Nat) {i : Nat} (h : i < 256) : (histogram data).getD i 0 = data.count i := by
  rw [histogram, getD_tab, if_pos h]

/-! ### candidates -/

theorem candInsert_perm (hist : List Nat) (i : Nat) (l : List Nat) : (candInsert hist i l).Perm (i :: l) := by
  induction l with
  | nil => exact .refl _
  | cons j rest ih =>
    simp only [candInsert]
    split
    · exact .refl _
    · exact (ih.cons j).trans (.swap i j rest)

/-- The candidates are the indices of the palette (44_quantizer R243). -/
theorem candidates_perm (hist : List Nat) (n : Nat) : (candidates hist n).Perm (List.range n) := by
  unfold candidates
  induction List.range n with
  | nil => exact .refl _
  | cons i l ih => exact (candInsert_perm hist i _).trans (ih.cons i)

@[simp] theorem length_candidates (hist : List Nat) (n : Nat) : (candidates hist n).length = n := by
  simpa using (candidates_perm hist n).length_eq

/-! ### the new palette -/

theorem takeColours_length {K : Nat} {accept : List Colour → Colour → Bool} {np cs : List Colour} (h : np.length ≤ K) :
    (takeColours K accept np cs).length ≤ K := by
  induction cs generalizing np with
  | nil => simpa [takeColours] using h
  | cons c cs ih =>
    simp only [takeColours]
    split
    · exact h
    · split
      · exact ih (by simp; omega)
      · exact ih h

/-- A pass keeps what is there, in front. -/
theorem takeColours_keeps (K : Nat) (accept : List Colour → Colour → Bool) (np cs : List Colour) :
    np <+: takeColours K accept np cs := by
  induction cs generalizing np with
  | nil => exact List.prefix_refl _
  | cons c cs ih =>
    simp only [takeColours]
    split
    · exact List.prefix_refl _
    · split
      · exact (List.prefix_append _ _).trans (ih _)
      · exact ih _

theorem chosenColours_length (K : Nat) (cand : List Colour) : (chosenColours K cand).length ≤ K :=
  takeColours_length (takeColours_length (by simp))

/-- The new palette has exactly `K` entries (R246). -/
@[simp] theorem length_newPalette (K : Nat) (cand : List Colour) : (newPalette K cand).length = K := by
  have := chosenColours_length K cand
  simp [newPalette]
  omega

@[simp] theorem length_quantPalette (P : Frame) (K : Nat) : (quantPalette P K).length = K := length_newPalette ..

/-! ### the index table -/

/-- Some colour of a palette that is not empty is nearest. -/
theorem exists_nearest {np : List Colour} (h : np ≠ []) (c : Colour) : ∃ q ∈ np, ∀ q' ∈ np, d2 c q ≤ d2 c q' := by
  induction np with
  | nil => exact absurd rfl h
  | cons a l ih =>
    by_cases hl : l = []
    · subst hl; exact ⟨a, by simp, by simp⟩
    · obtain ⟨q, hq, hmin⟩ := ih hl
      by_cases hle : d2 c a ≤ d2 c q
      · refine ⟨a, by simp, fun q' hq' => ?_⟩
        rcases List.mem_cons.mp hq' with rfl | hq'
        · exact Nat.le_refl _
        · exact Nat.le_trans hle (hmin q' hq')
      · refine ⟨q, List.mem_cons_of_mem _ hq, fun q' hq' => ?_⟩
        rcases List.mem_cons.mp hq' with rfl | hq'
        · omega
        · exact hmin q' hq'

theorem nearest_lt {np : List Colour} (h : np ≠ []) (c : Colour) : nearest np c < np.length := by
  rw [nearest, List.findIdx_lt_length]
  obtain ⟨q, hq, hmin⟩ := exists_nearest h c
  exact ⟨q, hq, by simpa using hmin⟩

/-- `nearest` minimises the distance (R247). -/
theorem nearest_min {np : List Colour} (h : np ≠ []) (c : Colour) :
    ∀ q' ∈ np, d2 c (np[nearest np c]'(nearest_lt h c)) ≤ d2 c q' := by
  have := List.findIdx_getElem (p := fun q => np.all fun q' => decide (d2 c q ≤ d2 c q')) (xs := np)
    (w := nearest_lt h c)
  simp only [List.all_eq_true, decide_eq_true_eq] at this
  exact this

/-- No smaller index minimises the distance (R247: ties go to the lowest index). -/
theorem nearest_first {np : List Colour} {c : Colour} {j : Nat} (hj : j < nearest np c) (hj' : j < np.length) :
    ∃ q' ∈ np, d2 c q' < d2 c np[j] := by
  have := List.not_of_lt_findIdx (p := fun q => np.all fun q' => decide (d2 c q ≤ d2 c q')) (xs := np) hj
  simpa using this

@[simp] theorem length_indexTable (pal np : List Colour) : (indexTable pal np).length = 256 := length_tab ..

theorem indexTable_getD_lt {pal np : List Colour} (h : np ≠ []) (v : Nat) : (indexTable pal np).getD v 0 < np.length := by
  have hp : 0 < np.length := List.length_pos_iff.mpr h
  rw [indexTable, getD_tab]
  split
  · split
    · exact nearest_lt h _
    · exact hp
  · exact hp

theorem mem_indexTable_lt {pal np : List Colour} (h : np ≠ []) {v : Nat} (hv : v ∈ indexTable pal np) :
    v < np.length := by
  obtain ⟨i, hi, rfl⟩ := List.getElem_of_mem hv
  have := indexTable_getD_lt (pal := pal) h i
  rwa [List.getD_eq_getElem _ _ hi] at this

theorem quantPalette_ne_nil {P : Frame} {K : Nat} (h : 1 ≤ K) : quantPalette P K ≠ [] :=
  List.ne_nil_of_length_pos (by simp; omega)

/-! ### the commit -/

@[simp] theorem length_rgbaOf (np : List Colour) (data : List Nat) : (rgbaOf np data).length = 4 * data.length := by
  induction data with
  | nil => rfl
  | cons v data ih =>
    simp only [rgbaOf, List.flatMap_cons, List.length_append, List.length_cons, List.length_nil] at ih ⊢
    omega

theorem quantFrame_wf {p : Params} {P : Frame} {K : Nat} (h : P.wf p = true) (h1 : 1 ≤ K) (h2 : K ≤ 256) :
    (quantFrame P K).wf p = true := by
  rw [frame_wf_iff] at h ⊢
  obtain ⟨hw, hh, hf, -, hl, -⟩ := h
  refine ⟨hw, hh, hf, ?_, by simpa [quantFrame] using hl, fun v hv => ?_⟩
  · simpa [quantFrame, Depth.indexed, Depth.bits, Frame.palLen] using ⟨h1, h2⟩
  · obtain ⟨w, -, rfl⟩ := List.mem_map.mp hv
    have := indexTable_getD_lt (pal := P.pal) (quantPalette_ne_nil (P := P) h1) w
    simp only [length_quantPalette] at this
    simp only [quantFrame, Depth.bits, quantTable]
    omega

theorem rgbaOf_length {P : Frame} {K : Nat} (h : P.data.length = P.w * P.h) :
    (rgbaOf (quantPalette P K) (quantFrame P K).data).length = 4 * P.w * P.h := by
  simp [quantFrame, h, Nat.mul_assoc]

/-- Every sample has a palette entry exactly when QUANT's check passes (44_quantizer R249), for 8-bit samples. -/
theorem indexWithoutEntry_iff {data : List Nat} {n : Nat} (h : ∀ v ∈ data, v < 256) :
    indexWithoutEntry (histogram data) n = false ↔ ∀ v ∈ data, v < n := by
  simp only [indexWithoutEntry, List.any_eq_false, List.mem_range, Bool.and_eq_true, decide_eq_true_eq, not_and,
    Nat.not_lt, Nat.le_zero]
  constructor
  · intro hi v hv
    by_contra hn
    have := hi v (h v hv) (by omega)
    rw [histogram_getD _ (h v hv)] at this
    exact absurd hv (List.count_eq_zero.mp this)
  · intro hi v hv hn
    rw [histogram_getD _ hv, List.count_eq_zero]
    intro hm
    have := hi v hm
    omega

end Sys2Proof.Machine
end

