-- ==== Sys2Proof/Laws/Stego.lean ====
section
/-! SUPPORT. What EMBED and EXTRACT compute: when each succeeds, the lengths of their results, and the bits of groups
and packed bytes. -/

namespace Sys2Proof.Machine

theorem imm3Legal_iff {n : Nat} : imm3Legal n = true ↔ n = 1 ∨ n = 2 ∨ n = 3 := by
  simp [imm3Legal, or_assoc]

/-- `ceil(a / b)` is the least number of `b`s that cover `a` (00_scope R11). -/
theorem ceilDiv_le_iff {a b n : Nat} (hb : 1 ≤ b) : ceilDiv a b ≤ n ↔ a ≤ n * b := by
  unfold ceilDiv
  rw [← Nat.lt_succ_iff, Nat.div_lt_iff_lt_mul (by omega), Nat.succ_mul]
  omega

theorem le_ceilDiv_mul (a : Nat) {b : Nat} (hb : 1 ≤ b) : a ≤ ceilDiv a b * b := (ceilDiv_le_iff hb).mp (Nat.le_refl _)

/-- An index below `a` falls in a group (30_encoding R109). -/
theorem div_lt_ceilDiv {a b i : Nat} (hb : 1 ≤ b) (hi : i < a) : i / b < ceilDiv a b := by
  rw [Nat.div_lt_iff_lt_mul (by omega)]
  have := le_ceilDiv_mul a hb
  omega

/-! ### bits of groups, runs and packed bytes -/

@[simp] theorem length_bitRun (S : List Bool) (o n : Nat) : (bitRun S o n).length = n := length_tab ..
@[simp] theorem length_groups (S : List Bool) (b : Nat) : (groups S b).length = ceilDiv S.length b := length_tab ..
@[simp] theorem length_ungroups (G : List Nat) (b n : Nat) : (ungroups G b n).length = n := length_tab ..
@[simp] theorem length_bytesMSB (S : List Bool) : (bytesMSB S).length = S.length / 8 := length_tab ..
@[simp] theorem length_bitsMSB (X : Buffer) : (bitsMSB X).length = 8 * X.length := length_tab ..

theorem bitsMSB_getD (X : Buffer) {i : Nat} (h : i < 8 * X.length) :
    (bitsMSB X).getD i false = (byteAt X (i / 8)).getLsbD (7 - i % 8) := by
  rw [bitsMSB, getD_tab, if_pos h]

theorem msbVal_bitRun_lt (S : List Bool) (o n : Nat) : msbVal (bitRun S o n) < 2 ^ n := msbVal_tab_lt ..

theorem testBit_msbVal_bitRun (S : List Bool) {o n t : Nat} (h : t < n) :
    (msbVal (bitRun S o n)).testBit (n - 1 - t) = S.getD (o + t) false := testBit_msbVal_tab _ _ _ h

/-- A group is below `2^b`. -/
theorem group_lt (S : List Bool) (b g : Nat) : (groups S b).getD g 0 < 2 ^ b := by
  rw [groups, getD_tab]
  split
  · exact msbVal_bitRun_lt ..
  · positivity

/-- Bit `t` of the bits, in the groups (R109): most significant first in each group. -/
theorem testBit_group (S : List Bool) {b t : Nat} (hb : 1 ≤ b) (ht : t < ceilDiv S.length b * b) :
    ((groups S b).getD (t / b) 0).testBit (b - 1 - t % b) = S.getD t false := by
  have hg : t / b < ceilDiv S.length b := by
    rwa [Nat.div_lt_iff_lt_mul (by omega)]
  rw [groups, getD_tab, if_pos hg, testBit_msbVal_bitRun _ (Nat.mod_lt _ (by omega)), Nat.mul_comm, Nat.div_add_mod]

/-- Bit 7 − t of packed byte `i` is bit `8i + t` (43_stego R216). -/
theorem getLsbD_bytesMSB (S : List Bool) {t : Nat} (h : t < 8 * (S.length / 8)) :
    (byteAt (bytesMSB S) (t / 8)).getLsbD (7 - t % 8) = S.getD t false := by
  have hi : t / 8 < S.length / 8 := by omega
  have hm : t % 8 < 8 := Nat.mod_lt _ (by omega)
  rw [bytesMSB, byteAt_tab, if_pos hi, BitVec.getLsbD_ofNat]
  have := testBit_msbVal_bitRun S (o := 8 * (t / 8)) hm
  rw [show 8 - 1 - t % 8 = 7 - t % 8 by omega, Nat.div_add_mod] at this
  rw [this]
  simp [show 7 - t % 8 < 8 by omega]

/-- `putGroup` puts the group in the low `b` bits and keeps the others (R109). -/
theorem getLsbD_putGroup {b g : Nat} (hg : g < 2 ^ b) (c : Byte) (i : Nat) (hi : i < 8) :
    (putGroup b c g).getLsbD i = if i < b then g.testBit i else c.getLsbD i := by
  have hm : (lowMask b).getLsbD i = decide (i < b) := by
    rw [lowMask, BitVec.getLsbD_ofNat, Nat.testBit_two_pow_sub_one]
    simp [hi]
  simp only [putGroup, BitVec.getLsbD_or, BitVec.getLsbD_and, BitVec.getLsbD_not, hm, BitVec.getLsbD_ofNat, hi]
  by_cases h : i < b
  · simp [h]
  · have : g.testBit i = false := Nat.testBit_lt_two_pow (Nat.lt_of_lt_of_le hg (Nat.pow_le_pow_right (by omega) (by omega)))
    simp [h, this]

/-! ### EMBED -/

theorem embed_ok {hw : HeaderWidth} {b : Nat} {C P Y : Buffer} : embed hw b C P = .ok Y ↔
    P.length < 2 ^ headerBits hw ∧ headerBytes hw b + payloadBytes P.length b ≤ C.length ∧ Y = embedBytes hw b C P := by
  simp only [embed, need_eq_ok, Except.ok.injEq, eq_comm (b := Y)]

@[simp] theorem length_embedBytes (hw : HeaderWidth) (b : Nat) (C P : Buffer) :
    (embedBytes hw b C P).length = C.length := length_tab ..

@[simp] theorem length_lengthHeader (hw : HeaderWidth) (L : Nat) : (lengthHeader hw L).length = headerBits hw / 8 :=
  length_leBytes ..

theorem headerBits_mul (hw : HeaderWidth) : 8 * (headerBits hw / 8) = headerBits hw := by cases hw <;> rfl

/-- The bytes of an embedded container (R213). -/
theorem byteAt_embedBytes {hw : HeaderWidth} {b : Nat} {C P : Buffer} {j : Nat} (h : j < C.length) :
    byteAt (embedBytes hw b C P) j =
      if j < headerBytes hw b then putGroup b (byteAt C j) ((groups (bitsMSB (lengthHeader hw P.length)) b).getD j 0)
      else if j < headerBytes hw b + payloadBytes P.length b then
        putGroup b (byteAt C j) ((groups (bitsMSB P) b).getD (j - headerBytes hw b) 0)
      else byteAt C j := by
  rw [embedBytes, byteAt_tab, if_pos h]

/-! ### EXTRACT -/

theorem extract_ok {hw : HeaderWidth} {b : Nat} {C Y : Buffer} : extract hw b C = .ok Y ↔
    headerBytes hw b ≤ C.length ∧ headerBytes hw b + payloadBytes (statedLength hw b C) b ≤ C.length ∧
      Y = hiddenBytes hw b (statedLength hw b C) C := by
  simp only [extract, need_eq_ok, Except.ok.injEq, eq_comm (b := Y)]

@[simp] theorem length_hiddenBytes (hw : HeaderWidth) (b L : Nat) (C : Buffer) : (hiddenBytes hw b L C).length = L := by
  simp [hiddenBytes]

/-- A payload is no longer than the container bytes that hold it: `b` is at most 6. -/
theorem length_le_payloadBytes {L b : Nat} (hb : 1 ≤ b) (hb' : b ≤ 8) : L ≤ payloadBytes L b := by
  have h1 := le_ceilDiv_mul (8 * L) hb
  have h2 : ceilDiv (8 * L) b * b ≤ ceilDiv (8 * L) b * 8 := Nat.mul_le_mul_left _ hb'
  unfold payloadBytes
  omega

theorem extract_length {hw : HeaderWidth} {b : Nat} {C Y : Buffer} (hb : 1 ≤ b) (hb' : b ≤ 8)
    (h : extract hw b C = .ok Y) : Y.length ≤ C.length := by
  obtain ⟨-, h2, rfl⟩ := extract_ok.mp h
  have := length_le_payloadBytes (L := statedLength hw b C) hb hb'
  simp
  omega

/-- Bit `t` of the low groups of a container run. -/
theorem testBit_lowGroups {b : Nat} (hb : 1 ≤ b) (hb' : b < 8) (C : Buffer) {o n t : Nat} (h : t / b < n) :
    ((lowGroups b C o n).getD (t / b) 0).testBit (b - 1 - t % b) = (byteAt C (o + t / b)).getLsbD (b - 1 - t % b) := by
  have hm := Nat.mod_lt t (show b > 0 by omega)
  rw [lowGroups, getD_tab, if_pos h, ← BitVec.getLsbD, BitVec.getLsbD_and]
  have : (lowMask b).getLsbD (b - 1 - t % b) = true := by
    simp [lowMask, BitVec.getLsbD_ofNat, Nat.testBit_two_pow_sub_one]
    omega
  rw [this, Bool.and_true]

/-- Bit `t` of the hidden payload (R216, R217). -/
theorem getLsbD_hiddenBytes {hw : HeaderWidth} {b L : Nat} (hb : 1 ≤ b) (hb' : b < 8) (C : Buffer) {t : Nat}
    (ht : t < 8 * L) : (byteAt (hiddenBytes hw b L C) (t / 8)).getLsbD (7 - t % 8) =
      (byteAt C (headerBytes hw b + t / b)).getLsbD (b - 1 - t % b) := by
  rw [hiddenBytes, getLsbD_bytesMSB _ (by simpa using ht), ungroups, getD_tab, if_pos ht,
    testBit_lowGroups hb hb' C (show t / b < payloadBytes L b from div_lt_ceilDiv hb ht)]

end Sys2Proof.Machine
end

