-- ==== Sys2Proof/Laws/Transform.lean ====
section
/-! SUPPORT. What GRAY, BORDER, ROT90, SCALE and OVERLAY compute: when each succeeds, and that its frame keeps
R31. -/

namespace Sys2Proof.Machine

/-! ### GRAY -/

theorem grayFrame_ok {P Q : Frame} : grayFrame P = .ok Q ↔ P.depth = .d8 ∧ Q = { P with pal := P.pal.map greyOf } := by
  unfold grayFrame need
  split <;> simp_all [eq_comm]

theorem grayFrame_wf {p : Params} {P Q : Frame} (h : P.wf p = true) (hq : grayFrame P = .ok Q) : Q.wf p = true := by
  obtain ⟨-, rfl⟩ := grayFrame_ok.mp hq
  rw [frame_wf_iff] at h ⊢
  simpa [Frame.palLen] using h

/-- The luma of a colour is a component value (42_transform R176). -/
theorem luma_lt (c : Colour) : luma c < 256 := by
  have hr : c.r.toNat < 256 := c.r.isLt
  have hg : c.g.toNat < 256 := c.g.isLt
  have hb : c.b.toNat < 256 := c.b.isLt
  simp only [luma, rhu, Config.lumaR, Config.lumaG, Config.lumaB]
  omega

/-- A grey colour is its own luma: the weights add up to 1000 (R177). -/
theorem greyOf_greyOf (c : Colour) : greyOf (greyOf c) = greyOf c := by
  have h := luma_lt c
  have : luma (greyOf c) = luma c := by
    simp only [greyOf, luma, Config.lumaR, Config.lumaG, Config.lumaB, BitVec.toNat_ofNat] at h ⊢
    rw [Nat.mod_eq_of_lt h]
    rw [show ∀ n : Nat, 299 * n + 587 * n + 114 * n = n * 1000 by omega, rhu_mul_self (by omega)]
  simp only [greyOf] at this ⊢
  rw [this]

/-! ### BORDER -/

theorem borderBytes_bits {d : Depth} {nb : Nat} (h : borderBytes d = some nb) : d.bits = 8 * nb ∧ 1 ≤ nb := by
  cases d <;> simp_all [borderBytes, Depth.bits] <;> omega

/-- Which destination pixels have a source pixel (R180, R181). -/
theorem borderInside_iff {P : Frame} {x y : Nat} :
    borderInside P x y = true ↔ 15 ≤ x ∧ x < 15 + P.w ∧ 15 ≤ y ∧ y < 15 + P.h := by
  simp only [borderInside, Bool.and_eq_true, decide_eq_true_eq, and_assoc]
  simp only [Config.borderW]

/-- A margin sample has `nb` bytes (R182). -/
theorem entSample_lt (ent : Nat → Byte) (k nb : Nat) : entSample ent k nb < 256 ^ nb := by
  induction nb generalizing k with
  | zero => simp [entSample]
  | succ nb ih =>
    have h1 := ih (k + 1)
    have h2 : (ent k).toNat < 256 := (ent k).isLt
    simp only [entSample, Nat.pow_succ]
    omega

@[simp] theorem length_borderScan (P : Frame) (w' nb : Nat) (ent : Nat → Byte) (as : List Nat) (k : Nat) :
    (borderScan P w' nb ent as k).length = as.length := by
  induction as generalizing k with
  | nil => rfl
  | cons a as ih =>
    simp only [borderScan]
    split <;> simp [ih]

theorem mem_borderScan {P : Frame} {w' nb : Nat} {ent : Nat → Byte} {as : List Nat} {k v : Nat}
    (h : v ∈ borderScan P w' nb ent as k) : (∃ x y, v = P.px x y) ∨ v < 256 ^ nb := by
  induction as generalizing k with
  | nil => simp [borderScan] at h
  | cons a as ih =>
    simp only [borderScan] at h
    split at h
    · rcases List.mem_cons.mp h with rfl | h
      · exact .inl ⟨_, _, rfl⟩
      · exact ih h
    · rcases List.mem_cons.mp h with rfl | h
      · exact .inr (entSample_lt _ _ _)
      · exact ih h

/-- How many of the addresses before the `n`-th are margin pixels (R182: the scan skips the interior). -/
def marginBefore (P : Frame) (w' : Nat) (as : List Nat) (n : Nat) : Nat :=
  (as.take n).countP fun a => !borderInside P (a % w') (a / w')

/-- The scan, address by address (R180, R182). -/
theorem getElem?_borderScan (P : Frame) (w' nb : Nat) (ent : Nat → Byte) (as : List Nat) (k n : Nat) :
    (borderScan P w' nb ent as k)[n]? = as[n]?.map fun a =>
      if borderInside P (a % w') (a / w') then P.px (a % w' - Config.borderW) (a / w' - Config.borderW)
      else entSample ent (k + nb * marginBefore P w' as n) nb := by
  induction as generalizing k n with
  | nil => simp [borderScan]
  | cons a as ih =>
    cases n with
    | zero =>
      simp only [borderScan, marginBefore]
      split <;> simp_all
    | succ n =>
      simp only [borderScan]
      split
      · next hin => simp [ih, marginBefore, hin]
      · next hin =>
        simp only [List.getElem?_cons_succ, ih]
        have : marginBefore P w' (a :: as) (n + 1) = marginBefore P w' as n + 1 := by
          simp [marginBefore, hin]
        rw [this, Nat.mul_add, Nat.mul_one]
        congr 1
        funext b
        rw [Nat.add_assoc, Nat.add_comm nb]

theorem borderFrame_wf {p : Params} {P : Frame} {nb : Nat} {ent : Nat → Byte} (h : P.wf p = true)
    (hn : borderBytes P.depth = some nb)
    (hf : frameFits p (P.w + 2 * Config.borderW) (P.h + 2 * Config.borderW) = true) :
    (borderFrame P nb ent).wf p = true := by
  have hpx := px_lt h
  have hbits := (borderBytes_bits hn).1
  rw [frame_wf_iff] at h ⊢
  obtain ⟨h1, h2, -, h4, -, -⟩ := h
  refine ⟨by simp only [borderFrame]; omega, by simp only [borderFrame]; omega, hf, ?_, by simp [borderFrame], ?_⟩
  · simpa [borderFrame, Frame.palLen] using h4
  · intro v hv
    rcases mem_borderScan hv with ⟨x, y, rfl⟩ | hv
    · exact hpx x y
    · simp only [borderFrame, hbits]
      rwa [Nat.pow_mul]

/-! ### ROT90 -/

theorem rot90Frame_ok {P Q : Frame} : rot90Frame P = .ok Q ↔ P.depth = .d24 ∧
    Q = { w := P.h, h := P.w, depth := .d24, pal := [],
          data := raster P.h P.w fun x' y' => P.px (P.w - 1 - y') x' } := by
  unfold rot90Frame need
  split <;> simp_all [eq_comm]

theorem frameFits_swap {p : Params} {w h : Nat} : frameFits p w h = frameFits p h w := by
  rw [Bool.eq_iff_iff, frameFits_iff, frameFits_iff, Nat.mul_comm w h]
  tauto

theorem rot90Frame_wf {p : Params} {P Q : Frame} (h : P.wf p = true) (hq : rot90Frame P = .ok Q) : Q.wf p = true := by
  obtain ⟨hd, rfl⟩ := rot90Frame_ok.mp hq
  have hpx := px_lt h
  rw [frame_wf_iff] at h ⊢
  obtain ⟨h1, h2, h3, -⟩ := h
  refine ⟨h2, h1, frameFits_swap ▸ h3, by simp [Depth.indexed, Depth.bits, Frame.palLen], by simp, fun v hv => ?_⟩
  dsimp only at hv
  obtain ⟨x, y, -, -, rfl⟩ := mem_raster hv
  rw [hd] at hpx
  exact hpx _ _

/-! ### SCALE -/

theorem scaleFrame_ok {p : Params} {P Q : Frame} {num den : Nat} : scaleFrame p P num den = .ok Q ↔
    P.depth = .d8 ∧ (rhu (P.w * num) den ≠ 0 ∧ rhu (P.h * num) den ≠ 0) ∧
      frameFits p (rhu (P.w * num) den) (rhu (P.h * num) den) = true ∧
      Q = { P with
        w := rhu (P.w * num) den, h := rhu (P.h * num) den,
        data := raster (rhu (P.w * num) den) (rhu (P.h * num) den) fun x' y' =>
          P.px (scaleSource P.w num den x') (scaleSource P.h num den y') } := by
  simp only [scaleFrame, need_eq_ok, Except.ok.injEq, eq_comm (b := Q)]

theorem scaleFrame_wf {p : Params} {P Q : Frame} {num den : Nat} (h : P.wf p = true)
    (hq : scaleFrame p P num den = .ok Q) : Q.wf p = true := by
  obtain ⟨-, ⟨hw, hh⟩, hf, rfl⟩ := scaleFrame_ok.mp hq
  have hpx := px_lt h
  rw [frame_wf_iff] at h ⊢
  obtain ⟨-, -, -, h4, -, -⟩ := h
  refine ⟨Nat.pos_of_ne_zero hw, Nat.pos_of_ne_zero hh, hf, by simpa [Frame.palLen] using h4, by simp, fun v hv => ?_⟩
  dsimp only at hv
  obtain ⟨x, y, -, -, rfl⟩ := mem_raster hv
  exact hpx _ _

/-! ### OVERLAY -/

theorem overlayFrame_ok {G L Q : Frame} {num den : Nat} : overlayFrame G L num den = .ok Q ↔
    (G.depth = .d24 ∧ L.depth = .d24) ∧
      Q = { w := G.w, h := G.h, depth := .d24, pal := [], data := raster G.w G.h (overlayPixel G L num den) } := by
  simp only [overlayFrame, need_eq_ok, Except.ok.injEq, eq_comm (b := Q)]

/-- The background pixel a logo pixel lands on (R201). -/
theorem logoAt_some {G L : Frame} {x y lx ly : Nat} (hx : lx < L.w) (hy : ly < L.h)
    (ex : overlayOffset G.w L.w + lx = x) (ey : overlayOffset G.h L.h + ly = y) :
    logoAt G L x y = some (L.px lx ly) := by
  unfold logoAt
  dsimp only
  rw [if_pos (by omega)]
  congr 2 <;> omega

/-- Where no logo pixel lands (R201). -/
theorem logoAt_none {G L : Frame} {x y : Nat}
    (h : ∀ lx ly : Nat, lx < L.w → ly < L.h → ¬ (overlayOffset G.w L.w + lx = x ∧ overlayOffset G.h L.h + ly = y)) :
    logoAt G L x y = none := by
  unfold logoAt
  dsimp only
  rw [if_neg]
  rintro ⟨h1, h2, h3, h4⟩
  exact h ((x : Int) - overlayOffset G.w L.w).toNat ((y : Int) - overlayOffset G.h L.h).toNat (by omega) (by omega)
    ⟨by omega, by omega⟩

/-- The blend of two channel values is one (42_transform R203). -/
theorem blend_lt {num den a c : Nat} (hd : 1 ≤ den) (hn : num ≤ den) (ha : a < 256) (hc : c < 256) :
    blend num den a c < 256 := by
  have h1 : a * num ≤ 255 * num := Nat.mul_le_mul_right _ (by omega)
  have h2 : c * (den - num) ≤ 255 * (den - num) := Nat.mul_le_mul_right _ (by omega)
  have h3 : a * num + c * (den - num) ≤ 255 * den := by
    calc a * num + c * (den - num) ≤ 255 * num + 255 * (den - num) := by omega
      _ = 255 * den := by omega
  unfold blend
  calc rhu (a * num + c * (den - num)) den ≤ rhu (255 * den) den := rhu_mono h3
    _ = 255 := rhu_mul_self hd
    _ < 256 := by omega

theorem blendSample_lt {num den : Nat} (hd : 1 ≤ den) (hn : num ≤ den) (q p : Nat) :
    blendSample num den q p < 2 ^ 24 :=
  sample24_lt (blend_lt hd hn (bch_lt _) (bch_lt _)) (blend_lt hd hn (gch_lt _) (gch_lt _))
    (blend_lt hd hn (rch_lt _) (rch_lt _))

theorem overlayPixel_lt {p : Params} {G L : Frame} {num den : Nat} (h : G.wf p = true) (hg : G.depth = .d24)
    (hd : 1 ≤ den) (hn : num ≤ den) (x y : Nat) : overlayPixel G L num den x y < 2 ^ 24 := by
  have hG := px_lt h x y
  rw [hg] at hG
  unfold overlayPixel
  split
  · exact hG
  · split
    · exact hG
    · exact blendSample_lt hd hn _ _

theorem overlayFrame_wf {p : Params} {G L Q : Frame} {num den : Nat} (h : G.wf p = true) (hd : 1 ≤ den)
    (hn : num ≤ den) (hq : overlayFrame G L num den = .ok Q) : Q.wf p = true := by
  obtain ⟨⟨hg, -⟩, rfl⟩ := overlayFrame_ok.mp hq
  have hpx := overlayPixel_lt (L := L) h hg hd hn
  rw [frame_wf_iff] at h ⊢
  obtain ⟨h1, h2, h3, -⟩ := h
  refine ⟨h1, h2, h3, by simp [Depth.indexed, Depth.bits, Frame.palLen], by simp, fun v hv => ?_⟩
  dsimp only at hv
  obtain ⟨x, y, -, -, rfl⟩ := mem_raster hv
  exact hpx _ _

end Sys2Proof.Machine
end

