-- ==== Sys2Proof/Tests/Slice0.lean ====
section
/-! SUPPORT. Tests of single steps. Every expected value is from spec/95_test_vectors.md (the vector is named) or,
where no vector fits, from the rule named. -/

namespace Sys2Proof.Tests

open Sys2Proof.Machine

set_option Elab.async false

/-! ### Well-formedness: one ill-formed command for each check -/

theorem test_wf_rejects_wide_slot : (Instr.gray 16 0).wf = false := by decide
theorem test_wf_rejects_wide_imm3 : (Instr.embed 0 0 0 8).wf = false := by decide
theorem test_wf_accepts_fields_at_their_limit : (Instr.embed 15 15 15 7).wf = true := by decide

/-! ### Decoding: words written out from 30_encoding R91, R93 (vectors of 95 section 2.1) -/

theorem test_decode_decbmp : decodeTableWord 32 0x00000011 = some (.decbmp 1 0) := by decide
theorem test_decode_encbmp : decodeTableWord 32 0x00010122 = some (.encbmp 2 1 true) := by decide
theorem test_decode_encbmp_bottom_up : decodeTableWord 32 0x00000122 = some (.encbmp 2 1 false) := by decide
theorem test_decode_decpcx : decodeTableWord 32 0x00000003 = some (.decpcx 0 0) := by decide
theorem test_decode_gray : decodeTableWord 32 0x00000014 = some (.gray 1 0) := by decide
theorem test_decode_border : decodeTableWord 32 0x00000015 = some (.border 1 0) := by decide
theorem test_decode_rot90 : decodeTableWord 32 0x00000016 = some (.rot90 1 0) := by decide
theorem test_decode_scale : decodeTableWord 32 0x00000127 = some (.scale 2 1) := by decide
theorem test_decode_overlay : decodeTableWord 32 0x00002138 = some (.overlay 3 1 2) := by decide
theorem test_decode_embed : decodeTableWord 32 0x00021029 = some (.embed 2 0 1 2) := by decide
theorem test_decode_extract : decodeTableWord 32 0x0003023A = some (.extract 3 2 3) := by decide
theorem test_decode_quant : decodeTableWord 32 0x0000312B = some (.quant 2 1 3) := by decide
theorem test_encode_overlay : encode (.overlay 3 1 2) = 0x00002138 := by decide
theorem test_encode_extract : encode (.extract 3 2 3) = 0x0003023A := by decide

/-! ### Small states -/

/-- Byte slots, frame slots, ARG0, ARG1; everything else as after reset. -/
def small (bs : List Buffer) (fs : List (Option Frame)) (a0 a1 : Word) : State :=
  { State.reset with mem := { bytes := bs, frames := fs }, arg0 := a0, arg1 := a1 }

/-- The state a step or a meaning answers, if it answers one. -/
def after (o : Host.Outcome State Fault Refusal) : Option State :=
  match o with
  | .next t => some t
  | .fault _ => none
  | .refused _ => none

/-- Frame slot `f` afterwards. -/
def frameAfter (f : Nat) (o : Host.Outcome State Fault Refusal) : Option Frame :=
  match after o with
  | some t => t.mem.frame? f
  | none => none

/-- Byte slot `b` afterwards. -/
def bufAfter (b : Nat) (o : Host.Outcome State Fault Refusal) : Option Buffer :=
  match after o with
  | some t => t.mem.buf? b
  | none => none

/-- STATUS, ERR_KIND, ERR_DETAIL afterwards, as the host reads them. -/
def statusAfter (o : Host.Outcome State Fault Refusal) : Option (Word × Word × Word) :=
  match after o with
  | some t => some (readReg t 3, readReg t 4, readReg t 5)
  | none => none

/-- `n` zero bytes. -/
def zeros (n : Nat) : Buffer := List.replicate n 0

/-- V-BMP-1: 24 bpp, 2×2, bottom-up, 70 bytes. -/
def vBmp1 : Buffer :=
  [0x42, 0x4D, 0x46, 0, 0, 0, 0, 0, 0, 0, 0x36, 0, 0, 0, 0x28, 0, 0, 0, 2, 0, 0, 0, 2, 0, 0, 0, 1, 0, 0x18, 0, 0, 0,
   0, 0, 0x10, 0, 0, 0] ++ zeros 16 ++
  [0xFF, 0, 0, 0xFF, 0xFF, 0xFF, 0, 0, 0, 0, 0xFF, 0, 0xFF, 0, 0, 0]

/-- The frame of V-BMP-1. -/
def fBmp1 : Frame :=
  { w := 2, h := 2, depth := .d24, pal := [], data := [0xFF0000, 0x00FF00, 0x0000FF, 0xFFFFFF] }

/-- V-BMP-3: 4 bpp, 3×1, top-down, 3 colours, 70 bytes. -/
def vBmp3 : Buffer :=
  [0x42, 0x4D, 0x46, 0, 0, 0, 0, 0, 0, 0, 0x42, 0, 0, 0, 0x28, 0, 0, 0, 3, 0, 0, 0, 0xFF, 0xFF, 0xFF, 0xFF, 1, 0, 4, 0,
   0, 0, 0, 0, 4, 0, 0, 0] ++ zeros 8 ++ [3, 0, 0, 0] ++ zeros 4 ++
  [3, 2, 1, 0, 6, 5, 4, 0, 9, 8, 7, 0, 0x21, 0x0F, 0, 0]

/-- The frame of V-BMP-5, an 8-bit 3×2 frame of 4 colours. -/
def fBmp5 : Frame :=
  { w := 3, h := 2, depth := .d8,
    pal := [{ r := 10, g := 20, b := 30 }, { r := 255, g := 0, b := 0 }, { r := 0, g := 255, b := 0 },
      { r := 0, g := 0, b := 255 }],
    data := [3, 3, 0, 0, 1, 2] }

/-- An 8-bit 3×2 frame with samples 0..5 (V-SCL-1). -/
def fScl : Frame :=
  { w := 3, h := 2, depth := .d8, pal := [black], data := [0, 1, 2, 3, 4, 5] }

/-- V-PCX-1: 3×2, bytesPerLine 4, 904 bytes. -/
def vPcx1 : Buffer :=
  [0x0A, 5, 1, 8, 0, 0, 0, 0, 2, 0, 1, 0] ++ zeros 53 ++ [1, 4, 0] ++ zeros 60 ++
  [0xC3, 5, 7, 1, 2, 0xC2, 0xC1] ++ [0x0C] ++
  (tab 256 fun i => [BitVec.ofNat 8 i, BitVec.ofNat 8 (2 * i), BitVec.ofNat 8 (3 * i)]).flatten

/-! ### DECBMP, ENCBMP -/

theorem test_decbmp_vbmp1 :
    frameAfter 0 (exec (.decbmp 0 0) (small [vBmp1] [none] 0 0)) = some fBmp1 := by decide +kernel

theorem test_decbmp_vbmp3_top_down_short_palette :
    (frameAfter 0 (exec (.decbmp 0 0) (small [vBmp3] [none] 0 0))).map (fun P => (P.w, P.h, P.pal, P.data))
      = some (3, 1, [{ r := 1, g := 2, b := 3 }, { r := 4, g := 5, b := 6 }, { r := 7, g := 8, b := 9 }], [2, 1, 0]) := by
  decide +kernel

theorem test_encbmp_vbmp1 :
    bufAfter 0 (exec (.encbmp 0 0 false) (small [[]] [some fBmp1] 0 0)) = some vBmp1 := by decide +kernel

/-- V-BMP-1b: height −2 = FE FF FF FF and the rows in the other order. -/
theorem test_encbmp_vbmp1b_top_down :
    (bufAfter 0 (exec (.encbmp 0 0 true) (small [[]] [some fBmp1] 0 0))).map (fun Y => (Y.drop 22).take 4 ++ Y.drop 54)
      = some [0xFE, 0xFF, 0xFF, 0xFF, 0, 0, 0xFF, 0, 0xFF, 0, 0, 0, 0xFF, 0, 0, 0xFF, 0xFF, 0xFF, 0, 0] := by
  decide +kernel

/-! ### DECPCX -/

theorem test_decpcx_vpcx1 :
    (frameAfter 0 (exec (.decpcx 0 0) (small [vPcx1] [none] 0 0))).map
        (fun P => (P.w, P.h, P.palLen, P.pal[193]?, P.data))
      = some (3, 2, 256, some { r := 193, g := 130, b := 67 }, [5, 5, 5, 1, 2, 0xC1]) := by decide +kernel

/-- V-PCX-E: an 897-byte file of a 1×1 image has no image data. -/
theorem test_decpcx_no_data :
    statusAfter (exec (.decpcx 0 0) (small [[0x0A, 5, 1, 8] ++ zeros 61 ++ [1, 1, 0] ++ zeros 60 ++ [0x0C] ++ zeros 768]
      [none] 0 0)) = some (0x0E, 4, 0x34) := by decide +kernel

/-! ### GRAY, BORDER, ROT90, SCALE, OVERLAY -/

/-- V-GRAY-2. -/
theorem test_gray_vgray2 :
    frameAfter 1 (exec (.gray 1 0) (small [] [some fBmp5, none] 0 0))
      = some { fBmp5 with pal := [{ r := 18, g := 18, b := 18 }, { r := 76, g := 76, b := 76 },
          { r := 150, g := 150, b := 150 }, { r := 29, g := 29, b := 29 }] } := by decide +kernel

/-- V-GRAY-1, the exact halves. -/
theorem test_luma_halves_round_up :
    (luma { r := 0, g := 0, b := 250 }, luma { r := 0, g := 4, b := 168 }, luma { r := 0, g := 8, b := 86 }) = (29, 22, 15) := by
  decide

/-- V-BRD-1: the 1×1 8-bit frame [7] with ent[k] = k mod 256. -/
theorem test_border_vbrd1 :
    (frameAfter 1 (exec (.border 1 0)
        { small [] [some { w := 1, h := 1, depth := .d8, pal := [black], data := [7] }, none] 0 0 with
          entropy := tab 960 fun k => BitVec.ofNat 8 k })).map
        (fun P => [P.w, P.h, P.px 0 0, P.px 30 0, P.px 0 1, P.px 14 15, P.px 15 15, P.px 16 15, P.px 30 30])
      = some [31, 31, 0, 30, 31, 223, 7, 224, 191] := by decide +kernel

/-- V-BRD-3's last line: BORDER of a 4-bit frame is refused with 0x16. -/
theorem test_border_four_bit :
    statusAfter (exec (.border 0 0) (small [] [some { w := 1, h := 1, depth := .d4, pal := [black], data := [0] }] 0 0))
      = some (0x0E, 2, 0x16) := by decide +kernel

/-- V-ROT-1 on the frame of V-BMP-1. -/
theorem test_rot90_vrot1 :
    (frameAfter 1 (exec (.rot90 1 0) (small [] [some fBmp1, none] 0 0))).map Frame.data
      = some [0x00FF00, 0xFFFFFF, 0xFF0000, 0x0000FF] := by decide +kernel

/-- R185's example: 3×2 becomes 2×3. -/
theorem test_rot90_three_by_two :
    frameAfter 0 (exec (.rot90 0 0)
      (small [] [some { w := 3, h := 2, depth := .d24, pal := [], data := [0xA0, 0xA1, 0xA2, 0xB0, 0xB1, 0xB2] }] 0 0))
      = some { w := 2, h := 3, depth := .d24, pal := [], data := [0xA2, 0xB2, 0xA1, 0xB1, 0xA0, 0xB0] } := by
  decide +kernel

/-- V-SCL-1, k = 3/2. -/
theorem test_scale_three_halves :
    (frameAfter 0 (exec (.scale 0 0) (small [] [some fScl] 3 2))).map (fun P => (P.w, P.h, P.data))
      = some (5, 3, [0, 0, 1, 2, 2, 0, 0, 1, 2, 2, 3, 3, 4, 5, 5]) := by decide +kernel

/-- V-SCL-1, k = 1/10: the width rounds to 0. -/
theorem test_scale_to_nothing :
    statusAfter (exec (.scale 0 0) (small [] [some fScl] 1 10)) = some (0x0E, 5, 0x45) := by decide +kernel

/-- V-OVL-1 background: 4×4, all 0x646464. -/
def fBack : Frame := { w := 4, h := 4, depth := .d24, pal := [], data := List.replicate 16 0x646464 }

/-- V-OVL-1 logo. -/
def fLogo : Frame := { w := 2, h := 2, depth := .d24, pal := [], data := [0xFFFFFF, 0x000000, 0xFFFFFF, 0xC80A32] }

theorem test_overlay_vovl1 :
    (frameAfter 2 (exec (.overlay 2 0 1) (small [] [some fBack, some fLogo, none] 1 2))).map
        (fun P => (P.data[5]?, P.data[6]?, P.data[9]?, P.data[10]?))
      = some (some 0x646464, some 0x323232, some 0x646464, some 0x96374B) := by decide +kernel

/-- V-OVL-2: a logo larger than the background. -/
theorem test_overlay_vovl2 :
    (frameAfter 0 (exec (.overlay 0 0 1)
        (small [] [some { w := 2, h := 2, depth := .d24, pal := [], data := [0, 0, 0, 0] },
          some { w := 5, h := 3, depth := .d24, pal := [], data := 0x010101 :: tab 14 fun i => 0x0A0001 + i }] 0 1))).map
        Frame.data = some [0x0A0007, 0x0A0008, 0x0A000C, 0x0A000D] := by decide +kernel

/-! ### EMBED, EXTRACT -/

/-- The container of V-STG-1..3. -/
def vContainer : Buffer := List.replicate 12 0xFF ++ List.replicate 12 0

/-- V-STG-3, b = 6. -/
theorem test_embed_six_bits :
    bufAfter 2 (exec (.embed 2 0 1 3) (small [vContainer, [0x48, 0x69], []] [] 0 0))
      = some ([0xC0, 0xE0, 0xC0, 0xC0, 0xC0, 0xC0, 0xD2, 0xC6, 0xE4, 0xFF, 0xFF, 0xFF] ++ zeros 12) := by decide +kernel

/-- V-STG-9, HEADER_BITS = 64, b = 6. -/
theorem test_embed_wide_header :
    (bufAfter 0 (exec (.embed 0 0 1 3)
        { small [zeros 40, [0xFF]] [] 0 0 with params := { Config.defaultParams with header := .bits64 } }))
      = some ([0, 0x10, 0, 0, 0, 0, 0, 0, 0, 0, 0, 0x3F, 0x30] ++ zeros 27) := by decide +kernel

/-- V-STG-8, high bits of container bytes are ignored. -/
theorem test_extract_ignores_high_bits :
    bufAfter 0 (exec (.extract 0 1 2) (small [[], [0xF0, 0xF1, 0xF0, 0xF0, 0xF0, 0xF0, 0xF0, 0xF0, 0xFA, 0x5B]] [] 0 0))
      = some [0xAB] := by decide +kernel

/-- V-STG-8: 6 bytes 3F with b = 6 state L = 2^32 − 1. -/
theorem test_extract_too_long :
    statusAfter (exec (.extract 0 1 3) (small [[], List.replicate 6 0x3F] [] 0 0)) = some (0x0E, 4, 0x37) := by
  decide +kernel

/-! ### QUANT -/

/-- The source frame of V-Q-1 to V-Q-4. -/
def fQuant : Frame :=
  { w := 3, h := 3, depth := .d8,
    pal := [black, { r := 10, g := 10, b := 10 }, { r := 255, g := 0, b := 0 }, { r := 250, g := 5, b := 5 },
      { r := 0, g := 0, b := 255 }, { r := 0, g := 255, b := 0 }],
    data := [1, 1, 1, 0, 0, 3, 3, 2, 4] }

/-- V-Q-2, K = 16. -/
theorem test_quant_vq2 :
    (frameAfter 1 (exec (.quant 1 0 0) (small [[]] [some fQuant, none] 16 0))).map
        (fun P => (P.pal.take 7, P.palLen, P.data))
      = some ([{ r := 10, g := 10, b := 10 }, { r := 250, g := 5, b := 5 }, { r := 0, g := 0, b := 255 },
          { r := 0, g := 255, b := 0 }, black, { r := 255, g := 0, b := 0 }, black], 16,
          [0, 0, 0, 4, 4, 1, 1, 5, 2]) := by decide +kernel

/-- V-Q-1, K = 3: HIST, LUT, STATUS and the last pixel's RGBA. -/
theorem test_quant_vq1_tables :
    (after (exec (.quant 1 0 0) (small [[]] [some fQuant, none] 3 0))).map
        (fun t => (t.hist.take 6, t.lut.take 6, t.status.word, (t.mem.buf 0).drop 32))
      = some ([2, 3, 1, 2, 1, 0], [0, 0, 1, 1, 2, 0], 0x12, [0, 0, 0xFF, 0xFF]) := by decide +kernel

/-! ### Command-level errors (95 section 2.1, P4) and the host -/

/-- P4: the reserved opcode 0. -/
theorem test_reserved_opcode :
    statusAfter (step (State.reset.withFetchWord 32 0x00000000)) = some (0x0E, 5, 0x40) := by decide +kernel

/-- 95 section 2.1: a reserved field is checked before the slot range. -/
theorem test_reserved_field_before_slot_range :
    statusAfter (step (State.reset.withFetchWord 32 0x00001051)) = some (0x0E, 5, 0x41) := by decide +kernel

theorem test_slot_out_of_range :
    statusAfter (step (State.reset.withFetchWord 32 0x00000041)) = some (0x0E, 5, 0x42) := by decide +kernel

/-- 95 section 2.1: slot validity is checked before the operands. -/
theorem test_invalid_source_before_operands :
    statusAfter (step (State.reset.withFetchWord 32 0x00001028)) = some (0x0E, 5, 0x43) := by decide +kernel

theorem test_illegal_imm3 :
    statusAfter (step (State.reset.withFetchWord 32 0x0004023A)) = some (0x0E, 5, 0x44) := by decide +kernel

/-- V-RST-1: every register reads 0 after RESET, whatever was there. -/
theorem test_reset_registers :
    ((after (step { (small [] [] 1 2).withAction .reset with status := ⟨true, true, true, true, true⟩ })).map fun t =>
      (List.range 0x30).all fun n => readReg t n == 0) = some true := by decide +kernel

/-! ### Witnesses: a concrete state and operands that meet the hypotheses of each statement of Obligations.lean,
one for each clause, at the edge of its range -/

/-- The host is about to perform `a`, and the engine is idle. -/
def host (a : HostAction) : State := { State.reset with pending := [a] }

/-- `small` in a configuration of its own. -/
def smallIn (cap : Nat) (fb : Option Nat) (bs : List Buffer) (fs : List (Option Frame)) (a0 a1 : Word) : State :=
  { small bs fs a0 a1 with params := { Config.defaultParams with bufCap := cap, fbCap := fb } }

/-- Did the command succeed? -/
def succeeded (o : Host.Outcome State Fault Refusal) : Bool :=
  match after o with
  | some t => !t.status.err
  | none => false

/-- The header of a BMP file: width, height (u32), bits per pixel, compression, palette colours, pixel offset. -/
def bmpHead (w h bpp comp palc off : Nat) : Buffer :=
  [0x42, 0x4D] ++ zeros 8 ++ put32 off ++ zeros 4 ++ put32 w ++ put32 h ++ zeros 2 ++ put16 bpp ++ put32 comp ++
    zeros 12 ++ put32 palc ++ zeros 4

/-- The header of a PCX file of a `w`×`h` image: encoding, bits, planes, bytes per line. -/
def pcxHead (enc bpp planes bpl w h : Nat) : Buffer :=
  [0x0A, 5, BitVec.ofNat 8 enc, BitVec.ofNat 8 bpp] ++ zeros 4 ++ put16 (w - 1) ++ put16 (h - 1) ++ zeros 53 ++
    [BitVec.ofNat 8 planes] ++ put16 bpl ++ zeros 60

/-- A PCX file: header, image data, palette. -/
def pcxFile (head data : Buffer) (marker : Byte) : Buffer := head ++ data ++ [marker] ++ zeros 768

/-- A frame of one size and depth, every sample 0. -/
def blank (w h : Nat) (d : Depth) : Frame :=
  { w := w, h := h, depth := d, pal := if d.indexed then [black] else [], data := List.replicate (w * h) 0 }

theorem witness_every_command_at_its_limit : ∀ i ∈ [Instr.decbmp 15 15, .encbmp 15 15 true, .decpcx 15 15, .gray 15 15,
    .border 15 15, .rot90 15 15, .scale 15 15, .overlay 15 15 15, .embed 15 15 15 7, .extract 15 15 7, .quant 15 15 15],
    i.wf = true := by decide

theorem witness_word_that_decodes : decode 0x0007FFF9 = .ok (.embed 15 15 15 7) := by decide

theorem witness_step_runs : (host (.writeReg 0 0x14)).pending = .writeReg 0 0x14 :: [] ∧
    (host (.writeReg 0 0x14)).status.busy = false ∧ decode 0x14 = .ok (.gray 1 0) := by decide

theorem witness_reserved_opcodes : ∀ n ∈ [0x00, 0x0C, 0x1F],
    (host (.writeReg 0 (BitVec.ofNat 32 n))).status.busy = false ∧
      ((BitVec.ofNat 32 n).toNat % 16 = 0 ∨ 12 ≤ (BitVec.ofNat 32 n).toNat % 16) := by decide

theorem witness_reserved_fields : ∀ n ∈ [0x00001011, 0x00020002, 0x00080009, 0x0001000B],
    1 ≤ (BitVec.ofNat 32 n).toNat % 16 ∧ (BitVec.ofNat 32 n).toNat % 16 ≤ 11 ∧
      (opcodeTable.all fun row => BitVec.ofNat 32 n &&& row.2 != row.1) = true := by decide +kernel

theorem witness_idle : State.reset.pending = [] := rfl

theorem witness_register_accesses : ∀ n ∈ [1, 2, 3, 0x2A, 0x2B],
    (host (.writeReg n 7)).pending = [.writeReg n 7] ∧ (host (.readReg n)).pending = [.readReg n] ∧
      (host (.readReg n)).status.busy = false := by decide

/-- B[3] := 2 bytes in 4 slots of at most 2 bytes; and slot 4, and 3 bytes. -/
theorem witness_host_load : ∀ x ∈ [(3, ([1, 2] : Buffer)), (4, []), (3, [1, 2, 3])],
    let s := { smallIn 2 none [[], [], [], []] [] 0 0 with pending := [.load x.1 x.2] }
    s.pending = .load x.1 x.2 :: [] ∧ s.status.busy = false ∧
      ((x.1 < s.nBslot ∧ x.2.length ≤ s.params.bufCap) ∨ s.nBslot ≤ x.1 ∨ s.params.bufCap < x.2.length) := by decide

theorem witness_host_reads :
    (host (.readSlot 3)).mem.buf? 3 = some [] ∧ (host (.readSlot 4)).nBslot ≤ 4 ∧ 3 < (host (.readFrame 3)).nFslot ∧
      (host (.readFrame 4)).nFslot ≤ 4 ∧ (host .readTables).status.busy = false := by decide

theorem witness_busy : ({ host .readTables with status := Status.started Status.initial }).status.busy = true := rfl

theorem witness_entropy : (host (.supplyEntropy [9])).pending = .supplyEntropy [9] :: [] ∧ [(9 : Byte)][0]? = some 9 := by
  decide

theorem witness_reset : (host .reset).pending = .reset :: [] := rfl

theorem witness_failing_command :
    (after (step (host (.writeReg 0 0)))).map (fun t => (t.status.err, t.status.esticky)) = some (true, true) := by
  decide +kernel

theorem witness_sticky_error :
    ((after (step { host .reset with status := ⟨false, true, true, true, false⟩ })).map (·.status.esticky) = some false) ∧
      (after (step { host .readTables with status := ⟨false, true, true, true, false⟩ })).map (·.status.esticky)
        = some true := by decide +kernel

theorem witness_causes : Detail.notBmSignature ≠ .noError ∧ Detail.lengthOverflow ≠ .noError := by decide

theorem witness_slots_missing : ¬ slotsExist State.reset (.gray 4 0) ∧ ¬ slotsExist State.reset (.quant 0 0 4) ∧
    slotsExist State.reset (.embed 3 3 3 0) := by decide

theorem witness_source_invalid : slotsExist State.reset (.overlay 3 3 3) ∧ ¬ sourcesValid State.reset (.overlay 3 3 3) := by
  decide

theorem witness_operands_illegal :
    (slotsExist State.reset (.embed 0 0 0 0) ∧ sourcesValid State.reset (.embed 0 0 0 0) ∧
      ¬ operandsLegal State.reset (.embed 0 0 0 0)) ∧ ¬ operandsLegal State.reset (.extract 0 0 4) ∧
    ¬ operandsLegal (small [] [] 1 0) (.scale 0 0) ∧ ¬ operandsLegal (small [] [] 3 2) (.overlay 0 0 0) ∧
    ¬ operandsLegal (small [] [] 257 0) (.quant 0 0 0) := by
  simp [operandsLegal, small, State.reset, State.initial]
  decide

/-- A successful command of each kind of result, and QUANT. -/
theorem witness_successful_commands :
    succeeded (exec (.rot90 1 0) (small [] [some fBmp1, none] 0 0)) = true ∧
    succeeded (exec (.extract 0 1 2) (small [[], zeros 8] [] 0 0)) = true ∧
    succeeded (exec (.quant 1 0 0) (small [[]] [some fQuant, none] 3 0)) = true := by decide +kernel

/-- A state with the invariant from which a step answers a next state, a frame in it. -/
def sound (a : List HostAction) : State :=
  { small [[], [], []] [some fBmp1, none, some fBmp5] 0 0 with pending := a }

theorem witness_invariant : (sound [.writeReg 0 0x16]).Inv ∧ (after (step (sound [.writeReg 0 0x16]))).isSome = true := by
  refine ⟨⟨by decide, by decide +kernel, rfl, rfl, rfl, ⟨by decide +kernel, by decide +kernel, ?_, fun _ => ⟨rfl, rfl⟩⟩, ?_⟩,
    by decide +kernel⟩
  · intro v hv
    rw [(List.mem_replicate.mp hv).2]
    omega
  · exact ⟨rfl, by decide, by decide⟩

/-! #### files -/

/-- An accepted BMP file of each depth: one pixel. -/
theorem witness_bmp_accepted : ∀ d ∈ [Depth.d1, .d4, .d8, .d24, .d32],
    BmpAccepted Config.defaultParams (bmpHead 1 1 d.bits 0 (if d.indexed then 1 else 0) 58 ++ zeros 8) d := by
  decide +kernel

/-- The slots of `smallIn` (`small` in its configuration): what a statement assumes of slot 0 and of the arguments. -/
theorem witness_slots (cap : Nat) (fb : Option Nat) (X : Buffer) (P : Frame) (a0 a1 : Word) :
    let s := smallIn cap fb [X, X, X] [some P, some P, some P] a0 a1
    s.mem.buf? 0 = some X ∧ s.mem.frame? 0 = some P ∧ 2 < s.nBslot ∧ 2 < s.nFslot ∧ s.arg0 = a0 ∧ s.arg1 = a1 ∧
      s.params.bufCap = cap ∧ s.params.fbCap = fb := by
  exact ⟨rfl, rfl, Nat.lt_succ_self 2, Nat.lt_succ_self 2, rfl, rfl, rfl, rfl⟩

theorem witness_decbmp : let s := small [vBmp1] [none] 0 0
    0 < s.nFslot ∧ s.mem.buf? 0 = some vBmp1 ∧ BmpAccepted s.params vBmp1 .d24 := by decide +kernel

/-- The last clause of DecbmpErrorsInOrder: the 2×2 file where a frame holds 3 samples at most. -/
theorem witness_decbmp_too_many_samples : let s := smallIn 100 (some 3) [vBmp1] [none] 0 0
    0 < s.nFslot ∧ s.mem.buf? 0 = some vBmp1 ∧ 54 ≤ vBmp1.length ∧ u32le vBmp1 30 = 0 ∧ u16le vBmp1 28 = Depth.d24.bits ∧
      0 < i32le vBmp1 18 ∧ i32le vBmp1 22 ≠ 0 ∧ bmpPalLen .d24 (u32le vBmp1 46) ≤ 256 ∧
      u32le vBmp1 10 + stride .d24 (i32le vBmp1 18).toNat * (i32le vBmp1 22).natAbs ≤ vBmp1.length ∧
      frameFits s.params (i32le vBmp1 18).toNat (i32le vBmp1 22).natAbs = false := by decide +kernel

/-- One file for each clause of DecbmpErrorsInOrder but the last. -/
theorem witness_bmp_errors :
    ([0x42] : Buffer).length < 2 ∧
    (2 ≤ ([0x42, 0x4D] : Buffer).length ∧ byteAt [0x42, 0x4D] 0 = 0x42 ∧ byteAt [0x42, 0x4D] 1 = 0x4D ∧
      ([0x42, 0x4D] : Buffer).length < 54) ∧
    (54 ≤ (bmpHead 1 1 8 1 0 54).length ∧ u32le (bmpHead 1 1 8 1 0 54) 30 ≠ 0) ∧
    (u32le (bmpHead 1 1 2 0 0 54) 30 = 0 ∧ u16le (bmpHead 1 1 2 0 0 54) 28 ∉ [1, 4, 8, 24, 32]) ∧
    (u16le (bmpHead 0 1 8 0 0 54) 28 = Depth.d8.bits ∧ i32le (bmpHead 0 1 8 0 0 54) 18 ≤ 0) ∧
    (i32le (bmpHead 1 0 8 0 0 54) 22 = 0) ∧
    (0 < i32le (bmpHead 1 1 8 0 257 54) 18 ∧ i32le (bmpHead 1 1 8 0 257 54) 22 ≠ 0 ∧
      256 < bmpPalLen .d8 (u32le (bmpHead 1 1 8 0 257 54) 46)) ∧
    (bmpPalLen .d8 (u32le (bmpHead 1 1 8 0 1 54) 46) ≤ 256 ∧
      (bmpHead 1 1 8 0 1 54).length < 54 + 4 * bmpPalLen .d8 (u32le (bmpHead 1 1 8 0 1 54) 46)) ∧
    (54 + 4 * bmpPalLen .d8 (u32le (bmpHead 1 1 8 0 1 58 ++ zeros 7) 46) ≤ (bmpHead 1 1 8 0 1 58 ++ zeros 7).length ∧
      (bmpHead 1 1 8 0 1 58 ++ zeros 7).length < 58 + stride .d8 1 * 1) := by
  decide +kernel

theorem witness_encbmp : fBmp1.wf Config.defaultParams = true ∧ fBmp5.wf Config.defaultParams = true ∧
    (smallIn 69 none [[]] [some fBmp1] 0 0).params.bufCap < 54 + 4 * fBmp1.palLen + stride .d24 2 * 2 ∧
    54 + 4 * fBmp1.palLen + stride .d24 2 * 2 ≤ (smallIn 70 none [[]] [some fBmp1] 0 0).params.bufCap ∧
    (smallIn 70 none [[]] [some fBmp1] 0 0).mem.frame? 0 = some fBmp1 ∧ fBmp5.pal[3]? = some ⟨0, 0, 255⟩ := by
  decide +kernel

theorem witness_encbmp_round_trip : (sound []).mem.frame? 2 = some fBmp5 ∧
    succeeded (exec (.encbmp 1 2 true) (sound [])) = true := by decide +kernel

theorem witness_pcx_rows :
    PcxAccepted Config.defaultParams vPcx1 ∧
    (∀ row ∈ [[PcxCode.run 3 5, .literal 7], [.literal 1, .literal 2, .run 2 0xC1]], rowComplete (u16le vPcx1 66) row) ∧
    (vPcx1.take (vPcx1.length - 769)).drop 128 =
      ([[PcxCode.run 3 5, .literal 7], [.literal 1, .literal 2, .run 2 0xC1]].flatMap fun row =>
        row.flatMap PcxCode.bytes) ++ [] := by decide +kernel

/-- No image data at all, and a run marker at the end of the data. -/
theorem witness_pcx_exhausted : ∀ tail ∈ [([] : Buffer), [0xC1]],
    PcxAccepted Config.defaultParams (pcxFile (pcxHead 1 8 1 1 1 1) tail 0x0C) ∧
    ((pcxFile (pcxHead 1 8 1 1 1 1) tail 0x0C).take ((pcxFile (pcxHead 1 8 1 1 1 1) tail 0x0C).length - 769)).drop 128
      = [] ++ [] ++ tail ∧ (rowPixels []).length < 1 := by decide +kernel

/-- One file for each clause of DecpcxErrorsInOrder. -/
theorem witness_pcx_errors :
    (([] : Buffer).length < 1 ∧ byteAt [0x0B] 0 ≠ 0x0A) ∧
    (1 ≤ ([0x0A] : Buffer).length ∧ byteAt [0x0A] 0 = 0x0A ∧ ([0x0A] : Buffer).length < 897) ∧
    (897 ≤ (pcxFile (pcxHead 0 8 1 1 1 1) [] 0x0C).length ∧ byteAt (pcxFile (pcxHead 0 8 1 1 1 1) [] 0x0C) 2 ≠ 1) ∧
    (byteAt (pcxHead 1 4 1 1 1 1) 2 = 1 ∧ byteAt (pcxHead 1 4 1 1 1 1) 3 ≠ 8) ∧
    (byteAt (pcxHead 1 8 3 1 1 1) 3 = 8 ∧ byteAt (pcxHead 1 8 3 1 1 1) 65 ≠ 1) ∧
    (byteAt (pcxHead 1 8 1 1 1 1) 65 = 1 ∧ u16le ([0, 0, 0, 0, 1, 0] ++ zeros 61) 8 < u16le ([0, 0, 0, 0, 1, 0] ++ zeros 61) 4) ∧
    (u16le (pcxHead 1 8 1 1 2 1) 66 < u16le (pcxHead 1 8 1 1 2 1) 8 - u16le (pcxHead 1 8 1 1 2 1) 4 + 1) ∧
    (u16le (pcxHead 1 8 1 2 2 1) 8 - u16le (pcxHead 1 8 1 2 2 1) 4 + 1 ≤ u16le (pcxHead 1 8 1 2 2 1) 66 ∧
      byteAt (pcxFile (pcxHead 1 8 1 2 2 1) [] 0x0D) 128 ≠ 0x0C) ∧
    (byteAt (pcxFile (pcxHead 1 8 1 2 2 1) [] 0x0C) 128 = 0x0C ∧
      samplesFit (smallIn 2000 (some 1) [] [] 0 0).params
        ((u16le (pcxHead 1 8 1 2 2 1) 8 - u16le (pcxHead 1 8 1 2 2 1) 4 + 1) * 1) = false) := by
  decide +kernel

/-! #### transforms -/

/-- GRAY on an 8-bit frame and on another, and GRAY of its result. -/
theorem witness_gray : let s := small [] [some fBmp5, some fBmp1, none] 0 0
    2 < s.nFslot ∧ s.mem.frame? 0 = some fBmp5 ∧ fBmp5.depth = .d8 ∧ s.mem.frame? 1 = some fBmp1 ∧ fBmp1.depth ≠ .d8 ∧
      (after (exec (.gray 2 0) s)).map (fun t => succeeded (exec (.gray 0 2) t)) = some true := by decide +kernel

/-- A 1×1 frame of each accepted depth where 961 samples fit, or 960; and the refused depths. -/
theorem witness_border : (∀ x ∈ [(Depth.d8, 1), (.d24, 3), (.d32, 4)],
    let s := smallIn 9 (some 961) [] [some (blank 1 1 x.1)] 0 0
    0 < s.nFslot ∧ s.mem.frame? 0 = some (blank 1 1 x.1) ∧ (blank 1 1 x.1).data.length = 1 * 1 ∧
      ((x.1 = .d8 ∧ x.2 = 1) ∨ (x.1 = .d24 ∧ x.2 = 3) ∨ (x.1 = .d32 ∧ x.2 = 4)) ∧ frameFits s.params (1 + 30) (1 + 30) = true ∧
      frameFits (smallIn 9 (some 960) [] [] 0 0).params (1 + 30) (1 + 30) = false) ∧
    (blank 1 1 .d1).depth = .d1 ∧ (blank 1 1 .d4).depth = .d4 := by decide +kernel

theorem witness_rotations : fBmp1.wf Config.defaultParams = true ∧ fBmp1.depth = .d24 ∧ fBmp5.depth ≠ .d24 ∧
    ((((after (exec (.rot90 0 0) (small [] [some fBmp1] 0 0))).bind fun t => after (exec (.rot90 0 0) t)).bind
      fun t => after (exec (.rot90 0 0) t)).map fun t => succeeded (exec (.rot90 0 0) t)) = some true := by decide +kernel

/-- Each clause of ScaleSamplesTheNearestPixel: 1/10 rounds 3×2 to 0, 3/2 gives 5×3, which 15 samples hold and 14 do
not. -/
theorem witness_scale : let s := smallIn 9 (some 15) [] [some fScl, some fBmp1] 3 2
    1 < s.nFslot ∧ s.mem.frame? 0 = some fScl ∧ fScl.depth = .d8 ∧ s.mem.frame? 1 = some fBmp1 ∧ fBmp1.depth ≠ .d8 ∧
      1 ≤ s.arg0.toNat ∧ 1 ≤ s.arg1.toNat ∧ (2 * (fScl.w * s.arg0.toNat) + s.arg1.toNat) / (2 * s.arg1.toNat) = 5 ∧
      (2 * (fScl.h * s.arg0.toNat) + s.arg1.toNat) / (2 * s.arg1.toNat) = 3 ∧ frameFits s.params 5 3 = true ∧
      frameFits (smallIn 9 (some 14) [] [] 0 0).params 5 3 = false ∧ (2 * (fScl.w * 1) + 10) / (2 * 10) = 0 ∧
      4 < rhu (3 * 3) 2 := by decide +kernel

/-- V-OVL-1: its corners, the weights 0 and 1, a frame of another depth, a frame over itself. -/
theorem witness_overlay : let s := small [] [some fBack, some fLogo, some fBmp5] 1 2
    2 < s.nFslot ∧ s.mem.frame? 0 = some fBack ∧ s.mem.frame? 1 = some fLogo ∧ 1 ≤ s.arg1.toNat ∧ s.arg0.toNat ≤ s.arg1.toNat ∧
      fBack.depth = .d24 ∧ fLogo.depth = .d24 ∧ s.mem.frame? 2 = some fBmp5 ∧ fBmp5.depth ≠ .d24 ∧
      (∀ w ∈ [(0, 1), (1, 1)], 1 ≤ w.2 ∧ w.1 ≤ w.2) ∧ ((fBack.w : Int) - fLogo.w) / 2 + (1 : Nat) = (2 : Nat) ∧
      fLogo.px 1 1 ≠ fLogo.px 0 0 ∧ fLogo.px 0 1 = fLogo.px 0 0 ∧ fBack.wf s.params = true ∧
      succeeded (exec (.overlay 2 0 0) s) = true := by decide +kernel

/-! #### the bit packer and the quantizer -/

/-- One payload byte in a container that just holds it, and in one a byte shorter, for each `b`. -/
theorem witness_embed_lengths : ∀ x ∈ [(1, 20), (2, 10), (3, 8)],
    let s := small [zeros x.2, [7], zeros (x.2 - 1)] [] 0 0
    let need := (headerBits s.params.header + 2 * x.1 - 1) / (2 * x.1) + (8 * 1 + 2 * x.1 - 1) / (2 * x.1)
    2 < s.nBslot ∧ s.mem.buf? 0 = some (zeros x.2) ∧ s.mem.buf? 1 = some [7] ∧ x.1 ∈ [1, 2, 3] ∧
      1 < 2 ^ headerBits s.params.header ∧ (zeros x.2).length = need ∧ (zeros (x.2 - 1)).length < need ∧
      succeeded (exec (.embed 2 0 1 x.1) s) = true := by decide +kernel

/-- A payload the 32-bit length field cannot hold. -/
theorem witness_embed_overflow : ∃ P : Buffer, 2 ^ headerBits .bits32 ≤ P.length :=
  ⟨List.replicate (2 ^ headerBits .bits32) 0, Nat.le_of_eq List.length_replicate.symm⟩

/-- `b` = 4: a container one byte short of its header; one that states L = 1 and is one byte short, or holds it. -/
theorem witness_extract : (zeros 7).length < (32 + 4 - 1) / 4 ∧
    (∀ t < 32, (1 / 256 ^ (t / 8)).testBit (7 - t % 8) = (byteAt ([0, 1] ++ zeros 7) (t / 4)).getLsbD (4 - 1 - t % 4)) ∧
    ([0, 1] ++ zeros 7 : Buffer).length < (32 + 4 - 1) / 4 + (8 * 1 + 4 - 1) / 4 ∧
    (32 + 4 - 1) / 4 + (8 * 1 + 4 - 1) / 4 ≤ ([0, 1] ++ zeros 8 : Buffer).length := by decide +kernel

theorem witness_numbers : 1 ≤ 3 ∧ (2 ^ 16 - 1 : Nat) < 2 ^ 16 ∧ (2 ^ 32 - 1 : Nat) < 2 ^ 32 ∧ (-(2 ^ 31) : Int) < 2 ^ 31 := by
  decide

theorem witness_quant : fBmp1.depth ≠ .d8 ∧ fQuant.depth = .d8 ∧ fQuant.wf Config.defaultParams = true ∧
    (smallIn 35 none [] [] 1 0).params.bufCap < 4 * fQuant.w * fQuant.h ∧
    4 * fQuant.w * fQuant.h ≤ (smallIn 36 none [] [] 1 0).params.bufCap ∧ (∀ v ∈ fQuant.data, v < fQuant.palLen) ∧
    (∃ v ∈ fScl.data, fScl.palLen ≤ v) ∧ fScl.wf Config.defaultParams = true ∧
    (1 ≤ (1 : Word).toNat ∧ (256 : Word).toNat ≤ 256) ∧
    succeeded (exec (.quant 1 0 0) (small [[]] [some fQuant, none] 1 0)) = true := by
  decide +kernel

/-! ### The bus map -/

/-- A legal map of one thing of each kind. -/
def mapped : Params :=
  { Config.defaultParams with regMap := [(.reg 0, 0x40), (.byteSlot 3, 0x1000), (.frameSlot 0, 0x2000), (.tables, 0)] }

/-- The host is about to use a bus address of `mapped`. -/
def onBus (addr : Nat) (x : BusAccess) : State := { host (.atBus addr x) with params := mapped }

/-- R96 through the bus address of CMD, and the error is remembered. -/
theorem test_bus_write_to_cmd :
    statusAfter (step (onBus 0x40 (.write 0x00001051))) = some (0x0E, 5, 0x41) := by decide +kernel

/-- R44 (b) through the window of B[3]. -/
theorem test_bus_load : bufAfter 3 (step (onBus 0x1000 (.load [7, 9]))) = some [7, 9] := by decide +kernel

theorem witness_bus_access :
    (onBus 0x40 .read).pending = .atBus 0x40 .read :: [] ∧ (onBus 0x40 .read).status.busy = false ∧
    busTarget? mapped 0x40 = some (.reg 0) ∧ busTarget? mapped 0x1000 = some (.byteSlot 3) ∧
    busTarget? mapped 0x2000 = some (.frameSlot 0) ∧ busTarget? mapped 0 = some .tables ∧ busTarget? mapped 1 = none := by
  decide

theorem witness_bus_command : cmdWord? mapped (.atBus 0x40 (.write 5)) = some 5 ∧
    cmdWord? mapped (.atBus 0 (.write 5)) = none := by decide

/-- A legal map; and an ill-formed one for each of its two checks, which is refused. -/
theorem witness_bus_map : paramsLegal mapped = true ∧ busAddress? mapped .tables = some 0 ∧
    paramsLegal { mapped with regMap := [(.reg 0, 1), (.reg 0, 2)] } = false ∧
    paramsLegal { mapped with regMap := [(.reg 0, 1), (.reg 1, 1)] } = false := by decide +kernel

end Sys2Proof.Tests
end

/-! PROOFS. The bus map and the steps of a bus access (spec 00_scope R8, 20_memory R71). -/

namespace Sys2Proof.Machine

/-! ### The bus map -/

/-- In a list whose keys differ, a lookup by key finds an entry exactly when the list has it. -/
theorem find?_key_eq_some_iff {α κ : Type} [DecidableEq κ] {l : List α} {key : α → κ} (h : (l.map key).Nodup) (e : α) :
    l.find? (fun x => key x = key e) = some e ↔ e ∈ l := by
  constructor
  · exact List.mem_of_find?_eq_some
  · intro he
    obtain ⟨e', hf⟩ := Option.isSome_iff_exists.mp
      (List.find?_isSome (p := fun x => decide (key x = key e)).mpr ⟨e, he, by simp⟩)
    have hk : key e' = key e := by simpa using List.find?_some hf
    rw [hf, List.inj_on_of_nodup_map h (List.mem_of_find?_eq_some hf) he hk]

/-- A legal map gives nothing two addresses and no address to two things (00_scope R8). -/
theorem regMap_injective {p : Params} (h : paramsLegal p = true) :
    (p.regMap.map Prod.fst).Nodup ∧ (p.regMap.map Prod.snd).Nodup := by
  simp only [paramsLegal, Bool.and_eq_true, decide_eq_true_eq] at h
  obtain ⟨⟨-, hfst⟩, hsnd⟩ := h
  exact ⟨hfst, hsnd⟩

/-- Settles O60: each lookup finds an entry of the map, and by injectivity the only one with its key. -/
theorem busMapIsOneToOne : Obligations.BusMapIsOneToOne := by
  intro p t addr h
  obtain ⟨hfst, hsnd⟩ := regMap_injective h
  refine ⟨⟨mem_of_busAddress?, fun he => ?_⟩, mem_of_busTarget?, fun he => ?_⟩
  · rw [busAddress?, (find?_key_eq_some_iff hfst (t, addr)).mpr he, Option.map_some]
  · rw [busTarget?, (find?_key_eq_some_iff hsnd (t, addr)).mpr he, Option.map_some]

/-! ### Steps -/

/-- A step performs the first pending action (10_state R21). -/
theorem step_of_pending {s : State} {a : HostAction} {rest : List HostAction} (h : s.pending = a :: rest) :
    step s = act a { s with pending := rest } := by
  simp only [step, h]

/-- An idle engine takes the host's action (10_state R44). -/
@[simp] theorem whenIdle_of_idle {s : State} (h : s.status.busy = false) (k : Host.Outcome State Fault Refusal) :
    whenIdle s k = k := by
  simp [whenIdle, h]

/-- A bus access of an idle engine to a mapped address is the access to what stands there (20_memory R71). -/
theorem step_atBus_mapped {s : State} {addr : Nat} {x : BusAccess} {rest : List HostAction} {t : BusTarget}
    (h : s.pending = .atBus addr x :: rest) (hb : s.status.busy = false) (ht : busTarget? s.params addr = some t) :
    step s = accessTarget t x { s with pending := rest } := by
  simp [step_of_pending h, act, hb, hostBus, ht]

/-- A bus access of an idle engine to an address that is not mapped faults (log 8). -/
theorem step_atBus_unmapped {s : State} {addr : Nat} {x : BusAccess} {rest : List HostAction}
    (h : s.pending = .atBus addr x :: rest) (hb : s.status.busy = false) (ht : busTarget? s.params addr = none) :
    step s = .fault .noSuchBusAddress := by
  simp [step_of_pending h, act, hb, hostBus, ht]

/-- An action of the host at an idle engine is its operation (10_state R44). -/
theorem step_byNumber {s : State} (rest : List HostAction) (hb : s.status.busy = false) :
    (∀ n, step { s with pending := .readReg n :: rest } = hostReadReg n { s with pending := rest }) ∧
    (∀ n v, step { s with pending := .writeReg n v :: rest } = hostWriteReg n v { s with pending := rest }) ∧
    (∀ b, step { s with pending := .readSlot b :: rest } = hostRead b { s with pending := rest }) ∧
    (∀ b X, step { s with pending := .load b X :: rest } = hostLoad b X { s with pending := rest }) ∧
    (∀ f, step { s with pending := .readFrame f :: rest } = hostFrame f { s with pending := rest }) ∧
    step { s with pending := .readTables :: rest } = hostTables { s with pending := rest } := by
  simp [step, act, hb]

/-- Settles O59: by what is mapped at the address and then by the access; both steps are the same host operation, or
the access is refused. -/
theorem busAccessIsTheAccessByNumber : Obligations.BusAccessIsTheAccessByNumber := by
  intro s addr x rest h hb
  obtain ⟨hreadReg, hwriteReg, hreadSlot, hload, hreadFrame, hreadTables⟩ := step_byNumber rest hb
  refine ⟨fun n ht => ?_, fun b ht => ?_, fun f ht => ?_, fun ht => ?_, step_atBus_unmapped h hb⟩ <;>
    rw [step_atBus_mapped h hb ht]
  · cases x <;> simp [accessTarget, hreadReg, hwriteReg]
  · cases x <;> simp [accessTarget, hreadSlot, hload]
  · cases x <;> simp [accessTarget, hreadFrame]
  · cases x <;> simp [accessTarget, hreadTables]

end Sys2Proof.Machine

/-! PROOFS. Little-endian fields (spec 00_scope R13). -/

namespace Sys2Proof.Machine

/-- Byte `i` of the little-endian bytes of `v` (00_scope R13). -/
theorem byteAt_leBytes {n i : Nat} (v : Nat) (h : i < n) : byteAt (leBytes n v) i = BitVec.ofNat 8 (v / 256 ^ i) := by
  induction n generalizing v i with
  | zero => omega
  | succ n ih =>
    cases i with
    | zero => simp [leBytes, byteAt]
    | succ i =>
      calc byteAt (leBytes (n + 1) v) (i + 1) = byteAt (leBytes n (v / 256)) i := rfl
        _ = BitVec.ofNat 8 (v / 256 ^ (i + 1)) := by rw [ih _ (by omega), Nat.div_div_eq_div_mul, Nat.pow_succ']

/-- What `leBytes` wrote behind `pre` reads back, up to the field's width (R13). -/
theorem leRead_leBytes (pre post : Buffer) (n v : Nat) :
    leRead (pre ++ leBytes n v ++ post) pre.length n = v % 256 ^ n := by
  induction n generalizing pre v with
  | zero => simp [leRead, Nat.mod_one]
  | succ n ih =>
    have hb : byteAt (pre ++ leBytes (n + 1) v ++ post) pre.length = BitVec.ofNat 8 v := by
      simp [leBytes, byteAt]
    have hrest : leRead (pre ++ leBytes (n + 1) v ++ post) (pre.length + 1) n = v / 256 % 256 ^ n := by
      simpa [leBytes] using ih (pre ++ [BitVec.ofNat 8 v]) (v / 256)
    rw [leRead, hb, hrest, Nat.pow_succ', Nat.mod_mul, BitVec.toNat_ofNat]

/-- A signed field is read back: the two's complement of `v` is below `2^31` exactly when `v` is not negative (R13). -/
theorem i32le_putI32 (pre post : Buffer) {v : Int} (h : -(2 ^ 31) ≤ v) (h' : v < 2 ^ 31) :
    i32le (pre ++ putI32 v ++ post) pre.length = v := by
  have hu : u32le (pre ++ putI32 v ++ post) pre.length = (v % 2 ^ 32).toNat % 256 ^ 4 := leRead_leBytes ..
  unfold i32le
  split <;> omega

/-- Settles O55: the reads by their recursion, the read-back by `leRead_leBytes`. -/
theorem littleEndianReadsWhatWasWritten : Obligations.LittleEndianReadsWhatWasWritten := by
  refine ⟨fun X o => ⟨?_, ?_, rfl⟩, fun pre post => ⟨fun v hv => ?_, fun v hv => ?_, fun v h h' => ?_⟩⟩
  · simp [u16le, leRead]
  · simp only [u32le, leRead, Nat.add_assoc, Nat.reduceAdd]
    omega
  · exact ⟨(leRead_leBytes pre post 2 v).trans (Nat.mod_eq_of_lt hv), length_leBytes ..⟩
  · exact ⟨(leRead_leBytes pre post 4 v).trans (Nat.mod_eq_of_lt hv), length_leBytes ..⟩
  · exact ⟨i32le_putI32 pre post h h', length_leBytes ..⟩

end Sys2Proof.Machine

/-! PROOFS. The invariant of the block is kept by every step (spec 10_state R29, R31, R34 to R38, 70 R304). -/

namespace Sys2Proof.Machine

/-- The part of the invariant that holds also while a command runs: `State.Inv` without the idle engine and the error
registers, which the end of a command establishes. -/
structure State.DataSound (s : State) : Prop where
  params : paramsLegal s.params = true
  mem : s.mem.wf s.params = true
  bmp : s.bh.sound
  pcx : s.ph.sound
  tables : s.tablesSound

theorem State.Inv.dataSound {s : State} (h : s.Inv) : s.DataSound := ⟨h.params, h.mem, h.bmp, h.pcx, h.tables⟩

section
variable {s : State}

/-! What each write of a command's commit needs to keep the data sound. -/

theorem State.DataSound.startCommand (h : s.DataSound) (w : Word) : (startCommand w s).DataSound :=
  ⟨h.params, h.mem, h.bmp, h.pcx, h.tables⟩

theorem State.DataSound.setBuf (h : s.DataSound) (b : BSlot) {X : Buffer} (hX : X.length ≤ s.params.bufCap) :
    (s.setBuf b X).DataSound :=
  ⟨h.params, setBuf_wf h.mem hX, h.bmp, h.pcx, h.tables⟩

theorem State.DataSound.setFrame (h : s.DataSound) (f : FSlot) {P : Frame} (hP : P.wf s.params = true) :
    (s.setFrame f P).DataSound :=
  ⟨h.params, setFrame_wf h.mem hP, h.bmp, h.pcx, h.tables⟩

theorem State.DataSound.setBmpLatch (h : s.DataSound) {l : BmpLatch} (hl : l.sound) : (s.setBmpLatch l).DataSound :=
  ⟨h.params, h.mem, hl, h.pcx, h.tables⟩

theorem State.DataSound.setPcxLatch (h : s.DataSound) {l : PcxLatch} (hl : l.sound) : (s.setPcxLatch l).DataSound :=
  ⟨h.params, h.mem, h.bmp, hl, h.tables⟩

theorem State.DataSound.setTables (h : s.DataSound) {hist lut : List Nat} (hh : hist.length = 256)
    (hl : lut.length = 256) (hv : ∀ v ∈ lut, v < 256) : (s.setTables hist lut).DataSound :=
  ⟨h.params, h.mem, h.bmp, h.pcx, hh, hl, hv, nofun⟩

theorem State.DataSound.drawEntropy (h : s.DataSound) (n : Nat) : (s.drawEntropy n).DataSound :=
  ⟨h.params, h.mem, h.bmp, h.pcx, h.tables⟩

/-- The error entry makes the engine idle and the error registers agree (60_exceptions R270). -/
theorem State.DataSound.raise (h : s.DataSound) {d : Detail} (hd : d ≠ .noError) : (raise d s).Inv :=
  ⟨h.params, h.mem, rfl, h.bmp, h.pcx, h.tables, rfl, by simpa using hd, fun _ => rfl⟩

/-- Successful completion makes the engine idle and the error registers agree (60_exceptions R272). -/
theorem State.DataSound.succeed (h : s.DataSound) : (succeed s).Inv :=
  ⟨h.params, h.mem, rfl, h.bmp, h.pcx, h.tables, rfl, by simp, nofun⟩

/-- The invariant does not speak of the arguments, the entropy port and the host's two lists. -/
theorem State.Inv.outside (h : s.Inv) (a0 a1 : Word) (ent : List Byte) (pend : List HostAction)
    (reps : List HostReply) :
    State.Inv { s with arg0 := a0, arg1 := a1, entropy := ent, pending := pend, replies := reps } :=
  ⟨h.params, h.mem, h.idle, h.bmp, h.pcx, h.tables, h.errors⟩

end

/-! ### What a commit writes is sound -/

/-- An accepted BMP file gives a sound latch (10_state R34). -/
theorem bmpLatchOf_sound {p : Params} {X : Buffer} {d : Depth} (h : BmpAccepted p X d) : (bmpLatchOf X).sound := by
  obtain ⟨⟨hB, hM⟩, -, hcomp, -⟩ := h
  have hsig : u16le X 0 = 0x4D42 := by simp [u16le, leRead, hB, hM]
  simp [BmpLatch.sound, bmpLatchOf, hsig, hcomp]

/-- An accepted PCX file gives a sound latch (10_state R35). -/
theorem pcxLatchOf_sound {p : Params} {X : Buffer} (h : PcxAccepted p X) : (pcxLatchOf X).sound := by
  obtain ⟨hid, -, henc, hbpp, hplanes, -⟩ := h
  simp [PcxLatch.sound, pcxLatchOf, hid, henc, hbpp, hplanes]

/-- A legal `IMM3` stands for at least 1 and fewer than 8 bits per byte (2, 4 or 6, 30_encoding R97). -/
theorem bitsPerByte_of_imm3Legal {imm3 : Nat} (h : imm3Legal imm3 = true) : 1 ≤ 2 * imm3 ∧ 2 * imm3 < 8 := by
  have := imm3Legal_iff.mp h
  omega

/-- The commit of QUANT: 256 counters, 256 indices below K, and a rendering and a frame that fit (44_quantizer R241). -/
theorem quantCommit_dataSound {s : State} {P : Frame} {K : Nat} (h : s.DataSound) (fd : FSlot) (bb : BSlot)
    (hP : P.wf s.params = true) (hK : 1 ≤ K ∧ K ≤ 256) (hc : 4 * P.w * P.h ≤ s.params.bufCap) :
    (quantCommit s fd bb P K).DataSound := by
  obtain ⟨-, -, -, -, hdata, -⟩ := frame_wf_iff.mp hP
  refine ((h.setFrame fd (quantFrame_wf hP hK.1 hK.2)).setBuf bb ?_).setTables (length_histogram _)
    (length_indexTable _ _) fun v hv => ?_
  · rw [rgbaOf_length hdata]
    exact hc
  · have hlt := mem_indexTable_lt (quantPalette_ne_nil hK.1) hv
    rw [length_quantPalette] at hlt
    omega

/-- Every commit keeps the data sound: the result of each command is a frame that keeps R31 or a buffer within
`BUF_CAP` (10_state R29, R31). -/
theorem committed_dataSound {i : Instr} {s u : State} (hc : Committed i s u) (h : s.DataSound) : u.DataSound := by
  cases hc with
  | decbmp _ _ hr =>
    obtain ⟨d, hacc, rfl⟩ := decodeBmp_ok.mp hr
    exact (h.setBmpLatch (bmpLatchOf_sound hacc)).setFrame _ (bmpFrame_wf hacc)
  | encbmp _ _ hr => exact h.setBuf _ (encodeBmp_length hr).2
  | decpcx _ _ hr =>
    obtain ⟨hacc, rows, hrows, rfl⟩ := decodePcx_ok.mp hr
    exact (h.setPcxLatch (pcxLatchOf_sound hacc)).setFrame _ (pcxFrame_wf hacc hrows)
  | gray _ hp hr => exact h.setFrame _ (grayFrame_wf (wf_of_frame? h.mem hp) hr)
  | border _ hp hn hr => exact (h.setFrame _ (borderFrame_wf (wf_of_frame? h.mem hp) hn hr)).drawEntropy _
  | rot90 _ hp hr => exact h.setFrame _ (rot90Frame_wf (wf_of_frame? h.mem hp) hr)
  | scale _ hp _ hr => exact h.setFrame _ (scaleFrame_wf (wf_of_frame? h.mem hp) hr)
  | overlay _ hg _ ho hr =>
    have hden : 1 ≤ s.arg1.toNat := Nat.pos_of_ne_zero fun h0 => ho.1 (BitVec.eq_of_toNat_eq h0)
    exact h.setFrame _ (overlayFrame_wf (wf_of_frame? h.mem hg) hden ho.2 hr)
  | embed _ hC _ _ hr =>
    obtain ⟨-, -, rfl⟩ := embed_ok.mp hr
    exact h.setBuf _ (by simpa using length_le_of_buf? h.mem hC)
  | extract _ hC ho hr =>
    obtain ⟨hb, hb'⟩ := bitsPerByte_of_imm3Legal ho
    exact h.setBuf _ ((extract_length hb hb'.le hr).trans (length_le_of_buf? h.mem hC))
  | quant _ _ hp ho _ hc _ => exact quantCommit_dataSound h _ _ (wf_of_frame? h.mem hp) ho hc

/-! ### Commands and host actions -/

/-- A command run from sound data ends in a state with the invariant, however it ends. -/
theorem exec_inv {i : Instr} {s t : State} (h : s.DataSound) (he : exec i s = .next t) : t.Inv := by
  obtain ⟨d, hd, rfl⟩ | ⟨u, hu, rfl⟩ := exec_next he
  · exact h.raise hd
  · exact (committed_dataSound hu h).succeed

/-- A write to CMD keeps the invariant, whether or not the word is a command (30_encoding R95, R96). -/
theorem runCommand_inv {w : Word} {s t : State} (h : s.Inv) (hr : runCommand w s = .next t) : t.Inv := by
  have hd := h.dataSound.startCommand w
  unfold runCommand at hr
  split at hr
  · exact exec_inv hd hr
  · next e _ =>
    obtain rfl := Host.Outcome.next.inj hr
    exact hd.raise (by cases e <;> simp [detailOfDecodeError])

theorem writeDataReg_inv {s : State} (h : s.Inv) (n : Nat) (v : Word) : (writeDataReg s n v).Inv := by
  unfold writeDataReg
  split
  · exact h.outside ..
  · exact h.outside ..
  · exact h

theorem hostWriteReg_inv {n : Nat} {v : Word} {s t : State} (h : s.Inv) (ha : hostWriteReg n v s = .next t) :
    t.Inv := by
  unfold hostWriteReg at ha
  split at ha
  · exact runCommand_inv h ha
  · exact Host.Outcome.next.inj ha ▸ writeDataReg_inv h n v

theorem reply_inv {s : State} (h : s.Inv) (r : HostReply) : (reply r s).Inv := h.outside ..

theorem hostLoad_inv {b : BSlot} {X : Buffer} {s t : State} (h : s.Inv) (ha : hostLoad b X s = .next t) : t.Inv := by
  unfold hostLoad at ha
  split at ha
  · next hX =>
    obtain rfl := Host.Outcome.next.inj ha
    exact ⟨h.params, setBuf_wf h.mem hX.2, h.idle, h.bmp, h.pcx, h.tables, h.errors⟩
  · nomatch ha

theorem hostRead_inv {b : BSlot} {s t : State} (h : s.Inv) (ha : hostRead b s = .next t) : t.Inv := by
  unfold hostRead at ha
  split at ha
  · exact Host.Outcome.next.inj ha ▸ reply_inv h _
  · nomatch ha

theorem hostFrame_inv {f : FSlot} {s t : State} (h : s.Inv) (ha : hostFrame f s = .next t) : t.Inv := by
  unfold hostFrame at ha
  split at ha
  · exact Host.Outcome.next.inj ha ▸ reply_inv h _
  · nomatch ha

/-- Reset keeps the configuration and the slot counts, which are legal, and sets all else to its reset value (R43). -/
theorem resetBlock_inv {s : State} (h : s.Inv) : (resetBlock s).Inv := by
  obtain ⟨hbytes, hframes, -, -⟩ := memory_wf_iff.mp h.mem
  exact {
    params := h.params
    mem := initial_wf hbytes hframes
    idle := rfl
    bmp := rfl
    pcx := rfl
    tables := ⟨length_zeroTable, length_zeroTable, fun v hv => by simp [mem_zeroTable hv], fun _ => ⟨rfl, rfl⟩⟩
    errors := ⟨rfl, by simp [Status.initial], nofun⟩ }

/-- Every action by number keeps the invariant. -/
theorem act_inv_byNumber {a : HostAction} {s t : State} (hn : ∀ addr x, a ≠ .atBus addr x) (h : s.Inv)
    (ha : act a s = .next t) : t.Inv := by
  simp only [act, whenIdle_of_idle h.idle] at ha
  cases a with
  | writeReg n v => exact hostWriteReg_inv h ha
  | readReg n => exact Host.Outcome.next.inj ha ▸ reply_inv h _
  | load b X => exact hostLoad_inv h ha
  | readSlot b => exact hostRead_inv h ha
  | readFrame f => exact hostFrame_inv h ha
  | readTables => exact Host.Outcome.next.inj ha ▸ reply_inv h _
  | atBus addr x => exact absurd rfl (hn addr x)
  | reset => exact Host.Outcome.next.inj ha ▸ resetBlock_inv h
  | supplyEntropy ent => exact Host.Outcome.next.inj ha ▸ h.outside ..

/-- Every action keeps the invariant: one at a bus address stops, or is an action by number. -/
theorem act_inv {a : HostAction} {s t : State} (h : s.Inv) (ha : act a s = .next t) : t.Inv := by
  by_cases hn : ∃ addr x, a = .atBus addr x
  · obtain ⟨addr, x, rfl⟩ := hn
    rcases act_atBus addr x s with hs | hs | hs | ⟨a', -, hn', hs, -⟩
    · nomatch hs.symm.trans ha
    · nomatch hs.symm.trans ha
    · nomatch hs.symm.trans ha
    · exact act_inv_byNumber hn' h (hs ▸ ha)
  · exact act_inv_byNumber (fun addr x he => hn ⟨addr, x, he⟩) h ha

/-- Settles O28: a step does nothing or performs one action, and every action keeps the invariant. -/
theorem stepKeepsTheInvariant : Obligations.StepKeepsTheInvariant := by
  intro s t h hs
  unfold step at hs
  split at hs
  · exact Host.Outcome.next.inj hs ▸ h
  · exact act_inv (h.outside ..) hs

end Sys2Proof.Machine

/-! PROOFS. EMBED, bit by bit (spec 43_stego R212 to R215, 30_encoding R109). -/

namespace Sys2Proof.Machine

/-- The spec's `ceil` as a quotient (00_scope R11). -/
theorem ceilDiv_eq {a b : Nat} (hb : 1 ≤ b) : ceilDiv a b = (a + b - 1) / b := by
  rw [ceilDiv, Nat.add_sub_assoc hb]

/-- EMBED with slots that exist and a legal operand is the bit packer on the two buffers (43_stego R213). -/
theorem exec_embed {s : State} {bd ba bb imm3 : Nat} {C P : Buffer} (hd : bd < s.nBslot)
    (hC : s.mem.buf? ba = some C) (hP : s.mem.buf? bb = some P) (ho : imm3Legal imm3 = true) :
    exec (.embed bd ba bb imm3) s = conclude s (storeBuf s bd (embed s.params.header (2 * imm3) C P)) := by
  have ha : ba < s.nBslot := lt_of_buf? hC
  have hb : bb < s.nBslot := lt_of_buf? hP
  simp [exec, execEmbed, needSlots_eq, need_pos, hd, ha, hb, ho, buf_eq_of_buf? hC, buf_eq_of_buf? hP]

/-- Bits 7:b of a container byte are kept (30_encoding R109). -/
theorem putGroup_div {b g : Nat} (hg : g < 2 ^ b) (c : Byte) : (putGroup b c g).toNat / 2 ^ b = c.toNat / 2 ^ b := by
  apply Nat.eq_of_testBit_eq
  intro i
  rw [Nat.testBit_div_two_pow, Nat.testBit_div_two_pow, ← BitVec.getLsbD, ← BitVec.getLsbD]
  by_cases hi : i + b < 8
  · rw [getLsbD_putGroup hg c _ hi, if_neg (by omega)]
  · rw [BitVec.getLsbD_of_ge _ _ (by omega), BitVec.getLsbD_of_ge _ _ (by omega)]

/-- The low bits of a container byte carry the bits of its group, most significant first, and 0 in the padding of the
last group (30_encoding R109, 43_stego R214). -/
theorem getLsbD_putGroup_groups {b t : Nat} {X : Buffer} (hb : 1 ≤ b) (hb' : b < 8) (c : Byte)
    (ht : t < ceilDiv (8 * X.length) b * b) :
    (putGroup b c ((groups (bitsMSB X) b).getD (t / b) 0)).getLsbD (b - 1 - t % b) =
      (decide (t < 8 * X.length) && (byteAt X (t / 8)).getLsbD (7 - t % 8)) := by
  rw [getLsbD_putGroup (group_lt ..) _ _ (by omega), if_pos (by omega),
    testBit_group _ hb (by rwa [length_bitsMSB]), bitsMSB, getD_tab]
  by_cases h : t < 8 * X.length <;> simp [h]

/-- The high bits of the bytes that carry a group are the container's (30_encoding R109). -/
theorem embedBytes_high_bits {hw : HeaderWidth} {b j : Nat} {C P : Buffer}
    (hfit : headerBytes hw b + payloadBytes P.length b ≤ C.length) (hj : j < headerBytes hw b + payloadBytes P.length b) :
    (byteAt (embedBytes hw b C P) j).toNat / 2 ^ b = (byteAt C j).toNat / 2 ^ b := by
  rw [byteAt_embedBytes (hj.trans_le hfit), if_pos hj]
  split <;> exact putGroup_div (group_lt ..) _

/-- The bytes behind the payload are the container's (43_stego R215). -/
theorem embedBytes_tail {hw : HeaderWidth} {b j : Nat} {C P : Buffer}
    (hj : headerBytes hw b + payloadBytes P.length b ≤ j) :
    byteAt (embedBytes hw b C P) j = byteAt C j := by
  by_cases h : j < C.length
  · rw [byteAt_embedBytes h, if_neg (by omega), if_neg (by omega)]
  · simp [byteAt, h]

section
variable {hw : HeaderWidth} {b : Nat} {C P : Buffer}
  (hb : 1 ≤ b) (hb' : b < 8) (hfit : headerBytes hw b + payloadBytes P.length b ≤ C.length)
include hb hb' hfit

/-- Every bit of the length header, in the first `HB` container bytes (43_stego R212, R213). -/
theorem embedBytes_header_bit {t : Nat} (ht : t < headerBytes hw b * b) :
    (byteAt (embedBytes hw b C P) (t / b)).getLsbD (b - 1 - t % b) =
      (decide (t < headerBits hw) && (P.length / 256 ^ (t / 8)).testBit (7 - t % 8)) := by
  have hj : t / b < headerBytes hw b := by rwa [Nat.div_lt_iff_lt_mul hb]
  have hlen : 8 * (lengthHeader hw P.length).length = headerBits hw := by
    rw [length_lengthHeader, headerBits_mul]
  rw [byteAt_embedBytes (by omega), if_pos hj, getLsbD_putGroup_groups hb hb' _ (by rwa [hlen]), hlen]
  by_cases h : t < headerBits hw
  · rw [lengthHeader, byteAt_leBytes _ (by rw [← headerBits_mul hw] at h; omega), BitVec.getLsbD_ofNat]
    simp [show 7 - t % 8 < 8 by omega]
  · simp [h]

/-- Every bit of the payload, in the `PB` container bytes behind the header (43_stego R213). -/
theorem embedBytes_payload_bit {t : Nat} (ht : t < payloadBytes P.length b * b) :
    (byteAt (embedBytes hw b C P) (headerBytes hw b + t / b)).getLsbD (b - 1 - t % b) =
      (decide (t < 8 * P.length) && (byteAt P (t / 8)).getLsbD (7 - t % 8)) := by
  have hj : t / b < payloadBytes P.length b := by rwa [Nat.div_lt_iff_lt_mul hb]
  have hj' := Nat.add_lt_add_left hj (headerBytes hw b)
  rw [byteAt_embedBytes (hj'.trans_le hfit), if_neg (Nat.not_lt.mpr (Nat.le_add_right ..)), if_pos hj',
    Nat.add_sub_cancel_left, getLsbD_putGroup_groups hb hb' _ ht]

end

/-- Settles O51: the command is the bit packer, whose three regions are described one by one. -/
theorem embedHidesEveryBit : Obligations.EmbedHidesEveryBit := by
  intro s bd ba bb imm3 b HB PB C P hd hC hP hi rfl hHB hPB
  have ho : imm3Legal imm3 = true := imm3Legal_iff.mpr (by simpa using hi)
  obtain ⟨hb, hb'⟩ := bitsPerByte_of_imm3Legal ho
  obtain rfl : HB = headerBytes s.params.header (2 * imm3) := hHB.trans (ceilDiv_eq hb).symm
  obtain rfl : PB = payloadBytes P.length (2 * imm3) := hPB.trans (ceilDiv_eq hb).symm
  rw [exec_embed hd hC hP ho]
  refine ⟨fun hL => ?_, fun hL hlt => ?_, fun hL hfit => ?_⟩
  · rw [embed, need_neg (Nat.not_lt.mpr hL)]
    rfl
  · rw [embed, need_pos hL, need_neg (Nat.not_le.mpr hlt)]
    rfl
  · refine ⟨embedBytes s.params.header (2 * imm3) C P, ?_, length_embedBytes .., fun t => ?_, fun t => ?_,
      fun j => embedBytes_high_bits hfit, fun j => embedBytes_tail⟩
    · rw [embed_ok.mpr ⟨hL, hfit, rfl⟩]
      rfl
    · exact embedBytes_header_bit hb hb' hfit
    · exact embedBytes_payload_bit hb hb' hfit

end Sys2Proof.Machine

/-! PROOFS. The host's actions and reset (spec 10_state R23 to R29, R40, R44, 70 R301). -/

namespace Sys2Proof.Machine

/-- The host's next action at an idle engine is its operation `k` (10_state R21, R44). -/
theorem step_of_idle {s : State} {a : HostAction} {rest : List HostAction} (hp : s.pending = a :: rest)
    (hb : s.status.busy = false) (k : State → Host.Outcome State Fault Refusal)
    (ha : ∀ u, act a u = whenIdle u (k u)) : step s = k { s with pending := rest } := by
  rw [step_of_pending hp, ha, whenIdle_of_idle (by exact hb)]

/-- Settles O5: the write to CMD starts the command and runs it. -/
theorem stepRunsTheDecodedCommand : Obligations.StepRunsTheDecodedCommand := by
  intro s w rest i hp hb hd
  rw [step_of_idle hp hb (hostWriteReg 0 w) fun _ => rfl, hostWriteReg, if_pos rfl, runCommand, hd]
  rfl

/-- A register write at an idle engine to any number but that of CMD (10_state R28). -/
theorem step_writeReg_data {s : State} {n : Nat} {v : Word} {rest : List HostAction}
    (hp : s.pending = .writeReg n v :: rest) (hb : s.status.busy = false) (hn : n ≠ 0) :
    step s = .next (writeDataReg { s with pending := rest } n v) := by
  rw [step_of_idle hp hb (hostWriteReg n v) fun _ => rfl, hostWriteReg, if_neg hn]

/-- A write to a number behind the arguments is ignored (10_state R28). -/
theorem writeDataReg_ignored {n : Nat} (hn : 2 < n) (s : State) (v : Word) : writeDataReg s n v = s := by
  unfold writeDataReg
  split
  · omega
  · omega
  · rfl

/-- Settles O9: by the number written. -/
theorem registerWritesReachOnlyTheArguments : Obligations.RegisterWritesReachOnlyTheArguments := by
  intro s n v rest hp hb
  refine ⟨fun hn => ?_, fun hn => ?_, fun hn => ?_⟩ <;> rw [step_writeReg_data hp hb (by omega)]
  · subst hn
    rfl
  · subst hn
    rfl
  · rw [writeDataReg_ignored hn]

/-! ### Register reads -/

/-- Bit `k` of STATUS is its flag, and every bit from 5 on is 0 (10_state R25). -/
theorem getLsbD_statusWord (st : Status) (k : Nat) : st.word.getLsbD k =
    ((k = 0 ∧ st.busy) ∨ (k = 1 ∧ st.done) ∨ (k = 2 ∧ st.err) ∨ (k = 3 ∧ st.esticky) ∨ (k = 4 ∧ st.qvalid) : Bool) := by
  obtain ⟨b, d, e, y, q⟩ := st
  by_cases hk : k < 5
  · have flags : ∀ (b d e y q : Bool) (k : Fin 5), (Status.word ⟨b, d, e, y, q⟩).getLsbD k =
        ((k.val = 0 ∧ b) ∨ (k.val = 1 ∧ d) ∨ (k.val = 2 ∧ e) ∨ (k.val = 3 ∧ y) ∨ (k.val = 4 ∧ q) : Bool) := by decide
    exact flags b d e y q ⟨k, hk⟩
  · have hlt : b.toNat + 2 * d.toNat + 4 * e.toNat + 8 * y.toNat + 16 * q.toNat < 2 ^ 5 := by
      have := b.toNat_le; have := d.toNat_le; have := e.toNat_le; have := y.toNat_le; have := q.toNat_le
      omega
    have hbit := Nat.testBit_lt_two_pow (hlt.trans_le (Nat.pow_le_pow_right (by omega) (by omega : 5 ≤ k)))
    simp [Status.word, BitVec.getLsbD_ofNat, hbit]
    omega

theorem toNat_boolWord (b : Bool) : (boolWord b).toNat = b.toNat := by cases b <;> rfl

theorem kind_code_lt (k : ErrKind) : k.code < 2 ^ 32 := by cases k <;> decide

theorem detail_code_lt (d : Detail) : d.code < 2 ^ 32 := by cases d <;> decide

/-- The numbers that name no register (10_state R28). -/
theorem readReg_reserved (s : State) {k : Nat} (hk : (0x06 ≤ k ∧ k ≤ 0x0F) ∨ (0x1B ≤ k ∧ k ≤ 0x1F) ∨ 0x2B ≤ k) :
    readReg s k = 0 := by
  unfold readReg
  split
  on_goal -1 => rfl
  all_goals omega

/-- Settles O10: the registers by the register table, STATUS bit by bit. -/
theorem registerReadsGiveTheRegister : Obligations.RegisterReadsGiveTheRegister := by
  intro s n rest hp hb
  refine ⟨?_, ⟨rfl, rfl, rfl⟩, ⟨getLsbD_statusWord s.status, ?_, ?_⟩, ⟨toNat_boolWord _, ?_⟩, ⟨toNat_boolWord _, ?_⟩,
    fun k => readReg_reserved s⟩
  · exact step_of_idle hp hb (hostReadReg n) fun _ => rfl
  · exact Nat.mod_eq_of_lt (kind_code_lt _)
  · exact Nat.mod_eq_of_lt (detail_code_lt _)
  · exact ⟨rfl, rfl, rfl, rfl, rfl, rfl, rfl, rfl, rfl, rfl⟩
  · exact ⟨rfl, rfl, rfl, rfl, rfl, rfl, rfl, rfl, rfl, rfl⟩

/-! ### Slots and tables -/

/-- Settles O11: the load writes one slot, or its precondition fails. -/
theorem hostLoadReplacesOneSlot : Obligations.HostLoadReplacesOneSlot := by
  intro s b X rest hp hb
  rw [step_of_idle hp hb (hostLoad b X) fun _ => rfl]
  refine ⟨fun hlt hlen => ?_, fun hno => ?_⟩
  · refine ⟨State.setBuf { s with pending := rest } b X, if_pos ⟨hlt, hlen⟩, rfl, rfl, setBuf_nBslot .., ?_, fun b' hne => ?_⟩
    · exact setBuf_buf?_same _ _ _ hlt
    · exact setBuf_buf?_other _ _ _ _ hne
  · refine if_neg fun hyes => ?_
    obtain ⟨hlt, hlen⟩ : b < s.nBslot ∧ X.length ≤ s.params.bufCap := hyes
    omega

/-- A byte slot that does not exist has no content. -/
theorem buf?_of_le {s : State} {b : BSlot} (h : s.nBslot ≤ b) : s.mem.buf? b = none := List.getElem?_eq_none h

/-- Settles O12: each read is its operation, by whether the slot exists. -/
theorem hostReadsGiveTheSlots : Obligations.HostReadsGiveTheSlots := by
  intro s rest hb
  refine ⟨fun b X hp hX => ?_, fun b hp hle => ?_, fun f hp hlt => ?_, fun f hp hle => ?_, fun hp => ?_⟩
  · rw [step_of_idle hp hb (hostRead b) fun _ => rfl]
    simp only [hostRead, hX, reply]
  · rw [step_of_idle hp hb (hostRead b) fun _ => rfl]
    simp only [hostRead, buf?_of_le hle]
  · rw [step_of_idle hp hb (hostFrame f) fun _ => rfl]
    exact if_pos hlt
  · rw [step_of_idle hp hb (hostFrame f) fun _ => rfl]
    exact if_neg (Nat.not_lt.mpr hle)
  · exact step_of_idle hp hb hostTables fun _ => rfl

/-! ### The entropy port and reset -/

/-- Settles O14: the new bytes stand behind those waiting. -/
theorem entropyIsTakenInOrder : Obligations.EntropyIsTakenInOrder := by
  intro s ent rest hp
  refine ⟨_, step_of_pending hp, rfl, fun k hk => ?_, fun k v hv => ?_⟩
  · simp [State.ent, List.getElem?_append_left hk]
  · simp [State.ent, List.getElem?_append_right (Nat.le_add_right ..), hv]

/-- Settles O16: reset writes the block's state only. -/
theorem resetKeepsWhatIsNotState : Obligations.ResetKeepsWhatIsNotState :=
  fun _ _ hp => ⟨_, step_of_pending hp, rfl, rfl, rfl, rfl, rfl⟩

/-- Settles O29: the configuration by computation, the store by `reset_memory_wf`, all else reads 0. -/
theorem resetHasTheInvariant : Obligations.ResetHasTheInvariant where
  params := by decide
  mem := reset_memory_wf
  idle := rfl
  bmp := rfl
  pcx := rfl
  tables := ⟨length_zeroTable, length_zeroTable, fun v hv => by simp [mem_zeroTable hv], fun _ => ⟨rfl, rfl⟩⟩
  errors := ⟨rfl, by decide, nofun⟩

end Sys2Proof.Machine

/-! PROOFS. What a command checks first, what it writes, and what its result depends on (spec 10_state R34 to R42,
60_exceptions R267, 42_transform R184). -/

namespace Sys2Proof.Machine

/-! ### The command-level checks -/

theorem withFrame_none {α : Type} {s : State} {f : FSlot} {k : Frame → Except Detail α}
    (h : s.mem.frame? f = none) : withFrame s f k = .error .sourceFrameInvalid := by simp [withFrame, h]

/-- A command with one source frame and no operand check: only the frame can be missing. -/
theorem checks_source {α : Type} (s : State) (f : FSlot) (k : Frame → Except Detail α) :
    (¬ (∀ g ∈ [f], s.mem.frame? g ≠ none) → withFrame s f k = .error .sourceFrameInvalid) ∧
    ((∀ g ∈ [f], s.mem.frame? g ≠ none) → ¬ True → withFrame s f k = .error .illegalOperand) := by
  refine ⟨fun h => withFrame_none (by simpa using h), fun _ h => absurd trivial h⟩

/-- A command with one source frame and an operand check `c`. -/
theorem checks_source_operand {α : Type} (s : State) (f : FSlot) {c : Prop} [Decidable c] {p : Prop} (hc : c ↔ p)
    (k : Frame → Except Detail α) :
    (¬ (∀ g ∈ [f], s.mem.frame? g ≠ none) →
      (withFrame s f fun P => need c .illegalOperand (k P)) = .error .sourceFrameInvalid) ∧
    ((∀ g ∈ [f], s.mem.frame? g ≠ none) → ¬ p →
      (withFrame s f fun P => need c .illegalOperand (k P)) = .error .illegalOperand) := by
  refine ⟨fun h => withFrame_none (by simpa using h), fun h hp => ?_⟩
  obtain ⟨P, hP⟩ := Option.ne_none_iff_exists'.mp (h f (by simp))
  rw [withFrame_some hP, need_neg (mt hc.mp hp)]

theorem word_ne_zero_iff {w : Word} : w ≠ 0 ↔ w.toNat ≠ 0 := by
  rw [ne_eq, ← BitVec.toNat_inj]
  rfl

/-- What every command does first: its slots, then its source frames, then its operands (60_exceptions R267). -/
theorem exec_checks (i : Instr) (s : State) : ∃ k,
    exec i s = conclude s (needSlots s (byteSlotsOf i) (frameSlotsOf i) k) ∧
    (¬ sourcesValid s i → k = .error .sourceFrameInvalid) ∧
    (sourcesValid s i → ¬ operandsLegal s i → k = .error .illegalOperand) := by
  cases i with
  | decbmp fd ba => exact ⟨_, rfl, by simp [sourceFramesOf], fun _ h => absurd trivial h⟩
  | encbmp bd fa td => exact ⟨_, rfl, checks_source ..⟩
  | decpcx fd ba => exact ⟨_, rfl, by simp [sourceFramesOf], fun _ h => absurd trivial h⟩
  | gray fd fa => exact ⟨_, rfl, checks_source ..⟩
  | border fd fa => exact ⟨_, rfl, checks_source ..⟩
  | rot90 fd fa => exact ⟨_, rfl, checks_source ..⟩
  | scale fd fa => exact ⟨_, rfl, checks_source_operand s fa (and_congr word_ne_zero_iff word_ne_zero_iff) _⟩
  | overlay fd fa fb =>
    refine ⟨_, rfl, fun h => ?_, fun h ho => ?_⟩
    · cases ha : s.mem.frame? fa with
      | none => exact withFrame_none ha
      | some G =>
        rw [withFrame_some ha]
        exact withFrame_none (by simpa [sourceFramesOf, ha] using h)
    · obtain ⟨G, hG⟩ := Option.ne_none_iff_exists'.mp (h fa (by simp [sourceFramesOf]))
      obtain ⟨L, hL⟩ := Option.ne_none_iff_exists'.mp (h fb (by simp [sourceFramesOf]))
      rw [withFrame_some hG, withFrame_some hL, need_neg]
      rwa [word_ne_zero_iff]
  | embed bd ba bb imm3 => exact ⟨_, rfl, by simp [sourceFramesOf], fun _ h => need_neg (mt imm3Legal_iff.mp h)⟩
  | extract bd ba imm3 => exact ⟨_, rfl, by simp [sourceFramesOf], fun _ h => need_neg (mt imm3Legal_iff.mp h)⟩
  | quant fd fa bb => exact ⟨_, rfl, checks_source_operand s fa (and_congr_left' Nat.one_le_iff_ne_zero) _⟩

/-- Settles O22: the first check that fails ends the command. -/
theorem commandLevelChecksInOrder : Obligations.CommandLevelChecksInOrder := by
  intro i s
  obtain ⟨k, hexec, hsource, hoperand⟩ := exec_checks i s
  rw [hexec, needSlots_eq]
  refine ⟨fun h => ?_, fun h hs => ?_, fun h hs ho => ?_⟩
  · rw [need_neg h, conclude_error]
  · rw [need_pos h, hsource hs, conclude_error]
  · rw [need_pos h, hoperand hs ho, conclude_error]

/-! ### What a command writes -/

/-- A commit leaves every slot alone that the command does not name as destination (10_state R42). -/
theorem committed_slots {i : Instr} {s u : State} (h : Committed i s u) :
    (∀ b, b ∉ destBytesOf i → u.mem.buf b = s.mem.buf b) ∧
    ∀ f, f ∉ destFramesOf i → u.mem.frame? f = s.mem.frame? f := by
  refine ⟨fun b hb => ?_, fun f hf => ?_⟩
  · cases h with
    | encbmp | embed | extract | quant => exact setBuf_buf_other _ _ _ _ (by simpa [destBytesOf] using hb)
    | _ => rfl
  · cases h with
    | encbmp | embed | extract => rfl
    | _ => exact setFrame_frame?_other _ _ _ _ (by simpa [destFramesOf] using hf)

/-- Settles O23: an error writes the error registers only, a commit its destinations. -/
theorem commandsWriteOnlyTheirDestinations : Obligations.CommandsWriteOnlyTheirDestinations := by
  intro i s t h
  obtain ⟨d, -, rfl⟩ | ⟨u, hu, rfl⟩ := exec_next h
  · exact ⟨fun _ _ => ⟨rfl, fun _ => rfl⟩, fun _ _ => rfl, rfl, rfl, rfl, rfl, rfl, rfl, rfl, rfl⟩
  · obtain ⟨hparams, hcmd, harg0, harg1, -, hpending, hreplies, hnb, hnf⟩ := committed_frame hu
    obtain ⟨hbytes, hframes⟩ := committed_slots hu
    refine ⟨fun b hb => ?_, hframes, hnb, hnf, hcmd, harg0, harg1, hparams, hpending, hreplies⟩
    simp [Memory.byte?, hbytes b hb]

/-- A commit of a command that is not DECBMP keeps the BMP latch (10_state R34). -/
theorem committed_bh {i : Instr} {s u : State} (h : Committed i s u) (hi : ∀ fd ba, i ≠ .decbmp fd ba) :
    u.bh = s.bh := by
  cases h with
  | decbmp => exact absurd rfl (hi _ _)
  | _ => rfl

/-- A commit of a command that is not DECPCX keeps the PCX latch (10_state R35). -/
theorem committed_ph {i : Instr} {s u : State} (h : Committed i s u) (hi : ∀ fd ba, i ≠ .decpcx fd ba) :
    u.ph = s.ph := by
  cases h with
  | decpcx => exact absurd rfl (hi _ _)
  | _ => rfl

/-- Settles O24: an error keeps both latches, a commit that of the other decoder. -/
theorem latchesChangeOnlyByTheirDecoder : Obligations.LatchesChangeOnlyByTheirDecoder := by
  intro i s t h
  obtain ⟨d, -, rfl⟩ | ⟨u, hu, rfl⟩ := exec_next h
  · exact ⟨fun _ => rfl, fun _ => rfl⟩
  · exact ⟨fun hi => (committed_bh hu (hi.resolve_left nofun) :), fun hi => (committed_ph hu (hi.resolve_left nofun) :)⟩

/-- A commit of a command that is not QUANT keeps the tables and QVALID (10_state R36 to R38). -/
theorem committed_tables {i : Instr} {s u : State} (h : Committed i s u) (hi : ∀ fd fa bb, i ≠ .quant fd fa bb) :
    u.hist = s.hist ∧ u.lut = s.lut ∧ u.status.qvalid = s.status.qvalid := by
  cases h with
  | quant => exact absurd rfl (hi _ _ _)
  | _ => exact ⟨rfl, rfl, rfl⟩

/-- Settles O25: an error keeps the tables, and so does every commit but that of QUANT, which sets QVALID. -/
theorem tablesChangeOnlyByQuant : Obligations.TablesChangeOnlyByQuant := by
  intro i s t h
  obtain ⟨d, -, rfl⟩ | ⟨u, hu, rfl⟩ := exec_next h
  · exact ⟨fun _ => ⟨rfl, rfl, rfl⟩, fun _ => nofun⟩
  · refine ⟨fun hi => (committed_tables hu (hi.resolve_left nofun) :), ?_⟩
    rintro ⟨fd, fa, bb, rfl⟩ -
    cases hu
    rfl

/-! ### Two runs of one command -/

/-- A relation between two states that a command cannot tell apart: both hold the same configuration, slots and
arguments, and the same write to both keeps them related. -/
structure Indistinct (R : State → State → Prop) : Prop where
  reads : ∀ {s s' : State}, R s s' → s'.params = s.params ∧ s'.mem = s.mem ∧ s'.arg0 = s.arg0 ∧ s'.arg1 = s.arg1
  setBuf : ∀ {s s' : State} (b : BSlot) (X : Buffer), R s s' → R (s.setBuf b X) (s'.setBuf b X)
  setFrame : ∀ {s s' : State} (f : FSlot) (P : Frame), R s s' → R (s.setFrame f P) (s'.setFrame f P)
  setBmpLatch : ∀ {s s' : State} (l : BmpLatch), R s s' → R (s.setBmpLatch l) (s'.setBmpLatch l)
  setPcxLatch : ∀ {s s' : State} (l : PcxLatch), R s s' → R (s.setPcxLatch l) (s'.setPcxLatch l)
  setTables : ∀ {s s' : State} (hist lut : List Nat), R s s' → R (s.setTables hist lut) (s'.setTables hist lut)

/-- Nor can BORDER: both states hold the same entropy sequence, and taking bytes keeps them related. -/
structure SameEntropy (R : State → State → Prop) : Prop where
  ent : ∀ {s s' : State}, R s s' → s'.ent = s.ent
  drawEntropy : ∀ {s s' : State} (n : Nat), R s s' → R (s.drawEntropy n) (s'.drawEntropy n)

/-- Two command results are alike: the same error, or commits that `R` relates. -/
inductive Alike (R : State → State → Prop) : Except Detail State → Except Detail State → Prop where
  | error (d : Detail) : Alike R (.error d) (.error d)
  | ok {u u' : State} (h : R u u') : Alike R (.ok u) (.ok u')

section
variable {R : State → State → Prop} {s s' : State}

theorem Alike.need {c c' : Prop} [Decidable c] [Decidable c'] (hc : c' ↔ c) {d : Detail} {k k' : Except Detail State}
    (hk : Alike R k k') : Alike R (need c d k) (need c' d k') := by
  by_cases h : c
  · rwa [need_pos h, need_pos (hc.mpr h)]
  · rw [need_neg h, need_neg (mt hc.mp h)]
    exact .error d

theorem Alike.needSlots (hm : s'.mem = s.mem) (bs fs : List Nat) {k k' : Except Detail State} (hk : Alike R k k') :
    Alike R (needSlots s bs fs k) (needSlots s' bs fs k') := by
  rw [needSlots_eq, needSlots_eq]
  exact hk.need (by rw [State.nBslot, State.nFslot, hm]; rfl)

theorem Alike.withFrame (hm : s'.mem = s.mem) (f : FSlot) {k k' : Frame → Except Detail State}
    (hk : ∀ P, Alike R (k P) (k' P)) : Alike R (withFrame s f k) (withFrame s' f k') := by
  cases h : s.mem.frame? f with
  | none =>
    rw [withFrame_none h, withFrame_none (hm ▸ h)]
    exact .error _
  | some P =>
    rw [withFrame_some h, withFrame_some (hm ▸ h)]
    exact hk P

theorem Alike.storeFrame (hR : Indistinct R) (h : R s s') (f : FSlot) (r : Except Detail Frame) :
    Alike R (storeFrame s f r) (storeFrame s' f r) := by
  cases r with
  | error d => exact .error d
  | ok Q => exact .ok (hR.setFrame f Q h)

theorem Alike.storeBuf (hR : Indistinct R) (h : R s s') (b : BSlot) (r : Except Detail Buffer) :
    Alike R (storeBuf s b r) (storeBuf s' b r) := by
  cases r with
  | error d => exact .error d
  | ok Y => exact .ok (hR.setBuf b Y h)

/-- A command run from two states it cannot tell apart ends alike. The entropy sequence counts for BORDER only. -/
theorem exec_alike (hR : Indistinct R) (h : R s s') (i : Instr) (hb : (∀ fd fa, i ≠ .border fd fa) ∨ SameEntropy R) :
    ∃ r r', exec i s = conclude s r ∧ exec i s' = conclude s' r' ∧ Alike R r r' := by
  obtain ⟨hp, hm, h0, h1⟩ := hR.reads h
  cases i with
  | decbmp fd ba =>
    refine ⟨_, _, rfl, rfl, .needSlots hm _ _ ?_⟩
    rw [hp, hm]
    exact .storeFrame hR (hR.setBmpLatch _ h) _ _
  | encbmp bd fa td =>
    refine ⟨_, _, rfl, rfl, .needSlots hm _ _ (.withFrame hm _ fun P => ?_)⟩
    rw [hp]
    exact .storeBuf hR h _ _
  | decpcx fd ba =>
    refine ⟨_, _, rfl, rfl, .needSlots hm _ _ ?_⟩
    rw [hp, hm]
    exact .storeFrame hR (hR.setPcxLatch _ h) _ _
  | gray fd fa => exact ⟨_, _, rfl, rfl, .needSlots hm _ _ (.withFrame hm _ fun P => .storeFrame hR h _ _)⟩
  | border fd fa =>
    obtain ⟨hent, hdraw⟩ := hb.resolve_left fun hn => hn fd fa rfl
    refine ⟨_, _, rfl, rfl, .needSlots hm _ _ (.withFrame hm _ fun P => ?_)⟩
    cases borderBytes P.depth with
    | none => exact .error _
    | some nb =>
      rw [hp, hent h]
      exact .need Iff.rfl (.ok (hdraw _ (hR.setFrame _ _ h)))
  | rot90 fd fa => exact ⟨_, _, rfl, rfl, .needSlots hm _ _ (.withFrame hm _ fun P => .storeFrame hR h _ _)⟩
  | scale fd fa =>
    refine ⟨_, _, rfl, rfl, .needSlots hm _ _ (.withFrame hm _ fun P => ?_)⟩
    rw [hp, h0, h1]
    exact .need Iff.rfl (.storeFrame hR h _ _)
  | overlay fd fa fb =>
    refine ⟨_, _, rfl, rfl, .needSlots hm _ _ (.withFrame hm _ fun G => .withFrame hm _ fun L => ?_)⟩
    rw [h0, h1]
    exact .need Iff.rfl (.storeFrame hR h _ _)
  | embed bd ba bb imm3 =>
    refine ⟨_, _, rfl, rfl, .needSlots hm _ _ (.need Iff.rfl ?_)⟩
    rw [hp, hm]
    exact .storeBuf hR h _ _
  | extract bd ba imm3 =>
    refine ⟨_, _, rfl, rfl, .needSlots hm _ _ (.need Iff.rfl ?_)⟩
    rw [hp, hm]
    exact .storeBuf hR h _ _
  | quant fd fa bb =>
    refine ⟨_, _, rfl, rfl, .needSlots hm _ _ (.withFrame hm _ fun P => ?_)⟩
    rw [hp, h0]
    exact .need Iff.rfl (.need Iff.rfl (.need Iff.rfl (.need Iff.rfl
      (.ok (hR.setTables _ _ (hR.setBuf _ _ (hR.setFrame _ _ h)))))))

end

/-- `s'` is `s` with another entropy port. -/
def OtherPort (ent : List Byte) (n : Nat) (s s' : State) : Prop := s' = { s with entropy := ent, entDrawn := n }

theorem otherPort_indistinct (ent : List Byte) (n : Nat) : Indistinct (OtherPort ent n) where
  reads := by rintro s _ rfl; exact ⟨rfl, rfl, rfl, rfl⟩
  setBuf := by rintro s _ b X rfl; rfl
  setFrame := by rintro s _ f P rfl; rfl
  setBmpLatch := by rintro s _ l rfl; rfl
  setPcxLatch := by rintro s _ l rfl; rfl
  setTables := by rintro s _ hist lut rfl; rfl

/-- A commit of a command that is not BORDER takes nothing from the entropy port (42_transform R184). -/
theorem committed_port {i : Instr} {s u : State} (h : Committed i s u) (hi : ∀ fd fa, i ≠ .border fd fa) :
    u.entropy = s.entropy ∧ u.entDrawn = s.entDrawn := by
  cases h with
  | border => exact absurd rfl (hi _ _)
  | _ => exact ⟨rfl, rfl⟩

/-- Settles O26: a command cannot tell two entropy ports apart, and only BORDER writes its own. -/
theorem onlyBorderDependsOnEntropy : Obligations.OnlyBorderDependsOnEntropy := by
  intro i s t ent n hi h
  refine ⟨?_, ?_⟩
  · obtain ⟨r, r', hr, hr', ha⟩ := exec_alike (otherPort_indistinct ent n) (s := s) rfl i (.inl hi)
    rw [hr']
    rw [hr] at h
    cases ha with
    | error d =>
      obtain rfl := Host.Outcome.next.inj h
      rfl
    | ok hu =>
      obtain rfl := Host.Outcome.next.inj h
      obtain rfl := hu
      rfl
  · obtain ⟨d, -, rfl⟩ | ⟨u, hu, rfl⟩ := exec_next h
    · exact ⟨rfl, rfl⟩
    · exact (committed_port hu hi :)

/-- `s` and `s'` hold the same but for STATUS, the error registers and what no command reads or writes: CMD and the
host's side. -/
structure SameData (s s' : State) : Prop where
  params : s'.params = s.params
  mem : s'.mem = s.mem
  arg0 : s'.arg0 = s.arg0
  arg1 : s'.arg1 = s.arg1
  bh : s'.bh = s.bh
  ph : s'.ph = s.ph
  hist : s'.hist = s.hist
  lut : s'.lut = s.lut
  entropy : s'.entropy = s.entropy
  entDrawn : s'.entDrawn = s.entDrawn

theorem sameData_indistinct : Indistinct SameData where
  reads h := ⟨h.params, h.mem, h.arg0, h.arg1⟩
  setBuf b X h := { h with mem := congrArg (·.setBuf b X) h.mem }
  setFrame f P h := { h with mem := congrArg (·.setFrame f P) h.mem }
  setBmpLatch _ h := { h with bh := rfl }
  setPcxLatch _ h := { h with ph := rfl }
  setTables _ _ h := { h with hist := rfl, lut := rfl }

theorem sameData_sameEntropy : SameEntropy SameData where
  ent h := by
    funext k
    rw [State.ent, State.ent, h.entropy, h.entDrawn]
  drawEntropy n h := { h with
    entropy := congrArg (·.drop n) h.entropy
    entDrawn := congrArg (· + n) h.entDrawn }

/-- Settles O27: a command cannot tell apart two states that hold the same data. -/
theorem resultsDoNotDependOnStatus : Obligations.ResultsDoNotDependOnStatus := by
  intro i s t st k d h
  have hs : SameData s { s with status := st, errKind := k, errDetail := d } :=
    ⟨rfl, rfl, rfl, rfl, rfl, rfl, rfl, rfl, rfl, rfl⟩
  obtain ⟨r, r', hr, hr', ha⟩ := exec_alike sameData_indistinct hs i (.inr sameData_sameEntropy)
  rw [hr']
  rw [hr] at h
  cases ha with
  | error e =>
    obtain rfl := Host.Outcome.next.inj h
    exact ⟨_, rfl, rfl, rfl, rfl, rfl, rfl, rfl, rfl, rfl, rfl⟩
  | ok hu =>
    obtain rfl := Host.Outcome.next.inj h
    exact ⟨_, rfl, hu.mem, hu.bh, hu.ph, hu.hist, hu.lut, rfl, rfl, rfl, hu.entropy⟩

end Sys2Proof.Machine

/-! PROOFS. DECBMP loads its header latch (spec 10_state R34, 40_bmp_codec R121). -/

namespace Sys2Proof.Machine

/-- A 32-bit field as a register: its unsigned reading (00_scope R13). -/
theorem toNat_u32le (X : Buffer) (o : Nat) : (BitVec.ofNat 32 (u32le X o)).toNat = u32le X o :=
  Nat.mod_eq_of_lt (u32le_lt X o)

/-- A 32-bit field as a register: its signed reading (R13). -/
theorem toInt_u32le (X : Buffer) (o : Nat) : (BitVec.ofNat 32 (u32le X o)).toInt = i32le X o := by
  rw [BitVec.toInt_eq_toNat_cond, toNat_u32le, i32le]
  split <;> split <;> omega

/-- A 16-bit field as a register (R13). -/
theorem toNat_u16le (X : Buffer) (o : Nat) : (BitVec.ofNat 32 (u16le X o)).toNat = u16le X o :=
  Nat.mod_eq_of_lt ((u16le_lt X o).trans (by decide))

/-- DECBMP of an accepted file answers its frame and its latch (40_bmp_codec R121). -/
theorem exec_decbmp_accepted {s : State} {fd ba : Nat} {X : Buffer} {d : Depth} (hf : fd < s.nFslot)
    (hX : s.mem.buf? ba = some X) (h : BmpAccepted s.params X d) :
    exec (.decbmp fd ba) s = .next (succeed ((s.setBmpLatch (bmpLatchOf X)).setFrame fd (bmpFrame X d))) :=
  exec_of_committed (.decbmp hf hX (decodeBmp_ok.mpr ⟨d, h, rfl⟩))

/-- Settles O31: each register holds its raw field. -/
theorem decbmpLatchesTheHeaderFields : Obligations.DecbmpLatchesTheHeaderFields := by
  intro s fd ba X d hf hX h
  refine ⟨_, exec_decbmp_accepted hf hX h, rfl, ?_, toNat_u16le .., toNat_u32le .., toNat_u32le .., toNat_u32le ..,
    toInt_u32le .., toInt_u32le .., toNat_u16le .., ?_, toNat_u32le .., toNat_u32le .., rfl⟩
  · obtain ⟨⟨hB, hM⟩, -⟩ := h
    calc (BitVec.ofNat 32 (u16le X 0)).toNat = u16le X 0 := toNat_u16le ..
      _ = 0x4D42 := by simp [u16le, leRead, hB, hM]
  · obtain ⟨-, -, hcomp, -⟩ := h
    exact (toNat_u32le ..).trans hcomp

end Sys2Proof.Machine

/-! PROOFS. DECPCX reads run-length coded rows (spec 41_pcx_codec R151, R156 to R160, 30_encoding R107). -/

namespace Sys2Proof.Machine

/-! ### One code, the codes of a row, the rows -/

/-- A decoder result with the values `p` in front of those produced. -/
def prepend (p : Buffer) (r : Except Detail (Buffer × Buffer)) : Except Detail (Buffer × Buffer) :=
  r.map fun x => (p ++ x.1, x.2)

@[simp] theorem prepend_ok (p out left : Buffer) : prepend p (.ok (out, left)) = .ok (p ++ out, left) := rfl
@[simp] theorem prepend_error (p : Buffer) (d : Detail) : prepend p (.error d) = .error d := rfl
@[simp] theorem prepend_nil (r : Except Detail (Buffer × Buffer)) : prepend [] r = r := by cases r <;> rfl
@[simp] theorem prepend_prepend (p q : Buffer) (r : Except Detail (Buffer × Buffer)) :
    prepend p (prepend q r) = prepend (p ++ q) r := by
  rcases r with d | ⟨out, left⟩
  · rfl
  · simp

/-- While values are wanted, a legal code gives its values and the decoding goes on behind it (30_encoding R107). -/
theorem rleProduce_code {n : Nat} {c : PcxCode} (hc : c.legal = true) (hn : 0 < n) (R : Buffer) :
    rleProduce n (c.bytes ++ R) = prepend c.pixels (rleProduce (n - c.pixels.length) R) := by
  obtain ⟨n, rfl⟩ := Nat.exists_eq_add_one_of_ne_zero hn.ne'
  cases c with
  | literal v =>
    have hle : v.toNat ≤ 0xBF := by simpa [PcxCode.legal] using hc
    have hm : isRunMarker v = false := by
      simp only [isRunMarker, bits, beq_eq_false_iff_ne]
      omega
    simp only [PcxCode.bytes, PcxCode.pixels, List.singleton_append, rleProduce_literal hm,
      List.length_singleton, Nat.add_sub_cancel]
    rcases rleProduce n R with d | ⟨out, left⟩ <;> simp
  | run k v =>
    have hle : k ≤ 63 := by simpa [PcxCode.legal] using hc
    have hb : (BitVec.ofNat 8 (0xC0 + k)).toNat = 0xC0 + k := Nat.mod_eq_of_lt (by omega)
    have hm : isRunMarker (BitVec.ofNat 8 (0xC0 + k)) = true := by
      simp only [isRunMarker, bits, hb, beq_iff_eq]
      omega
    have hk : bits (BitVec.ofNat 8 (0xC0 + k)).toNat 5 0 = k := by
      simp only [bits, hb]
      omega
    simp only [PcxCode.bytes, PcxCode.pixels, List.cons_append, List.nil_append, rleProduce_run hm, hk,
      List.length_replicate]
    rcases rleProduce (n + 1 - k) R with d | ⟨out, left⟩ <;> simp

@[simp] theorem rowPixels_cons (c : PcxCode) (cs : List PcxCode) : rowPixels (c :: cs) = c.pixels ++ rowPixels cs := rfl

@[simp] theorem rowPixels_concat (cs : List PcxCode) (c : PcxCode) :
    rowPixels (cs ++ [c]) = rowPixels cs ++ c.pixels := by simp [rowPixels]

/-- Legal codes that give fewer values than are wanted are all read (41_pcx_codec R157, R158). -/
theorem rleProduce_codes {n : Nat} {cs : List PcxCode} (hc : ∀ c ∈ cs, c.legal = true)
    (hn : (rowPixels cs).length < n) (R : Buffer) :
    rleProduce n (cs.flatMap PcxCode.bytes ++ R) = prepend (rowPixels cs) (rleProduce (n - (rowPixels cs).length) R) := by
  induction cs generalizing n with
  | nil => simp [rowPixels]
  | cons c cs ih =>
    obtain ⟨hc0, hcs⟩ := List.forall_mem_cons.mp hc
    rw [rowPixels_cons, List.length_append] at hn
    rw [List.flatMap_cons, List.append_assoc, rleProduce_code hc0 (by omega), ih hcs (by omega), prepend_prepend,
      rowPixels_cons, List.length_append, Nat.sub_sub]

/-- The codes of a complete row give its values, the surplus included, and stop behind it (41_pcx_codec R158). -/
theorem rleProduce_row {bpl : Nat} {row : List PcxCode} (h : rowComplete bpl row) (R : Buffer) :
    rleProduce bpl (row.flatMap PcxCode.bytes ++ R) = .ok (rowPixels row, R) := by
  obtain ⟨hlegal, henough, hfewer⟩ := h
  rcases List.eq_nil_or_concat' row with rfl | ⟨cs, c, rfl⟩
  · simp [rowPixels] at henough hfewer
    omega
  · rw [List.dropLast_concat] at hfewer
    rw [rowPixels_concat, List.length_append] at henough
    have hdone : bpl - (rowPixels cs).length - c.pixels.length = 0 := by omega
    rw [List.flatMap_append, List.append_assoc, rleProduce_codes (fun c' h => hlegal c' (by simp [h])) hfewer,
      List.flatMap_singleton, rleProduce_code (hlegal c (by simp)) (by omega), hdone]
    simp

/-- Complete rows decode to the first `w` values of each (41_pcx_codec R158). -/
theorem rleRows_codes {w bpl : Nat} {rows : List (List PcxCode)} (h : ∀ row ∈ rows, rowComplete bpl row) (R : Buffer) :
    rleRows w bpl rows.length ((rows.flatMap fun row => row.flatMap PcxCode.bytes) ++ R) =
      .ok (rows.flatMap fun row => (rowPixels row).take w) := by
  induction rows with
  | nil => rfl
  | cons row rows ih =>
    obtain ⟨hrow, hrows⟩ := List.forall_mem_cons.mp h
    simp only [List.length_cons, List.flatMap_cons, List.append_assoc, rleRows, rleProduce_row hrow, ih hrows]

/-! ### The command -/

/-- The latch of an accepted file (41_pcx_codec R151, 10_state R35). -/
theorem pcxLatchOf_accepted {p : Params} {X : Buffer} (h : PcxAccepted p X) : pcxLatchOf X =
    { valid := true, id := 0x0A, version := BitVec.ofNat 32 (byteAt X 1).toNat, encoding := 1, bpp := 8,
      xMin := BitVec.ofNat 32 (u16le X 4), yMin := BitVec.ofNat 32 (u16le X 6),
      xMax := BitVec.ofNat 32 (u16le X 8), yMax := BitVec.ofNat 32 (u16le X 10), planes := 1,
      bpl := BitVec.ofNat 32 (u16le X 66) } := by
  obtain ⟨hid, -, henc, hbpp, hplanes, -⟩ := h
  simp [pcxLatchOf, hid, henc, hbpp, hplanes]

/-- Settles O37: the region decodes row by row; the frame and the latch are those of the accepted file. -/
theorem decpcxReadsEveryRow : Obligations.DecpcxReadsEveryRow := by
  intro s fd ba X rows rest W H m hf hX hacc hW hH hm hlen hrows hregion
  have hdec : rleRows (u16le X 8 - u16le X 4 + 1) (u16le X 66) (u16le X 10 - u16le X 6 + 1) (pcxRegion X) =
      .ok (rows.flatMap fun row => (rowPixels row).take W) := by
    rw [← hW, ← hH, ← hlen, pcxRegion, ← hm, hregion]
    exact rleRows_codes hrows rest
  have hframe := decodePcx_ok.mpr ⟨hacc, _, hdec, rfl⟩
  have ⟨_, _, _, _, _, ⟨hx, hy⟩, _⟩ := hacc
  refine ⟨_, _, exec_of_committed (.decpcx hf hX hframe), ?_, ?_, rfl, ?_, length_tab .., fun i hi => ?_,
    pcxLatchOf_accepted hacc⟩
  · exact (pcxWidth_toNat hx).trans hW.symm
  · exact (pcxHeight_toNat hy).trans hH.symm
  · exact List.map_flatMap ..
  · rw [hm]
    exact getElem?_tab_lt _ hi

end Sys2Proof.Machine

/-! PROOFS. BORDER adds its margin (spec 42_transform R180 to R183, 70 R306). -/

namespace Sys2Proof.Machine

/-- A margin sample is its bytes, low byte first (42_transform R182). -/
theorem entSample_eq_sum (ent : Nat → Byte) (k nb : Nat) :
    entSample ent k nb = ((List.range nb).map fun j => (ent (k + j)).toNat * 2 ^ (8 * j)).sum := by
  induction nb generalizing k with
  | zero => rfl
  | succ nb ih =>
    have hshift : ∀ j, (ent (k + (j + 1))).toNat * 2 ^ (8 * (j + 1)) =
        256 * ((ent (k + 1 + j)).toNat * 2 ^ (8 * j)) := fun j => by
      rw [Nat.add_right_comm k 1 j, Nat.add_assoc k j 1, Nat.mul_add, Nat.pow_add]
      ring
    rw [entSample, ih, List.range_succ_eq_map]
    simp [Function.comp_def, hshift, List.sum_map_mul_left]

/-- The margin pixels before address `n` of a scan of all addresses in order (R182). -/
theorem marginBefore_range (P : Frame) (w' : Nat) {n N : Nat} (h : n ≤ N) :
    marginBefore P w' (List.range N) n =
      (List.range n).countP fun a => ¬ (15 ≤ a % w' ∧ a % w' < 15 + P.w ∧ 15 ≤ a / w' ∧ a / w' < 15 + P.h) := by
  rw [marginBefore, List.take_range, Nat.min_eq_left h]
  congr 1
  funext a
  rw [Bool.eq_iff_iff, decide_eq_true_iff, ← borderInside_iff, Bool.not_eq_true', Bool.not_eq_true]

/-- The bytes taken are those of the margin's pixels (R180, 70 R306). -/
theorem borderDraw_eq (P : Frame) (nb : Nat) : borderDraw P nb = nb * (30 * P.w + 30 * P.h + 900) := by
  have harea : (P.w + 2 * Config.borderW) * (P.h + 2 * Config.borderW) =
      (30 * P.w + 30 * P.h + 900) + P.w * P.h := by
    simp only [Config.borderW]
    ring
  rw [borderDraw, harea, Nat.add_sub_cancel]

/-- A pixel of the bordered frame: copied inside, made of the next entropy bytes in the margin (R180 to R182). -/
theorem px_borderFrame (P : Frame) (nb : Nat) (ent : Nat → Byte) {x y : Nat} (hx : x < P.w + 30) (hy : y < P.h + 30) :
    (borderFrame P nb ent).px x y =
      if borderInside P x y then P.px (x - 15) (y - 15)
      else entSample ent (nb * ((List.range (y * (P.w + 30) + x)).countP fun a =>
        ¬ (15 ≤ a % (P.w + 30) ∧ a % (P.w + 30) < 15 + P.w ∧ 15 ≤ a / (P.w + 30) ∧ a / (P.w + 30) < 15 + P.h))) nb := by
  have hget : (List.range ((P.w + 30) * (P.h + 30)))[y * (P.w + 30) + x]? = some (y * (P.w + 30) + x) :=
    List.getElem?_range (addr_lt hx hy)
  rw [← marginBefore_range P _ (addr_lt hx hy).le]
  simp only [Frame.px, borderFrame, Config.borderW, Nat.reduceMul, List.getD_eq_getElem?_getD, getElem?_borderScan,
    hget, addr_mod hx, addr_div hx, Nat.zero_add, Option.map_some, Option.getD_some]

/-- Settles O42: BORDER commits the bordered frame, read pixel by pixel. -/
theorem borderAddsTheMargin : Obligations.BorderAddsTheMargin := by
  intro s fd fa nb P hf _ hp _ hd hfit
  have hnb : borderBytes P.depth = some nb := by
    obtain ⟨h, rfl⟩ | ⟨h, rfl⟩ | ⟨h, rfl⟩ := hd <;> rw [h] <;> rfl
  refine ⟨borderFrame P nb s.ent, ?_, rfl, rfl, rfl, rfl, ?_, fun x y hx hy => ?_, fun x y hx hy hout k hk => ?_⟩
  · rw [← borderDraw_eq]
    exact exec_of_committed (.border hf hp hnb hfit)
  · exact (length_borderScan ..).trans List.length_range
  · have hin : borderInside P (x + 15) (y + 15) = true := borderInside_iff.mpr (by omega)
    rw [px_borderFrame P nb s.ent (by omega) (by omega), if_pos hin, Nat.add_sub_cancel, Nat.add_sub_cancel]
  · subst hk
    exact (px_borderFrame P nb s.ent hx hy).trans
      ((if_neg (mt borderInside_iff.mp hout)).trans (entSample_eq_sum ..))

end Sys2Proof.Machine

/-! PROOFS. Command words: decoding, encoding and the opcode table (spec 30_encoding R91 to R98). -/

namespace Sys2Proof

/-! ### The fields of a word and of a command -/

/-- The fields of a command word but `ZERO` (30_encoding R91). -/
structure Fields where
  opc : Nat
  rd : Nat
  ra : Nat
  rb : Nat
  imm3 : Nat

/-- The fields of the word `w`. -/
def fieldsOf (w : Word) : Fields :=
  ⟨bits w.toNat 3 0, bits w.toNat 7 4, bits w.toNat 11 8, bits w.toNat 15 12, bits w.toNat 18 16⟩

/-- The fields of the command `i`, 0 where it uses none (R93, R94). -/
def Instr.fields : Instr → Fields
  | .decbmp fd ba => ⟨1, fd, ba, 0, 0⟩
  | .encbmp bd fa td => ⟨2, bd, fa, 0, td.toNat⟩
  | .decpcx fd ba => ⟨3, fd, ba, 0, 0⟩
  | .gray fd fa => ⟨4, fd, fa, 0, 0⟩
  | .border fd fa => ⟨5, fd, fa, 0, 0⟩
  | .rot90 fd fa => ⟨6, fd, fa, 0, 0⟩
  | .scale fd fa => ⟨7, fd, fa, 0, 0⟩
  | .overlay fd fa fb => ⟨8, fd, fa, fb, 0⟩
  | .embed bd ba bb imm3 => ⟨9, bd, ba, bb, imm3⟩
  | .extract bd ba imm3 => ⟨10, bd, ba, 0, imm3⟩
  | .quant fd fa bb => ⟨11, fd, fa, bb, 0⟩

/-- Every field fits its bits (R91, R92). -/
abbrev Fields.fit (f : Fields) : Prop := f.opc < 16 ∧ f.rd < 16 ∧ f.ra < 16 ∧ f.rb < 16 ∧ f.imm3 < 8

/-- The word of these fields, `ZERO` = 0. -/
def Fields.word (f : Fields) : Word := assemble f.opc f.rd f.ra f.rb f.imm3

/-- The command of these fields, if they stand for one. -/
def Fields.command? (f : Fields) : Option Instr := commandOf f.opc f.rd f.ra f.rb f.imm3

theorem fieldsOf_fit (w : Word) : (fieldsOf w).fit :=
  ⟨Machine.bits_lt .., Machine.bits_lt .., Machine.bits_lt .., Machine.bits_lt .., Machine.bits_lt ..⟩

theorem fieldsOf_word {f : Fields} (h : f.fit) : fieldsOf f.word = f ∧ bits f.word.toNat 31 19 = 0 := by
  obtain ⟨hopc, hrd, hra, hrb, himm⟩ := h
  obtain ⟨opc, rd, ra, rb, imm3⟩ := f
  simp only [fieldsOf, Fields.word, assemble, BitVec.toNat_ofNat, bits, Fields.mk.injEq] at *
  omega

theorem word_fieldsOf {w : Word} (h : bits w.toNat 31 19 = 0) : (fieldsOf w).word = w := by
  have hw := w.isLt
  rw [← BitVec.toNat_inj]
  simp only [fieldsOf, Fields.word, assemble, BitVec.toNat_ofNat, bits] at h ⊢
  omega

theorem encode_eq_word (i : Instr) : encode i = i.fields.word := by cases i <;> rfl

theorem wf_iff_fields_fit (i : Instr) : i.wf = true ↔ i.fields.fit := by
  cases i
  case encbmp bd fa td => cases td <;> simp [Instr.wf, fitsSlotField, Fields.fit, Instr.fields]
  all_goals simp [Instr.wf, fitsSlotField, fitsImm3, Fields.fit, Instr.fields, and_assoc]

theorem command?_fields (i : Instr) : i.fields.command? = some i := by
  cases i
  case encbmp bd fa td => cases td <;> simp [Fields.command?, Instr.fields, commandOf, bits]
  all_goals rfl

/-- Only its own fields stand for a command (R93, R96). -/
theorem fields_of_command? {f : Fields} {i : Instr} (hf : f.fit) (h : f.command? = some i) : i.fields = f := by
  obtain ⟨-, -, -, -, himm⟩ := hf
  obtain ⟨opc, rd, ra, rb, imm3⟩ := f
  simp only [Fields.command?, commandOf] at himm h
  split at h
  case h_2 =>
    obtain ⟨⟨rfl, hhigh⟩, hcmd⟩ := Option.ite_none_right_eq_some.mp h
    have htd : (bits imm3 0 0 == 1).toNat = imm3 :=
      (by decide : ∀ n < 8, bits n 2 1 = 0 → (bits n 0 0 == 1).toNat = n) _ himm hhigh
    rw [← Option.some.inj hcmd, Instr.fields, htd]
  case h_12 => exact nomatch h
  all_goals
    simp only [Option.ite_none_right_eq_some, Option.some.injEq] at h
    grind [Instr.fields]

/-! ### Decoding -/

/-- No command has an opcode of R95. -/
theorem opcode_of_command? {f : Fields} {i : Instr} (hf : f.fit) (h : f.command? = some i) :
    opcodeReserved f.opc = false := by
  rw [← fields_of_command? hf h]
  cases i <;> rfl

section
variable {w : Word}

/-! The decoder's tests, in order (60_exceptions R267). -/

theorem decode_of_reservedOpcode (ho : opcodeReserved (fieldsOf w).opc = true) : decode w = .error .reservedOpcode :=
  if_pos ho

theorem decode_of_zero_ne (ho : ¬ opcodeReserved (fieldsOf w).opc = true) (hz : bits w.toNat 31 19 ≠ 0) :
    decode w = .error .reservedField := (if_neg ho).trans (if_pos hz)

theorem decode_eq_command? (ho : ¬ opcodeReserved (fieldsOf w).opc = true) (hz : bits w.toNat 31 19 = 0) :
    decode w = (fieldsOf w).command?.elim (.error .reservedField) .ok := by
  refine (if_neg ho).trans ((if_neg (not_not_intro hz)).trans ?_)
  show _ = Option.elim (commandOf (bits w.toNat 3 0) (bits w.toNat 7 4) (bits w.toNat 11 8) (bits w.toNat 15 12)
    (bits w.toNat 18 16)) _ _
  cases commandOf (bits w.toNat 3 0) (bits w.toNat 7 4) (bits w.toNat 11 8) (bits w.toNat 15 12)
    (bits w.toNat 18 16) <;> rfl

end

/-- A word decodes to the command of its fields when `ZERO` = 0 (R93 to R96). -/
theorem decode_eq_ok_iff {w : Word} {i : Instr} :
    decode w = .ok i ↔ bits w.toNat 31 19 = 0 ∧ (fieldsOf w).command? = some i := by
  by_cases ho : opcodeReserved (fieldsOf w).opc = true
  · have hc : (fieldsOf w).command? ≠ some i := fun h => by simp [opcode_of_command? (fieldsOf_fit w) h] at ho
    simp [decode_of_reservedOpcode ho, hc]
  by_cases hz : bits w.toNat 31 19 = 0
  · rw [decode_eq_command? ho hz]
    cases (fieldsOf w).command? <;> simp [hz]
  · simp [decode_of_zero_ne ho hz, hz]

/-- The decoder reports a reserved opcode for the opcodes 0 and 12 to 15 only (R95). -/
theorem decode_eq_reservedOpcode_iff {w : Word} :
    decode w = .error .reservedOpcode ↔ w.toNat % 16 = 0 ∨ 12 ≤ w.toNat % 16 := by
  have hopc : opcodeReserved (fieldsOf w).opc = true ↔ w.toNat % 16 = 0 ∨ 12 ≤ w.toNat % 16 := by
    simp only [opcodeReserved, fieldsOf, bits, pow_zero, Nat.div_one, Nat.reduceAdd, Nat.sub_zero, Nat.reducePow,
      Bool.or_eq_true, beq_iff_eq, Bool.and_eq_true, decide_eq_true_eq]
    omega
  rw [← hopc]
  by_cases ho : opcodeReserved (fieldsOf w).opc = true
  · simp [decode_of_reservedOpcode ho, ho]
  by_cases hz : bits w.toNat 31 19 = 0
  · rw [decode_eq_command? ho hz]
    cases (fieldsOf w).command? <;> simp [ho]
  · simp [decode_of_zero_ne ho hz, ho]

/-- A word decodes to a command exactly when it is the word of that command's fields, which fit (R91, R93). -/
theorem decode_eq_ok_iff_word {w : Word} {i : Instr} : decode w = .ok i ↔ i.fields.fit ∧ i.fields.word = w := by
  rw [decode_eq_ok_iff]
  constructor
  · rintro ⟨hz, hc⟩
    rw [fields_of_command? (fieldsOf_fit w) hc]
    exact ⟨fieldsOf_fit w, word_fieldsOf hz⟩
  · rintro ⟨hf, rfl⟩
    obtain ⟨hfields, hz⟩ := fieldsOf_word hf
    rw [hfields]
    exact ⟨hz, command?_fields i⟩

/-- Settles O1: a command that fits is decoded from the word of its fields. -/
theorem decodeOfEncodeIsTheCommand : Obligations.DecodeOfEncodeIsTheCommand := fun i h =>
  decode_eq_ok_iff_word.mpr ⟨(wf_iff_fields_fit i).mp h, (encode_eq_word i).symm⟩

/-- Settles O2: the same, read the other way. -/
theorem encodeOfDecodeIsTheWord : Obligations.EncodeOfDecodeIsTheWord := fun w i h => by
  obtain ⟨hfit, hword⟩ := decode_eq_ok_iff_word.mp h
  exact ⟨(wf_iff_fields_fit i).mpr hfit, (encode_eq_word i).trans hword⟩

/-- Settles O4: each word is the encoding of its command. -/
theorem workedEncodingsDecode : Obligations.WorkedEncodingsDecode := by
  refine ⟨?_, ?_, ?_, ?_, ?_, ?_, ?_, ?_, ?_, ?_, ?_, ?_⟩ <;> exact decode_eq_ok_iff_word.mpr ⟨by decide, rfl⟩

/-! ### The opcode table -/

/-- A masked word is a value exactly when each masked field is that field of the value. -/
theorem and_eq_iff_fields {w m v : Word} : w &&& m = v ↔
    (fieldsOf w).opc &&& bits m.toNat 3 0 = bits v.toNat 3 0 ∧ (fieldsOf w).rd &&& bits m.toNat 7 4 = bits v.toNat 7 4 ∧
    (fieldsOf w).ra &&& bits m.toNat 11 8 = bits v.toNat 11 8 ∧
    (fieldsOf w).rb &&& bits m.toNat 15 12 = bits v.toNat 15 12 ∧
    (fieldsOf w).imm3 &&& bits m.toNat 18 16 = bits v.toNat 18 16 ∧
    bits w.toNat 31 19 &&& bits m.toNat 31 19 = bits v.toNat 31 19 := by
  have hfield (hi lo : Nat) : bits w.toNat hi lo &&& bits m.toNat hi lo = bits (w &&& m).toNat hi lo := by
    simp only [bits, BitVec.toNat_and, Nat.and_div_two_pow, Nat.and_mod_two_pow]
  have hv := v.isLt
  have hwm := (w &&& m).isLt
  simp only [fieldsOf, hfield, ← BitVec.toNat_inj]
  simp only [bits]
  omega

/-- The fields that stand for a command (R93, R96). -/
theorem command?_isSome_iff (f : Fields) : (∃ i, f.command? = some i) ↔
    ((f.opc = 1 ∨ f.opc = 3 ∨ f.opc = 4 ∨ f.opc = 5 ∨ f.opc = 6 ∨ f.opc = 7) ∧ f.rb = 0 ∧ f.imm3 = 0) ∨
    (f.opc = 2 ∧ f.rb = 0 ∧ bits f.imm3 2 1 = 0) ∨ ((f.opc = 8 ∨ f.opc = 11) ∧ f.imm3 = 0) ∨ f.opc = 9 ∨
    (f.opc = 10 ∧ f.rb = 0) := by
  unfold Fields.command? commandOf
  split <;> simp_all

/-- A word matches a row of the table exactly when the fields it does not use are 0 (R93, opcode_table.json). -/
theorem matches_row_iff (w : Word) : (∃ row ∈ Machine.opcodeTable, w &&& row.2 = row.1) ↔
    bits w.toNat 31 19 = 0 ∧ ∃ i, (fieldsOf w).command? = some i := by
  obtain ⟨hopc, -, -, hrb, himm⟩ := fieldsOf_fit w
  have hopc := Nat.and_two_pow_sub_one_of_lt_two_pow (n := 4) hopc
  have hrb := Nat.and_two_pow_sub_one_of_lt_two_pow (n := 4) hrb
  have hhigh := (by decide : ∀ n < 8, n &&& 6 = 0 ↔ bits n 2 1 = 0) _ himm
  have himm := Nat.and_two_pow_sub_one_of_lt_two_pow (n := 3) himm
  have hzero := Nat.and_two_pow_sub_one_of_lt_two_pow (n := 13) (Machine.bits_lt w.toNat 31 19)
  simp only [Machine.opcodeTable, List.exists_mem_cons_iff, and_eq_iff_fields, command?_isSome_iff, ← hhigh]
  generalize fieldsOf w = f, bits w.toNat 31 19 = z at *
  simp only [bits, Nat.reducePow, Nat.add_one_sub_one, BitVec.ofNat_eq_ofNat, BitVec.toNat_ofNat, Nat.reduceMod,
    pow_zero, Nat.div_one, Nat.reduceAdd, tsub_zero, Nat.one_mod, Order.lt_one_iff, Nat.div_self, Nat.reduceDiv,
    Nat.reduceSub, Nat.and_zero, Nat.zero_mod, Nat.mod_succ, true_and, List.not_mem_nil, false_and, exists_const,
    or_false] at hopc hrb himm hzero ⊢
  rw [hopc, hrb, himm, hzero]
  constructor
  · grind
  · grind

/-- A word that matches a row has the row's opcode (R93). -/
theorem opcode_of_matches {w : Word} {row : Word × Word} (hrow : row ∈ Machine.opcodeTable) (h : w &&& row.2 = row.1) :
    bits row.1.toNat 3 0 = (fieldsOf w).opc := by
  have hmask : ∀ row ∈ Machine.opcodeTable, bits row.2.toNat 3 0 = 15 := by simp [Machine.opcodeTable, bits]
  obtain ⟨hopc, -⟩ := and_eq_iff_fields.mp h
  rw [← hopc, hmask row hrow]
  exact Nat.and_two_pow_sub_one_of_lt_two_pow (n := 4) (fieldsOf_fit w).1

/-- A word decodes to some command exactly when it matches a row (R93, R96). -/
theorem decodes_iff_matches_row (w : Word) :
    (∃ i, decode w = .ok i) ↔ ∃ row ∈ Machine.opcodeTable, w &&& row.2 = row.1 := by
  simp only [matches_row_iff, decode_eq_ok_iff, exists_and_left]

/-- Settles O3: a row is found by the fields, and two rows of one word have its opcode. -/
theorem decodingFollowsTheOpcodeTable : Obligations.DecodingFollowsTheOpcodeTable := by
  have hdistinct : (Machine.opcodeTable.map fun row => bits row.1.toNat 3 0).Nodup := by
    simp [Machine.opcodeTable, bits]
  exact fun w => ⟨decodes_iff_matches_row w, fun r hr r' hr' h h' =>
    List.inj_on_of_nodup_map hdistinct hr hr' ((opcode_of_matches hr h).trans (opcode_of_matches hr' h').symm)⟩

end Sys2Proof

namespace Sys2Proof.Machine

/-! ### Words that encode no command -/

/-- A word that encodes no command ends at once with the error entry of its cause (R95, R96). -/
theorem step_of_decode_error {s : State} {w : Word} {rest : List HostAction} {e : DecodeError}
    (hp : s.pending = .writeReg 0 w :: rest) (hb : s.status.busy = false) (hd : decode w = .error e) :
    step s = .next (raise (detailOfDecodeError e) (startCommand w { s with pending := rest })) := by
  rw [step_of_idle hp hb (hostWriteReg 0 w) fun _ => rfl, hostWriteReg, if_pos rfl, runCommand, hd]

/-- Settles O6: the decoder's first test fails. -/
theorem reservedOpcodeEndsAtOnce : Obligations.ReservedOpcodeEndsAtOnce := fun _ _ _ hp hb ho =>
  ⟨step_of_decode_error hp hb (decode_eq_reservedOpcode_iff.mpr ho), rfl, rfl⟩

/-- Settles O7: the word decodes to no command, and not for its opcode. -/
theorem reservedFieldEndsAtOnce : Obligations.ReservedFieldEndsAtOnce := by
  intro s w rest hp hb hlo hhi hrow
  have hd : decode w = .error .reservedField := by
    rcases hd : decode w with (_ | _) | i
    · have := decode_eq_reservedOpcode_iff.mp hd
      omega
    · rfl
    · obtain ⟨row, hmem, hmatch⟩ := (decodes_iff_matches_row w).mp ⟨i, hd⟩
      exact absurd hmatch (hrow row hmem)
  exact ⟨step_of_decode_error hp hb hd, rfl⟩

end Sys2Proof.Machine

/-! PROOFS. DECBMP reads every pixel (spec 40_bmp_codec R121, R125 to R127, 30_encoding R103 to R105). -/

namespace Sys2Proof.Machine

/-- A field of one bit. -/
theorem bits_self (v i : Nat) : bits v i i = (v.testBit i).toNat := by
  rw [bits, Nat.add_sub_cancel_left, Nat.pow_one, Nat.toNat_testBit]

/-- The samples of a row as a reader of the file finds them (30_encoding R105). -/
theorem bmpSample_eq (X : Buffer) (rb x : Nat) :
    bmpSample X rb x .d1 = ((byteAt X (rb + x / 8)).getLsbD (7 - x % 8)).toNat ∧
    (bmpSample X rb x .d4 =
      if x % 2 = 0 then (byteAt X (rb + x / 2)).toNat / 16 else (byteAt X (rb + x / 2)).toNat % 16) ∧
    bmpSample X rb x .d8 = (byteAt X (rb + x)).toNat ∧
    bmpSample X rb x .d24 = (byteAt X (rb + 3 * x)).toNat + 2 ^ 8 * (byteAt X (rb + 3 * x + 1)).toNat +
      2 ^ 16 * (byteAt X (rb + 3 * x + 2)).toNat ∧
    bmpSample X rb x .d32 = u32le X (rb + 4 * x) := by
  refine ⟨bits_self .., ?_, rfl, rfl, rfl⟩
  have hlt : (byteAt X (rb + x / 2)).toNat < 256 := (byteAt X (rb + x / 2)).isLt
  simp only [bmpSample, bits]
  split <;> omega

/-- The palette length of a file (40_bmp_codec R125). -/
theorem bmpPalLen_eq (d : Depth) (palc : Nat) :
    bmpPalLen d palc = if d.bits ≤ 8 then (if palc = 0 then 2 ^ d.bits else palc) else 0 := by
  simp [bmpPalLen, Depth.indexed]

theorem bmpFrame_w (X : Buffer) (d : Depth) : (bmpFrame X d).w = (i32le X 18).toNat := rfl
theorem bmpFrame_h (X : Buffer) (d : Depth) : (bmpFrame X d).h = (i32le X 22).natAbs := rfl
theorem bmpFrame_palLen (X : Buffer) (d : Depth) : (bmpFrame X d).palLen = bmpPalLen d (u32le X 46) := length_tab ..

/-- Settles O30: the committed frame, field by field; its samples by `bmpFrame_px` and the depth. -/
theorem decbmpReadsEveryPixel : Obligations.DecbmpReadsEveryPixel := by
  intro s fd ba X d hf hX h
  have ⟨_, _, _, _, ⟨hw, _⟩, _⟩ := h
  refine ⟨_, _, exec_decbmp_accepted hf hX h, Int.toNat_of_nonneg hw.le, Int.natCast_natAbs _, rfl, by simp [bmpFrame],
    (bmpFrame_palLen ..).trans (bmpPalLen_eq ..), fun i hi => getElem?_tab_lt _ (bmpFrame_palLen X d ▸ hi),
    fun x y hx hy rb hrb => ?_⟩
  have hpx : (bmpFrame X d).px x y = bmpSample X rb x d := by
    rw [bmpFrame_px hx hy, bmpFileRow, stride, hrb, bmpFrame_w, bmpFrame_h]
  obtain ⟨h1, h4, h8, h24, h32⟩ := bmpSample_eq X rb x
  rw [hpx]
  exact ⟨fun hd => hd ▸ h1, fun hd => hd ▸ h4, fun hd => hd ▸ h8, fun hd => hd ▸ h24, fun hd => hd ▸ h32⟩

end Sys2Proof.Machine

/-! PROOFS. The file ENCBMP writes (spec 40_bmp_codec R135 to R139, 30_encoding R102 to R105). -/

namespace Sys2Proof.Machine

/-! ### Fields of a file made of parts -/

/-- A field that ends within the first part is read there. -/
theorem leRead_append_left {X : Buffer} {o n : Nat} (Y : Buffer) (h : o + n ≤ X.length) :
    leRead (X ++ Y) o n = leRead X o n :=
  leRead_congr fun _ hk => byteAt_append_left (by omega)

/-- A field behind the first part is read in the second. -/
theorem leRead_append_right {X : Buffer} {o : Nat} (Y : Buffer) (n : Nat) (h : X.length ≤ o) :
    leRead (X ++ Y) o n = leRead Y (o - X.length) n :=
  leRead_congr fun k _ => by rw [byteAt_append_right (by omega), Nat.sub_add_comm h]

/-- A field behind the first byte is read in the others. -/
theorem leRead_cons (c : Byte) (X : Buffer) (o n : Nat) : leRead (c :: X) (o + 1) n = leRead X o n :=
  leRead_append_right (X := [c]) X n (Nat.le_add_left 1 o)

/-- A field that begins the file is read back. -/
theorem leRead_leBytes_append (n v : Nat) (Y : Buffer) : leRead (leBytes n v ++ Y) 0 n = v % 256 ^ n :=
  leRead_leBytes [] Y n v

/-- A signed field is the two's complement of what stands in it. -/
theorem i32le_of_u32le {X : Buffer} {o : Nat} {v : Int} (h : -(2 ^ 31) ≤ v) (h' : v < 2 ^ 31)
    (hu : u32le X o = (v % 2 ^ 32).toNat) : i32le X o = v := by
  unfold i32le
  split <;> omega

/-- Blocks of one length stand at multiples of it. -/
theorem getElem?_flatMap_block {α β : Type} {f : α → List β} {n : Nat} (hf : ∀ a, (f a).length = n) {l : List α}
    {i k : Nat} {a : α} (hi : l[i]? = some a) (hk : k < n) : (l.flatMap f)[n * i + k]? = (f a)[k]? := by
  induction l generalizing i with
  | nil => simp at hi
  | cons b l ih =>
    have hb := hf b
    rw [List.flatMap_cons]
    cases i with
    | zero =>
      obtain rfl : b = a := by simpa using hi
      rw [Nat.mul_zero, Nat.zero_add, List.getElem?_append_left (by omega)]
    | succ i =>
      rw [List.getElem?_append_right (by rw [hb, Nat.mul_succ]; omega), hb, ← ih (by simpa using hi)]
      congr 1
      rw [Nat.mul_succ]
      omega

/-! ### The command -/

/-- The file of a frame (40_bmp_codec R135). -/
def bmpFile (P : Frame) (td : Bool) : Buffer := bmpHeader P td ++ bmpPalBytes P.pal ++ bmpRows P td

theorem length_bmpFile (P : Frame) (td : Bool) :
    (bmpFile P td).length = 54 + 4 * P.palLen + stride P.depth P.w * P.h := by
  simp [bmpFile, Frame.palLen, Nat.add_assoc]

/-- ENCBMP of a valid frame into a slot that exists (R135). -/
theorem exec_encbmp {s : State} {bd fa : Nat} {P : Frame} (td : Bool) (hb : bd < s.nBslot)
    (hp : s.mem.frame? fa = some P) :
    exec (.encbmp bd fa td) s = conclude s (storeBuf s bd (encodeBmp s.params P td)) := by
  have hf : fa < s.nFslot := lt_of_frame? hp
  simp [exec, execEncbmp, needSlots_eq, need_pos, hb, hf, withFrame_some hp]

/-- ENCBMP of a frame whose file fits (R135). -/
theorem exec_encbmp_fits {s : State} {bd fa : Nat} {P : Frame} (td : Bool) (hb : bd < s.nBslot)
    (hp : s.mem.frame? fa = some P) (hcap : 54 + 4 * P.palLen + stride P.depth P.w * P.h ≤ s.params.bufCap)
    (hlt : 54 + 4 * P.palLen + stride P.depth P.w * P.h < 2 ^ 32) :
    exec (.encbmp bd fa td) s = .next (succeed (s.setBuf bd (bmpFile P td))) :=
  exec_of_committed (.encbmp hb hp (encodeBmp_ok.mpr ⟨⟨hcap, hlt⟩, rfl⟩))

/-! ### The header -/

/-- The header's fields, as its writer put them (R136, 30_encoding R102). -/
theorem bmpFile_fields (P : Frame) (td : Bool) :
    byteAt (bmpFile P td) 0 = 0x42 ∧ byteAt (bmpFile P td) 1 = 0x4D ∧
    u32le (bmpFile P td) 2 = (54 + 4 * P.palLen + stride P.depth P.w * P.h) % 2 ^ 32 ∧
    u32le (bmpFile P td) 6 = 0 ∧ u32le (bmpFile P td) 10 = (54 + 4 * P.palLen) % 2 ^ 32 ∧
    u32le (bmpFile P td) 14 = 40 ∧ u32le (bmpFile P td) 18 = ((P.w : Int) % 2 ^ 32).toNat % 2 ^ 32 ∧
    u32le (bmpFile P td) 22 = ((if td then -(P.h : Int) else P.h) % 2 ^ 32).toNat % 2 ^ 32 ∧
    u16le (bmpFile P td) 26 = 1 ∧ u16le (bmpFile P td) 28 = P.depth.bits % 2 ^ 16 ∧ u32le (bmpFile P td) 30 = 0 ∧
    u32le (bmpFile P td) 34 = stride P.depth P.w * P.h % 2 ^ 32 ∧ u32le (bmpFile P td) 38 = 0 ∧
    u32le (bmpFile P td) 42 = 0 ∧ u32le (bmpFile P td) 46 = P.palLen % 2 ^ 32 ∧ u32le (bmpFile P td) 50 = 0 := by
  simp [bmpFile, bmpHeader, byteAt, u16le, u32le, put16, put32, putI32, List.append_assoc, leRead_cons,
    leRead_append_right, leRead_leBytes_append]

/-- Settles O33: the capacity check, or the file's length and header. -/
theorem encbmpWritesTheHeader : Obligations.EncbmpWritesTheHeader := by
  intro s bd fa td P hb hp hwf strd fileSize pixOff hstrd hpixOff hfile
  obtain rfl : strd = stride P.depth P.w := hstrd
  subst hpixOff
  refine ⟨fun hover => ?_, fun hcap hlt => ⟨_, exec_encbmp_fits td hb hp (hfile ▸ hcap) (hfile ▸ hlt), ?_⟩⟩
  · rw [exec_encbmp td hb hp, encodeBmp, need_neg (by omega)]
    rfl
  · obtain ⟨h0, h1, h2, h6, h10, h14, h18, h22, h26, h28, h30, h34, h38, h42, h46, h50⟩ :=
      bmpFile_fields P td
    obtain ⟨-, -, hfits, -⟩ := frame_wf_iff.mp hwf
    obtain ⟨hw, hh, -⟩ := frameFits_iff.mp hfits
    have hbits : P.depth.bits < 2 ^ 16 := by cases P.depth <;> decide
    refine ⟨(length_bmpFile ..).trans hfile.symm, h0, h1, ?_, h6, ?_, h14, ?_, ?_, h26, ?_, h30, ?_, h38, h42, ?_, h50⟩
    · rw [h2, ← hfile, Nat.mod_eq_of_lt hlt]
    · omega
    · exact i32le_of_u32le (by omega) (by omega) (h18.trans (by omega))
    · exact i32le_of_u32le (by split <;> omega) (by split <;> omega) (h22.trans (by omega))
    · rw [h28, Nat.mod_eq_of_lt hbits]
    · omega
    · omega

/-! ### The palette -/

/-- The palette bytes of a colour (40_bmp_codec R137). -/
theorem byteAt_bmpPalBytes {pal : List Colour} {i k : Nat} {c : Colour} (hc : pal[i]? = some c) (hk : k < 4) :
    byteAt (bmpPalBytes pal) (4 * i + k) = byteAt [c.b, c.g, c.r, 0] k := by
  have hlength (c : Colour) : [c.b, c.g, c.r, 0].length = 4 := rfl
  simp only [byteAt, bmpPalBytes, List.getD_eq_getElem?_getD, getElem?_flatMap_block hlength hc hk]

/-- The palette of the file (R137). -/
theorem byteAt_bmpFile_palette {P : Frame} {td : Bool} {i k : Nat} {c : Colour} (hc : P.pal[i]? = some c) (hk : k < 4) :
    byteAt (bmpFile P td) (54 + 4 * i + k) = byteAt [c.b, c.g, c.r, 0] k := by
  have hi : i < P.pal.length := (List.getElem?_eq_some_iff.mp hc).1
  rw [bmpFile, byteAt_append_left (by simp; omega), byteAt_append_right (by simp; omega), length_bmpHeader,
    Nat.add_assoc, Nat.add_sub_cancel_left, byteAt_bmpPalBytes hc hk]

/-- Settles O34: the palette bytes stand behind the header, four for each colour. -/
theorem encbmpWritesThePalette : Obligations.EncbmpWritesThePalette := fun _ _ _ td _ hb hp hcap hlt =>
  ⟨_, exec_encbmp_fits td hb hp hcap hlt, fun _ _ hc =>
    ⟨byteAt_bmpFile_palette (k := 0) hc (by decide), byteAt_bmpFile_palette (k := 1) hc (by decide),
      byteAt_bmpFile_palette (k := 2) hc (by decide), byteAt_bmpFile_palette (k := 3) hc (by decide)⟩⟩

/-! ### The rows -/

section
variable (px : Nat → Nat)

/-! What a reader of a written row finds: the inverse of `bmpRowByte` (R138, 30_encoding R105). -/

theorem bmpRowByte_d1 {x : Nat} (h : px x < 2) : ((bmpRowByte px (x / 8) .d1).getLsbD (7 - x % 8)).toNat = px x := by
  have hbit := testBit_msbVal_tab 8 (fun j => px (8 * (x / 8) + j) == 1) (x % 8) (Nat.mod_lt _ (by decide))
  rw [bmpRowByte, BitVec.getLsbD_ofNat, hbit, Nat.div_add_mod, decide_eq_true (by omega), Bool.true_and]
  interval_cases px x <;> rfl

theorem toNat_bmpRowByte_d4 {k : Nat} (h : ∀ x, px x < 16) :
    (bmpRowByte px k .d4).toNat = 16 * px (2 * k) + px (2 * k + 1) := by
  have h0 := h (2 * k)
  have h1 := h (2 * k + 1)
  rw [bmpRowByte, BitVec.toNat_ofNat]
  omega

theorem bmpRowByte_d4 {x : Nat} (h : ∀ x, px x < 16) : (if x % 2 = 0 then (bmpRowByte px (x / 2) .d4).toNat / 16
    else (bmpRowByte px (x / 2) .d4).toNat % 16) = px x := by
  have h1 := h (2 * (x / 2) + 1)
  rw [toNat_bmpRowByte_d4 px h]
  split
  · rw [show 2 * (x / 2) = x by omega] at *
    omega
  · rw [show 2 * (x / 2) + 1 = x by omega] at *
    omega

theorem toNat_bmpRowByte_d24 {x j : Nat} (hj : j < 3) :
    (bmpRowByte px (3 * x + j) .d24).toNat = px x / 2 ^ (8 * j) % 256 := by
  rw [bmpRowByte, BitVec.toNat_ofNat, show (3 * x + j) / 3 = x by omega, show (3 * x + j) % 3 = j by omega]

theorem bmpRowByte_d32 {x j : Nat} (hj : j < 4) : bmpRowByte px (4 * x + j) .d32 = byteAt (leBytes 4 (px x)) j := by
  rw [byteAt_leBytes _ hj, bmpRowByte, show (4 * x + j) / 4 = x by omega, show (4 * x + j) % 4 = j by omega,
    Nat.pow_mul]

/-- A bit of a row belongs to the sample at its place, and is 0 with it (R138). -/
theorem bmpRowByte_bit_zero {d : Depth} {k j : Nat} (h : ∀ x, px x < 2 ^ d.bits) (hj : j < 8)
    (hz : px ((8 * k + (7 - j)) / d.bits) = 0) : (bmpRowByte px k d).getLsbD j = false := by
  cases d with
  | d1 =>
    have hbit := testBit_msbVal_tab 8 (fun i => px (8 * k + i) == 1) (7 - j) (by omega)
    rw [Depth.bits, Nat.div_one] at hz
    rw [bmpRowByte, BitVec.getLsbD_ofNat, show j = 8 - 1 - (7 - j) by omega, hbit, hz]
    simp
  | d4 =>
    have h1 := h (2 * k + 1)
    rw [BitVec.getLsbD, toNat_bmpRowByte_d4 px h]
    rw [Depth.bits] at hz h1
    by_cases hlow : j < 4
    · rw [show (8 * k + (7 - j)) / 4 = 2 * k + 1 by omega] at hz
      rw [hz, Nat.add_zero, show 16 = 2 ^ 4 from rfl, Nat.testBit_two_pow_mul, decide_eq_false (by omega),
        Bool.false_and]
    · rw [show (8 * k + (7 - j)) / 4 = 2 * k by omega] at hz
      rw [hz, Nat.mul_zero, Nat.zero_add]
      exact Nat.testBit_lt_two_pow (h1.trans_le (Nat.pow_le_pow_right (by decide) (by omega)))
  | d8 =>
    rw [Depth.bits, show (8 * k + (7 - j)) / 8 = k by omega] at hz
    simp [bmpRowByte, hz]
  | d24 =>
    rw [Depth.bits, show (8 * k + (7 - j)) / 24 = k / 3 by omega] at hz
    simp [bmpRowByte, hz]
  | d32 =>
    rw [Depth.bits, show (8 * k + (7 - j)) / 32 = k / 4 by omega] at hz
    simp [bmpRowByte, hz]

end

/-- The samples of row `y` of a frame, 0 behind its last (R138). -/
def rowSample (P : Frame) (y x : Nat) : Nat := if x < P.w then P.px x y else 0

theorem rowSample_lt {p : Params} {P : Frame} (h : P.wf p = true) (y x : Nat) : rowSample P y x < 2 ^ P.depth.bits := by
  unfold rowSample
  split
  · exact px_lt h x y
  · positivity

/-- Byte `k` of file row `r` (R135 step 6). -/
theorem byteAt_bmpFile_row {P : Frame} {td : Bool} {r k : Nat} (hr : r < P.h) (hk : k < stride P.depth P.w) :
    byteAt (bmpFile P td) (54 + 4 * P.palLen + r * stride P.depth P.w + k) =
      bmpRowByte (rowSample P (if td then r else P.h - 1 - r)) k P.depth := by
  have hlen : (bmpHeader P td ++ bmpPalBytes P.pal).length = 54 + 4 * P.palLen := by simp [Frame.palLen]
  rw [bmpFile, byteAt_append_right (by omega), hlen, Nat.add_assoc, Nat.add_sub_cancel_left]
  exact getD_raster _ _ hk hr

/-- A row's stride holds its samples (30_encoding R104). -/
theorem row_le_stride (d : Depth) (w : Nat) : d.bits * w ≤ 8 * stride d w := by
  unfold stride
  omega

/-- Settles O35: a byte of a file row is `bmpRowByte` of the frame row, read back at each depth. -/
theorem encbmpWritesTheRows : Obligations.EncbmpWritesTheRows := by
  intro s bd fa td P hb hp hwf strd pixOff hstrd hpixOff hcap hlt
  obtain rfl : strd = stride P.depth P.w := hstrd
  subst hpixOff
  refine ⟨_, exec_encbmp_fits td hb hp hcap hlt, fun r hr rb y hrb hy => ?_⟩
  subst hrb hy
  have hbyte {k : Nat} (hk : k < stride P.depth P.w) := byteAt_bmpFile_row (td := td) hr hk
  generalize (if td then r else P.h - 1 - r) = y at *
  generalize 54 + 4 * P.palLen + r * stride P.depth P.w = rb at *
  have hrow := row_le_stride P.depth P.w
  have hsample := rowSample_lt hwf y
  refine ⟨fun x hx => ?_, fun k j hk hj hbehind => ?_⟩
  · have hpx : rowSample P y x = P.px x y := if_pos hx
    refine ⟨fun hd => ?_, fun hd => ?_, fun hd => ?_, fun hd => ?_, fun hd => ?_⟩ <;>
      simp only [hd, Depth.bits] at hrow hsample hbyte
    · rw [hbyte (by omega), bmpRowByte_d1 _ (hsample x), hpx]
    · rw [hbyte (by omega), bmpRowByte_d4 _ hsample, hpx]
    · rw [hbyte (by omega), bmpRowByte, BitVec.toNat_ofNat, Nat.mod_eq_of_lt (hsample x), hpx]
    · have hbytes {j : Nat} (hj : j < 3) :
          (byteAt (bmpFile P td) (rb + (3 * x + j))).toNat = P.px x y / 2 ^ (8 * j) % 256 := by
        rw [hbyte (by omega), toNat_bmpRowByte_d24 _ hj, hpx]
      have hv := hpx ▸ hsample x
      refine ⟨(hbytes (j := 0) (by decide)).trans ?_, hbytes (j := 1) (by decide),
        (hbytes (j := 2) (by decide)).trans ?_⟩ <;> omega
    · calc u32le _ (rb + 4 * x) = leRead (leBytes 4 (P.px x y) ++ []) 0 4 := leRead_congr fun j hj => by
            rw [Nat.add_assoc, hbyte (by omega), bmpRowByte_d32 _ hj, hpx, List.append_nil, Nat.zero_add]
        _ = P.px x y := (leRead_leBytes_append ..).trans (Nat.mod_eq_of_lt (hpx ▸ hsample x))
  · rw [hbyte hk]
    refine bmpRowByte_bit_zero _ hsample hj (if_neg ?_)
    rw [Nat.not_lt, Nat.le_div_iff_mul_le, Nat.mul_comm]
    · exact hbehind
    · cases P.depth <;> decide

end Sys2Proof.Machine

/-! PROOFS. DECPCX of a region that ends too early (spec 41_pcx_codec R157 to R159, R313). -/

namespace Sys2Proof.Machine

/-- A lone run marker, or nothing, gives no value (41_pcx_codec R159). -/
theorem rleProduce_exhausted {n : Nat} (hn : 0 < n) {tail : Buffer}
    (h : tail = [] ∨ ∃ c : Byte, tail = [c] ∧ 0xC0 ≤ c.toNat) : rleProduce n tail = .error .pcxDataExhausted := by
  obtain ⟨n, rfl⟩ := Nat.exists_eq_add_one_of_ne_zero hn.ne'
  obtain rfl | ⟨c, rfl, hc⟩ := h
  · exact rleProduce_nil n
  · have hlt : c.toNat < 256 := c.isLt
    refine rleProduce_marker_alone ?_
    simp only [isRunMarker, bits, beq_iff_eq]
    omega

/-- Behind complete rows, a row that cannot be filled ends the decoding (R158, R159). -/
theorem rleRows_exhausted {w bpl h : Nat} {rows : List (List PcxCode)} (hrows : ∀ row ∈ rows, rowComplete bpl row)
    (hh : rows.length < h) {R : Buffer} (hR : rleProduce bpl R = .error .pcxDataExhausted) :
    rleRows w bpl h ((rows.flatMap fun row => row.flatMap PcxCode.bytes) ++ R) = .error .pcxDataExhausted := by
  induction rows generalizing h with
  | nil =>
    obtain ⟨h, rfl⟩ := Nat.exists_eq_add_one_of_ne_zero hh.ne'
    simp only [List.flatMap_nil, List.nil_append, rleRows, hR]
  | cons row rows ih =>
    obtain ⟨hrow, hrows⟩ := List.forall_mem_cons.mp hrows
    obtain ⟨h, rfl⟩ := Nat.exists_eq_add_one_of_ne_zero (Nat.ne_zero_of_lt hh)
    simp only [List.flatMap_cons, List.append_assoc, rleRows, rleProduce_row hrow, ih hrows (Nat.lt_of_succ_lt_succ hh)]

/-- DECPCX into a slot that exists (R151). -/
theorem exec_decpcx {s : State} {fd ba : Nat} {X : Buffer} (hf : fd < s.nFslot) (hX : s.mem.buf? ba = some X) :
    exec (.decpcx fd ba) s = conclude s (storeFrame (s.setPcxLatch (pcxLatchOf X)) fd (decodePcx s.params X)) := by
  have hb : ba < s.nBslot := lt_of_buf? hX
  simp [exec, execDecpcx, needSlots_eq, need_pos, hf, hb, buf_eq_of_buf? hX]

/-- Settles O38: the codes of the unfinished row are read, and nothing behind them fills it. -/
theorem decpcxDataExhausted : Obligations.DecpcxDataExhausted := by
  intro s fd ba X rows part tail hf hX hacc hlt hrows hpart hfew htail hregion
  have hrow : rleProduce (u16le X 66) (part.flatMap PcxCode.bytes ++ tail) = .error .pcxDataExhausted := by
    rw [rleProduce_codes hpart hfew, rleProduce_exhausted (by omega) htail, prepend_error]
  have hdec : decodePcx s.params X = .error .pcxDataExhausted := by
    rw [decodePcx_accepted hacc, pcxRegion, hregion, List.append_assoc, rleRows_exhausted hrows hlt hrow]
  rw [exec_decpcx hf hX, hdec, storeFrame_error, conclude_error]

end Sys2Proof.Machine

/-! PROOFS. EXTRACT, bit by bit, and the bit groups (spec 43_stego R216, R217, 30_encoding R109). -/

namespace Sys2Proof.Machine

/-- Settles O54: bit `t` of the groups is bit `t` of the sequence. -/
theorem ungroupsOfGroupsIsTheBits : Obligations.UngroupsOfGroupsIsTheBits := by
  intro S b hb
  refine List.ext_getElem (length_ungroups ..) fun t ht ht' => ?_
  have hcover := le_ceilDiv_mul S.length hb
  calc (ungroups (groups S b) b S.length)[t] = ((groups S b).getD (t / b) 0).testBit (b - 1 - t % b) := getElem_tab ..
    _ = S.getD t false := testBit_group S hb (by omega)
    _ = S[t] := List.getD_eq_getElem _ _ ht'

/-- EXTRACT with slots that exist and a legal operand is the bit reader on the container (43_stego R216). -/
theorem exec_extract {s : State} {bd ba imm3 : Nat} {C : Buffer} (hd : bd < s.nBslot) (hC : s.mem.buf? ba = some C)
    (ho : imm3Legal imm3 = true) :
    exec (.extract bd ba imm3) s = conclude s (storeBuf s bd (extract s.params.header (2 * imm3) C)) := by
  have ha : ba < s.nBslot := lt_of_buf? hC
  simp [exec, execExtract, needSlots_eq, need_pos, hd, ha, ho, buf_eq_of_buf? hC]

/-- The length read from a container is the one whose little-endian bytes its header bits spell (R216). -/
theorem statedLength_eq {hw : HeaderWidth} {b L : Nat} {C : Buffer} (hb : 1 ≤ b) (hb' : b < 8)
    (hL : L < 2 ^ headerBits hw)
    (h : ∀ t < headerBits hw, (L / 256 ^ (t / 8)).testBit (7 - t % 8) = (byteAt C (t / b)).getLsbD (b - 1 - t % b)) :
    statedLength hw b C = L := by
  have h8 := headerBits_mul hw
  have hbytes : ∀ k < headerBits hw / 8,
      byteAt (bytesMSB (ungroups (lowGroups b C 0 (headerBytes hw b)) b (headerBits hw))) (0 + k) =
        byteAt (leBytes (headerBits hw / 8) L ++ []) (0 + k) := by
    intro k hk
    rw [Nat.zero_add, List.append_nil, byteAt_leBytes _ hk]
    refine BitVec.eq_of_getLsbD_eq fun i hi => ?_
    obtain ⟨t, hdiv, hmod, ht⟩ : ∃ t, t / 8 = k ∧ 7 - t % 8 = i ∧ t < headerBits hw :=
      ⟨8 * k + (7 - i), by omega, by omega, by omega⟩
    have hU : (ungroups (lowGroups b C 0 (headerBytes hw b)) b (headerBits hw)).getD t false =
        (byteAt C (t / b)).getLsbD (b - 1 - t % b) := by
      have hg : t / b < headerBytes hw b := div_lt_ceilDiv hb ht
      rw [ungroups, getD_tab, if_pos ht, testBit_lowGroups hb hb' C hg, Nat.zero_add]
    rw [BitVec.getLsbD_ofNat, decide_eq_true hi, Bool.true_and, ← hdiv, ← hmod, h t ht, ← hU]
    exact getLsbD_bytesMSB _ (by rw [length_ungroups]; omega)
  rw [statedLength, leRead_congr hbytes, leRead_leBytes_append, show 256 = 2 ^ 8 from rfl, ← Nat.pow_mul, h8,
    Nat.mod_eq_of_lt hL]

/-- Settles O52: the length is the one the header spells, and `getLsbD_hiddenBytes` gives the bits. -/
theorem extractRecoversEveryBit : Obligations.ExtractRecoversEveryBit := by
  intro s bd ba imm3 b HB C hd hC hi rfl hHB
  have ho : imm3Legal imm3 = true := imm3Legal_iff.mpr (by simpa using hi)
  obtain ⟨hb, hb'⟩ := bitsPerByte_of_imm3Legal ho
  obtain rfl : HB = headerBytes s.params.header (2 * imm3) := hHB.trans (ceilDiv_eq hb).symm
  refine ⟨fun hlt => ?_, fun L PB hL hspell hPB hheader => ?_⟩
  · rw [exec_extract hd hC ho, extract, need_neg (Nat.not_le.mpr hlt), storeBuf_error, conclude_error]
  · obtain rfl : PB = payloadBytes L (2 * imm3) := hPB.trans (ceilDiv_eq hb).symm
    have hstated := statedLength_eq hb hb' hL hspell
    refine ⟨fun hlt => ?_, fun hfit => ?_⟩
    · rw [exec_extract hd hC ho, extract, need_pos hheader, hstated, need_neg (Nat.not_le.mpr hlt), storeBuf_error,
        conclude_error]
    · refine ⟨hiddenBytes s.params.header (2 * imm3) L C, exec_of_committed (.extract hd hC ho ?_),
        length_hiddenBytes .., fun t => getLsbD_hiddenBytes hb hb' C⟩
      exact extract_ok.mpr ⟨hheader, hstated.symm ▸ hfit, by rw [hstated]⟩

end Sys2Proof.Machine

/-! PROOFS. QUANT reduces the palette (spec 44_quantizer R241 to R249, 30_encoding R111). -/

namespace Sys2Proof.Machine

/-! ### The candidates -/

theorem candBefore_iff {hist : List Nat} {i j : Nat} : candBefore hist i j = true ↔
    hist.getD j 0 < hist.getD i 0 ∨ (hist.getD i 0 = hist.getD j 0 ∧ i ≤ j) := by
  simp only [candBefore, Bool.or_eq_true, Bool.and_eq_true, decide_eq_true_eq]

theorem candInsert_eq_orderedInsert (hist : List Nat) (i : Nat) (l : List Nat) :
    candInsert hist i l = l.orderedInsert (fun i j => candBefore hist i j) i := by
  induction l with
  | nil => rfl
  | cons j l ih => rw [candInsert, List.orderedInsert_cons, ih]

/-- The candidates are the palette's indices, sorted by insertion (44_quantizer R243). -/
theorem candidates_eq_insertionSort (hist : List Nat) (n : Nat) :
    candidates hist n = (List.range n).insertionSort fun i j => candBefore hist i j := by
  rw [candidates, List.insertionSort, funext fun i => funext (candInsert_eq_orderedInsert hist i)]

/-- Of two candidates the first is used more often, or as often with the smaller index (R243). -/
theorem candidates_sorted (hist : List Nat) (n : Nat) : (candidates hist n).Pairwise fun i j =>
    hist.getD j 0 < hist.getD i 0 ∨ (hist.getD i 0 = hist.getD j 0 ∧ i < j) := by
  have htotal : Std.Total fun i j => candBefore hist i j = true :=
    ⟨fun i j => by simp only [candBefore_iff]; omega⟩
  have htrans : IsTrans Nat fun i j => candBefore hist i j = true :=
    ⟨fun i j k => by simp only [candBefore_iff]; omega⟩
  have hsorted := List.pairwise_insertionSort (fun i j => candBefore hist i j = true) (List.range n)
  rw [← candidates_eq_insertionSort] at hsorted
  have hnodup : (candidates hist n).Nodup := (candidates_perm hist n).nodup_iff.mpr List.nodup_range
  refine (hsorted.and hnodup).imp fun {i j} ⟨hbefore, hne⟩ => ?_
  have := candBefore_iff.mp hbefore
  omega

/-! ### The passes -/

/-- A pass, as a fold that takes what it accepts while there is room (R244, R245). -/
theorem takeColours_eq_foldl {K : Nat} {accept : List Colour → Colour → Bool} {p : List Colour → Colour → Prop}
    [∀ acc c, Decidable (p acc c)] (hp : ∀ acc c, accept acc c = true ↔ p acc c) {np : List Colour}
    (hnp : np.length ≤ K) (cs : List Colour) : takeColours K accept np cs =
      cs.foldl (fun acc c => if acc.length < K ∧ p acc c then acc ++ [c] else acc) np := by
  induction cs generalizing np with
  | nil => rfl
  | cons c cs ih =>
    rw [takeColours, List.foldl_cons]
    by_cases hfull : np.length = K
    · rw [if_pos hfull, if_neg (by omega), ← ih hnp]
      cases cs with
      | nil => rfl
      | cons c cs => rw [takeColours, if_pos hfull]
    · have hroom : np.length < K := by omega
      rw [if_neg hfull]
      by_cases ha : accept np c = true
      · rw [if_pos ha, if_pos ⟨hroom, (hp np c).mp ha⟩, ih (by simpa using hroom)]
      · rw [if_neg ha, if_neg fun h => ha ((hp np c).mpr h.2), ih hnp]

/-- The new palette: the greedy pass, the fill pass, black (R244 to R246). -/
theorem newPalette_eq_folds {K : Nat} {colours greedy fill : List Colour}
    (hgreedy : greedy = colours.foldl (fun acc c =>
      if acc.length < K ∧ ∀ q ∈ acc, 4000 < d2 c q then acc ++ [c] else acc) [])
    (hfill : fill = colours.foldl (fun acc c => if acc.length < K ∧ c ∉ acc then acc ++ [c] else acc) greedy) :
    newPalette K colours = fill ++ List.replicate (K - fill.length) black := by
  have hfar (acc : List Colour) (c : Colour) : farFromAll acc c = true ↔ ∀ q ∈ acc, 4000 < d2 c q :=
    List.all_eq_true.trans (forall₂_congr fun _ _ => decide_eq_true_iff)
  have hnew (acc : List Colour) (c : Colour) : notYetThere acc c = true ↔ c ∉ acc := by
    simp [notYetThere]
  have hg : takeColours K farFromAll [] colours = greedy :=
    (takeColours_eq_foldl hfar (Nat.zero_le K) colours).trans hgreedy.symm
  have hlen : greedy.length ≤ K := hg ▸ takeColours_length (Nat.zero_le K)
  rw [newPalette, chosenColours, hg, takeColours_eq_foldl hnew hlen, ← hfill]

/-! ### The index table -/

/-- The index of a palette colour is the first of the nearest new colours (R247). -/
theorem indexTable_nearest {pal np : List Colour} (hnp : np ≠ []) {i : Nat} {c : Colour} (hi : i < 256)
    (hc : pal[i]? = some c) : ∃ (j : Nat) (q : Colour), (indexTable pal np)[i]? = some j ∧ np[j]? = some q ∧
      ∀ (j' : Nat) (q' : Colour), np[j']? = some q' → d2 c q ≤ d2 c q' ∧ (j' < j → d2 c q < d2 c q') := by
  have hlt := nearest_lt hnp c
  refine ⟨nearest np c, np[nearest np c], ?_, List.getElem?_eq_getElem hlt, fun j' q' hq' => ?_⟩
  · rw [indexTable, getElem?_tab_lt _ hi, hc]
  · obtain ⟨hj', rfl⟩ := List.getElem?_eq_some_iff.mp hq'
    refine ⟨nearest_min hnp c _ (List.getElem_mem hj'), fun hbefore => ?_⟩
    obtain ⟨q'', hmem, hcloser⟩ := nearest_first hbefore hj'
    exact (nearest_min hnp c q'' hmem).trans_lt hcloser

/-- Past the palette the table is 0 (R241 step 9). -/
theorem indexTable_past {pal np : List Colour} {i : Nat} (h : pal.length ≤ i) (hi : i < 256) :
    (indexTable pal np)[i]? = some 0 := by
  rw [indexTable, getElem?_tab_lt _ hi, List.getElem?_eq_none h]

/-! ### The frame and its rendering -/

/-- A sample becomes its entry of the table (R248). -/
theorem quantFrame_sample {P : Frame} {K a v : Nat} (ha : P.data[a]? = some v) (hv : v < 256) :
    (quantFrame P K).data[a]? = (quantTable P K)[v]? := by
  have hlt : v < (quantTable P K).length := by simpa [quantTable] using hv
  rw [quantFrame, List.getElem?_map, ha, Option.map_some, List.getD_eq_getElem _ _ hlt, List.getElem?_eq_getElem hlt]

/-- The four bytes of a rendered sample (30_encoding R111). -/
theorem getElem?_rgbaOf {np : List Colour} {data : List Nat} {a v k : Nat} {q : Colour} (ha : data[a]? = some v)
    (hq : np[v]? = some q) (hk : k < 4) : (rgbaOf np data)[4 * a + k]? = [q.r, q.g, q.b, 0xFF][k]? := by
  have hlength (v : Nat) : [(np.getD v black).r, (np.getD v black).g, (np.getD v black).b, 0xFF].length = 4 := rfl
  rw [rgbaOf, getElem?_flatMap_block hlength ha hk, List.getD_eq_getElem?_getD, hq, Option.getD_some]

/-! ### The command -/

/-- QUANT with slots that exist, a valid source and a legal operand (R241). -/
theorem exec_quant {s : State} {fd fa bb : Nat} {P : Frame} (hf : fd < s.nFslot) (hb : bb < s.nBslot)
    (hp : s.mem.frame? fa = some P) (hK : 1 ≤ s.arg0.toNat ∧ s.arg0.toNat ≤ 256) : exec (.quant fd fa bb) s = conclude s
      (need (P.depth = .d8) .depthNotAccepted <| need (4 * P.w * P.h ≤ s.params.bufCap) .capacityExceeded <|
        need (indexWithoutEntry (histogram P.data) P.palLen = false) .indexWithoutColour <|
        .ok (quantCommit s fd bb P s.arg0.toNat)) := by
  have ha : fa < s.nFslot := lt_of_frame? hp
  simp only [exec, execQuant, needSlots_eq]
  rw [need_pos (by simp [hf, hb, ha]), withFrame_some hp, need_pos hK]

/-- Settles O56: the checks in order; then the committed tables, frame and rendering, part by part. -/
theorem quantReducesThePalette : Obligations.QuantReducesThePalette := by
  intro s fd fa bb K P hf _ hb hp hwf hK h1 h256
  subst hK
  have hexec := exec_quant hf hb hp ⟨h1, h256⟩
  obtain ⟨-, -, -, hpal, hlen, hdata⟩ := frame_wf_iff.mp hwf
  have hbyte (hd : P.depth = .d8) : ∀ v ∈ P.data, v < 256 := by simpa [hd, Depth.bits] using hdata
  refine ⟨fun hd => ?_, fun hd hcap => ?_, fun hd hcap hmiss => ?_, fun hd hcap hall => ?_⟩
  · rw [hexec, need_neg hd, conclude_error]
  · rw [hexec, need_pos hd, need_neg (Nat.not_le.mpr hcap), conclude_error]
  · obtain ⟨v, hv, hpast⟩ := hmiss
    rw [hexec, need_pos hd, need_pos hcap, need_neg, conclude_error]
    exact fun h => absurd ((indexWithoutEntry_iff (hbyte hd)).mp h v hv) (Nat.not_lt.mpr hpast)
  · have hpalLen : P.palLen ≤ 256 := by
      rw [hd, if_pos (by decide)] at hpal
      exact hpal.2
    have hne := quantPalette_ne_nil (P := P) h1
    have hperm := candidates_perm (histogram P.data) P.palLen
    refine ⟨candidates (histogram P.data) P.palLen, histogram P.data, quantTable P s.arg0.toNat,
      (quantFrame P s.arg0.toNat).data, quantPalette P s.arg0.toNat, _,
      exec_of_committed (.quant hf hb hp ⟨h1, h256⟩ hd hcap ((indexWithoutEntry_iff (hbyte hd)).mpr hall)),
      ⟨length_histogram _, fun i hi => getElem?_tab_lt _ hi⟩, hperm, ?_, ?_, length_quantPalette ..,
      length_indexTable .., fun i => indexTable_past, fun i c hc => indexTable_nearest hne ?_ hc, List.length_map .., ?_,
      rgbaOf_length hlen, ?_⟩
    · refine (candidates_sorted (histogram P.data) P.palLen).imp_of_mem fun {i j} hi hj h => ?_
      have hi := List.mem_range.mp (hperm.mem_iff.mp hi)
      have hj := List.mem_range.mp (hperm.mem_iff.mp hj)
      rwa [histogram_getD _ (by omega), histogram_getD _ (by omega)] at h
    · rintro greedy fill colours rfl hgreedy hfill
      exact newPalette_eq_folds hgreedy hfill
    · exact (List.getElem?_eq_some_iff.mp hc).1.trans_le hpalLen
    · exact fun a v ha => quantFrame_sample ha (hbyte hd v (List.mem_of_getElem? ha))
    · intro a v q ha hq
      exact ⟨getElem?_rgbaOf (k := 0) ha hq (by decide), getElem?_rgbaOf (k := 1) ha hq (by decide),
        getElem?_rgbaOf (k := 2) ha hq (by decide), getElem?_rgbaOf (k := 3) ha hq (by decide)⟩

end Sys2Proof.Machine

/-! PROOFS. The errors of DECBMP (spec 40_bmp_codec R122 to R128, 60_exceptions R268). -/

namespace Sys2Proof.Machine

/-- A bit count outside `BMP_DEPTHS` is no depth (00_scope R8). -/
theorem ofBits_eq_none {n : Nat} (h : n ∉ [1, 4, 8, 24, 32]) : Depth.ofBits n = none := by
  rw [Option.eq_none_iff_forall_ne_some]
  rintro d hd
  rw [← bits_of_ofBits hd] at h
  cases d <;> simp [Depth.bits] at h

/-- DECBMP of a slot that exists ends with the error its checks meet (40_bmp_codec R121, 60_exceptions R270). -/
theorem exec_decbmp_error {s : State} {fd ba : Nat} {X : Buffer} {d : Detail} (hf : fd < s.nFslot)
    (hX : s.mem.buf? ba = some X) (h : decodeBmp s.params X = .error d) :
    exec (.decbmp fd ba) s = .next (raise d s) := by
  have hb : ba < s.nBslot := lt_of_buf? hX
  simp [exec, execDecbmp, needSlots_eq, need_pos, hf, hb, buf_eq_of_buf? hX, h]

/-- Settles O32: `hends` says that the checks still to come decide the end; each clause fails the first of them, and
behind it that check is passed (`need_pos`). -/
theorem decbmpErrorsInOrder : Obligations.DecbmpErrorsInOrder := by
  intro s fd ba X hf hX
  have hends (e : Detail) : decodeBmp s.params X = .error e → exec (.decbmp fd ba) s = .next (raise e s) :=
    exec_decbmp_error hf hX
  unfold decodeBmp at hends
  refine ⟨fun h => hends _ (need_neg ?_), fun hlen hB hM => ?_⟩
  · rintro ⟨hlen, hB, hM⟩
    rcases h with h | h | h
    · omega
    · exact h hB
    · exact h hM
  rw [need_pos ⟨hlen, hB, hM⟩] at hends
  refine ⟨fun h => hends _ (need_neg h.not_ge), fun hhdr => ?_⟩
  rw [need_pos hhdr] at hends
  refine ⟨fun h => hends _ (need_neg h), fun hcomp => ?_⟩
  rw [need_pos hcomp] at hends
  refine ⟨fun h => hends _ (by rw [ofBits_eq_none h]), fun d hd => ?_⟩
  rw [hd, ofBits_bits] at hends
  dsimp only at hends
  refine ⟨fun h => hends _ (need_neg ?_), fun hw hh => ?_⟩
  · rintro ⟨hw, hh⟩
    exact h.elim hw.not_ge hh
  rw [need_pos ⟨hw, hh⟩] at hends
  refine ⟨fun h => hends _ (need_neg h.not_ge), fun hpal => ?_⟩
  rw [need_pos hpal] at hends
  refine ⟨fun h => hends _ (need_neg h.not_ge), fun hpalEnd => ?_⟩
  rw [need_pos hpalEnd] at hends
  refine ⟨fun h => hends _ (need_neg h.not_ge), fun hrows hfits => ?_⟩
  rw [need_pos hrows] at hends
  exact hends _ (need_neg (by simp [hfits]))

end Sys2Proof.Machine

/-! PROOFS. DECBMP reads back what ENCBMP wrote (spec 40_bmp_codec R121, R135, R140). -/

namespace Sys2Proof.Machine

/-- Frames of one size, depth and palette with the same pixels are the same frame (10_state R30, R32). -/
theorem frame_eq_of_px {P Q : Frame} (hw : Q.w = P.w) (hh : Q.h = P.h) (hdepth : Q.depth = P.depth)
    (hpal : Q.pal = P.pal) (hQ : Q.data.length = Q.w * Q.h) (hP : P.data.length = P.w * P.h)
    (hpx : ∀ x y, x < P.w → y < P.h → Q.px x y = P.px x y) : Q = P := by
  have hdata : Q.data = P.data := by
    rw [data_eq_raster hQ, data_eq_raster hP, hw, hh, raster, raster, tab, tab]
    refine List.map_congr_left fun a ha => ?_
    obtain ⟨hx, hy, -⟩ := addr_split (List.mem_range.mp ha)
    exact hpx _ _ hx hy
  cases P
  cases Q
  simp_all

/-- The palette length that DECBMP finds behind the field ENCBMP wrote is the frame's: an indexed frame has a colour,
so the field is not 0 (10_state R31, 40_bmp_codec R125). -/
theorem bmpPalLen_palLen {p : Params} {P : Frame} (h : P.wf p = true) : bmpPalLen P.depth P.palLen = P.palLen := by
  obtain ⟨-, -, -, hpal, -⟩ := frame_wf_iff.mp h
  unfold bmpPalLen
  split at hpal
  · rw [if_pos ‹_›, if_pos (by omega)]
  · rw [if_neg ‹_›, hpal]

theorem bmpFrame_pal (X : Buffer) (d : Depth) :
    (bmpFrame X d).pal = tab (bmpPalLen d (u32le X 46)) (bmpPalEntry X) := rfl

theorem bmpFrame_depth (X : Buffer) (d : Depth) : (bmpFrame X d).depth = d := rfl

theorem length_bmpFrame_data (X : Buffer) (d : Depth) :
    (bmpFrame X d).data.length = (bmpFrame X d).w * (bmpFrame X d).h := by simp [bmpFrame]

/-- A palette entry of the written file is the frame's colour (30_encoding R103, 40_bmp_codec R137). -/
theorem bmpPalEntry_bmpFile (td : Bool) {P : Frame} {i : Nat} {c : Colour} (hc : P.pal[i]? = some c) :
    bmpPalEntry (bmpFile P td) i = c := by
  have hblue := byteAt_bmpFile_palette (td := td) (k := 0) hc (by decide)
  have hgreen := byteAt_bmpFile_palette (td := td) (k := 1) hc (by decide)
  have hred := byteAt_bmpFile_palette (td := td) (k := 2) hc (by decide)
  rw [bmpPalEntry, hgreen, hred, ← Nat.add_zero (54 + 4 * i), hblue]
  rfl

/-- The file row that DECBMP reads a frame row from is the one ENCBMP wrote it to, in both orientations (R127, R135). -/
theorem bmpFileRow_of_written (td : Bool) {H y : Nat} (hy : y < H) :
    bmpFileRow (if td then -(H : Int) else H) H y < H ∧
    (if td then bmpFileRow (if td then -(H : Int) else H) H y
      else H - 1 - bmpFileRow (if td then -(H : Int) else H) H y) = y := by
  unfold bmpFileRow
  cases td <;> simp only [Bool.false_eq_true, if_true, if_false] <;> split <;> omega

/-- The height field of either orientation gives the frame's height (R127, R136). -/
theorem natAbs_writtenHeight (td : Bool) (H : Nat) : (if td then -(H : Int) else H).natAbs = H := by
  cases td <;> simp

/-- A successful ENCBMP: the slot exists, the file fits, and nothing but the slot changes (R135). -/
theorem encbmp_of_success {s t : State} {bd fa : Nat} {td : Bool} {P : Frame} (hp : s.mem.frame? fa = some P)
    (he : exec (.encbmp bd fa td) s = .next t) (herr : t.status.err = false) :
    bd < s.nBslot ∧ 54 + 4 * P.palLen + stride P.depth P.w * P.h ≤ s.params.bufCap ∧
      54 + 4 * P.palLen + stride P.depth P.w * P.h < 2 ^ 32 ∧ t = succeed (s.setBuf bd (bmpFile P td)) := by
  rcases exec_next he with ⟨d, -, rfl⟩ | ⟨u, hu, rfl⟩
  · simp at herr
  · cases hu with
    | encbmp hb hp' hr =>
      obtain rfl := Option.some.inj (hp.symm.trans hp')
      obtain ⟨⟨hcap, hlt⟩, rfl⟩ := encodeBmp_ok.mp hr
      exact ⟨hb, hcap, hlt, rfl⟩

section
variable {s : State} {bd fa : Nat} {td : Bool} {P : Frame} (hb : bd < s.nBslot) (hp : s.mem.frame? fa = some P)
  (hwf : P.wf s.params = true) (hcap : 54 + 4 * P.palLen + stride P.depth P.w * P.h ≤ s.params.bufCap)
  (hlt : 54 + 4 * P.palLen + stride P.depth P.w * P.h < 2 ^ 32)
include hb hp hcap hlt

/-- The buffer an ENCBMP is said to store is the frame's file. -/
theorem eq_bmpFile_of_exec {Y : Buffer} (h : exec (.encbmp bd fa td) s = .next (succeed (s.setBuf bd Y))) :
    Y = bmpFile P td := by
  have hstates := Host.Outcome.next.inj (h.symm.trans (exec_encbmp_fits td hb hp hcap hlt))
  have hslots := congrArg (fun t : State => t.mem.buf? bd) hstates
  simpa [setBuf_buf?_same _ _ _ hb] using hslots

include hwf

/-- The header fields that DECBMP reads back (30_encoding R102). -/
theorem bmpFile_readBack : u32le (bmpFile P td) 10 = 54 + 4 * P.palLen ∧ i32le (bmpFile P td) 18 = P.w ∧
    i32le (bmpFile P td) 22 = (if td then -(P.h : Int) else P.h) ∧ u16le (bmpFile P td) 28 = P.depth.bits ∧
    u32le (bmpFile P td) 46 = P.palLen := by
  obtain ⟨-, hwrites⟩ := encbmpWritesTheHeader s bd fa td P hb hp hwf _ _ _ rfl rfl rfl
  obtain ⟨Y, hexec, -, -, -, -, -, h10, -, h18, h22, -, h28, -, -, -, -, h46, -⟩ := hwrites hcap hlt
  obtain rfl := eq_bmpFile_of_exec hb hp hcap hlt hexec
  exact ⟨h10, h18, h22, h28, h46⟩

/-- What ENCBMP writes passes every check of DECBMP (40_bmp_codec R121 to R126, R128). -/
theorem bmpFile_accepted : BmpAccepted s.params (bmpFile P td) P.depth := by
  obtain ⟨h10, h18, h22, h28, h46⟩ := bmpFile_readBack hb hp hwf hcap hlt (td := td)
  obtain ⟨h0, h1, -, -, -, -, -, -, -, -, h30, -⟩ := bmpFile_fields P td
  obtain ⟨hw, hh, hfits, hpal, -⟩ := frame_wf_iff.mp hwf
  have hpalLen : P.palLen ≤ 256 := by split at hpal <;> omega
  have hheight : (i32le (bmpFile P td) 22).natAbs = P.h := by rw [h22, natAbs_writtenHeight]
  have hlen := length_bmpFile P td
  rw [BmpAccepted, hheight, h10, h18, h46, bmpPalLen_palLen hwf, Int.toNat_natCast]
  exact ⟨⟨h0, h1⟩, by omega, h30, h28, ⟨by omega, by omega⟩, hpalLen, by omega, hlen.ge, hfits⟩

/-- A sample of a file row, read back (R135, R140). -/
theorem bmpSample_bmpFile {r x : Nat} (hr : r < P.h) (hx : x < P.w) :
    bmpSample (bmpFile P td) (54 + 4 * P.palLen + r * stride P.depth P.w) x P.depth =
      P.px x (if td then r else P.h - 1 - r) := by
  obtain ⟨Y, hexec, hrows⟩ := encbmpWritesTheRows s bd fa td P hb hp hwf (stride P.depth P.w) _ rfl rfl hcap hlt
  obtain rfl := eq_bmpFile_of_exec hb hp hcap hlt hexec
  obtain ⟨hsamples, -⟩ := hrows r hr _ _ rfl rfl
  generalize 54 + 4 * P.palLen + r * stride P.depth P.w = rb at *
  obtain ⟨w1, w4, w8, w24, w32⟩ := hsamples x hx
  obtain ⟨r1, r4, r8, r24, r32⟩ := bmpSample_eq (bmpFile P td) rb x
  cases hd : P.depth with
  | d1 => exact r1.trans (w1 hd)
  | d4 => exact r4.trans (w4 hd)
  | d8 => exact r8.trans (w8 hd)
  | d24 =>
    obtain ⟨hblue, hgreen, hred⟩ := w24 hd
    rw [r24, hblue, hgreen, hred]
    omega
  | d32 => exact r32.trans (w32 hd)

/-- What ENCBMP writes holds the frame (R140). -/
theorem bmpFrame_bmpFile : bmpFrame (bmpFile P td) P.depth = P := by
  obtain ⟨h10, h18, h22, -, h46⟩ := bmpFile_readBack hb hp hwf hcap hlt (td := td)
  obtain ⟨-, -, -, -, hdata, -⟩ := frame_wf_iff.mp hwf
  have hw : (i32le (bmpFile P td) 18).toNat = P.w := by rw [h18, Int.toNat_natCast]
  have hh : (i32le (bmpFile P td) 22).natAbs = P.h := by rw [h22, natAbs_writtenHeight]
  refine frame_eq_of_px ((bmpFrame_w ..).trans hw) ((bmpFrame_h ..).trans hh) (bmpFrame_depth ..) ?_
    (length_bmpFrame_data ..) hdata fun x y hx hy => ?_
  · rw [bmpFrame_pal, h46, bmpPalLen_palLen hwf]
    exact List.ext_getElem (length_tab ..) fun i hi hi' =>
      (getElem_tab ..).trans (bmpPalEntry_bmpFile td (List.getElem?_eq_getElem hi'))
  · obtain ⟨hrow, hy'⟩ := bmpFileRow_of_written td hy
    rw [bmpFrame_px (by rwa [hw]) (by rwa [hh]), hw, hh, h10, h22, bmpSample_bmpFile hb hp hwf hcap hlt hrow hx, hy']

end

/-- Settles O36: the file written is accepted (`bmpFile_accepted`), and its frame is the one it was written from
(`bmpFrame_bmpFile`). -/
theorem decbmpOfEncbmpIsTheFrame : Obligations.DecbmpOfEncbmpIsTheFrame := by
  intro s t bd fa fd td P hinv hp hf he herr
  obtain ⟨hb, hcap, hlt, rfl⟩ := encbmp_of_success hp he herr
  have hwf := wf_of_frame? hinv.mem hp
  have hX : (succeed (s.setBuf bd (bmpFile P td))).mem.buf? bd = some (bmpFile P td) := setBuf_buf?_same _ _ _ hb
  refine ⟨_, exec_decbmp_accepted hf hX (bmpFile_accepted (s := s) hb hp hwf hcap hlt), rfl, ?_⟩
  rw [bmpFrame_bmpFile hb hp hwf hcap hlt]
  exact setFrame_frame?_same _ _ _ hf

end Sys2Proof.Machine

/-! PROOFS. The errors of DECPCX before its image data (spec 41_pcx_codec R152 to R156, R160, 60_exceptions R268). -/

namespace Sys2Proof.Machine

/-- The width against a number of bytes per line, without the model's signed numbers (41_pcx_codec R154, R155). -/
theorem pcxWidth_le {X : Buffer} (h : u16le X 4 ≤ u16le X 8) {n : Nat} :
    pcxWidth X ≤ n ↔ u16le X 8 - u16le X 4 + 1 ≤ n := by
  rw [← pcxWidth_toNat h, Int.toNat_le]

/-- DECPCX of a slot that exists ends with the error its checks meet (41_pcx_codec R151, 60_exceptions R270). -/
theorem exec_decpcx_error {s : State} {fd ba : Nat} {X : Buffer} {d : Detail} (hf : fd < s.nFslot)
    (hX : s.mem.buf? ba = some X) (h : decodePcx s.params X = .error d) :
    exec (.decpcx fd ba) s = .next (raise d s) := by
  rw [exec_decpcx hf hX, h, storeFrame_error, conclude_error]

/-- Settles O39: `hends` says that the checks still to come decide the end; each clause fails the first of them, and
behind it that check is passed (`need_pos`). -/
theorem decpcxErrorsInOrder : Obligations.DecpcxErrorsInOrder := by
  intro s fd ba X hf hX
  have hends (e : Detail) : decodePcx s.params X = .error e → exec (.decpcx fd ba) s = .next (raise e s) :=
    exec_decpcx_error hf hX
  unfold decodePcx at hends
  refine ⟨fun h => hends _ (need_neg ?_), fun hlen hid => ?_⟩
  · rintro ⟨hlen, hid⟩
    exact h.elim hlen.not_gt (· hid)
  rw [need_pos ⟨hlen, hid⟩] at hends
  refine ⟨fun h => hends _ (need_neg h.not_ge), fun hfile => ?_⟩
  rw [need_pos hfile] at hends
  refine ⟨fun h => hends _ (need_neg h), fun hrle h => ?_, fun hrle h8 h => ?_, fun hrle h8 hplane => ?_⟩
  · rw [need_pos hrle] at hends
    exact hends _ (need_neg h)
  · rw [need_pos hrle, need_pos h8] at hends
    exact hends _ (need_neg h)
  rw [need_pos hrle, need_pos h8, need_pos hplane] at hends
  refine ⟨fun h => hends _ (need_neg ?_), fun hx hy => ?_⟩
  · rintro ⟨hw, hh⟩
    exact h.elim (pcxWidth_pos.mp hw).not_gt (pcxHeight_pos.mp hh).not_gt
  rw [need_pos ⟨pcxWidth_pos.mpr hx, pcxHeight_pos.mpr hy⟩] at hends
  refine ⟨fun h => hends _ (need_neg (mt (pcxWidth_le hx).mp h.not_ge)), fun hline => ?_⟩
  rw [need_pos ((pcxWidth_le hx).mpr hline)] at hends
  refine ⟨fun h => hends _ (need_neg h), fun hmarker hfits => ?_⟩
  rw [need_pos hmarker] at hends
  exact hends _ (need_neg (by simp [pcxWidth_toNat hx, pcxHeight_toNat hy, hfits]))

end Sys2Proof.Machine

/-! PROOFS. What GRAY, BORDER, ROT90, SCALE and OVERLAY compute (spec 42_transform R170 to R205). -/

namespace Sys2Proof.Machine

/-- A command that ends without an error has committed (60_exceptions R272). -/
theorem committed_of_success {i : Instr} {s t : State} (he : exec i s = .next t) (herr : t.status.err = false) :
    ∃ u, Committed i s u ∧ t = succeed u := by
  rcases exec_next he with ⟨d, -, rfl⟩ | h
  · simp at herr
  · exact h

section
variable {s : State} {fd fa : Nat} {P : Frame} (hf : fd < s.nFslot) (hp : s.mem.frame? fa = some P)
include hf hp

/-- GRAY with slots that exist and a valid source stores the grey frame (42_transform R175). -/
theorem exec_gray : exec (.gray fd fa) s = conclude s (storeFrame s fd (grayFrame P)) := by
  have ha : fa < s.nFslot := lt_of_frame? hp
  simp [exec, execGray, needSlots_eq, need_pos, hf, ha, withFrame_some hp]

/-- BORDER, likewise, at a depth it does not accept (R171). -/
theorem exec_border_refused (hn : borderBytes P.depth = none) :
    exec (.border fd fa) s = .next (raise .depthNotAccepted s) := by
  have ha : fa < s.nFslot := lt_of_frame? hp
  simp [exec, execBorder, needSlots_eq, need_pos, hf, ha, withFrame_some hp, hn]

/-- BORDER, likewise, at a depth it accepts (R180). -/
theorem exec_border_accepted {nb : Nat} (hn : borderBytes P.depth = some nb) : exec (.border fd fa) s = conclude s
    (need (frameFits s.params (P.w + 2 * Config.borderW) (P.h + 2 * Config.borderW)) .capacityExceeded <|
      .ok ((s.setFrame fd (borderFrame P nb s.ent)).drawEntropy (borderDraw P nb))) := by
  have ha : fa < s.nFslot := lt_of_frame? hp
  simp [exec, execBorder, needSlots_eq, need_pos, hf, ha, withFrame_some hp, hn]

/-- ROT90, likewise (R185). -/
theorem exec_rot90 : exec (.rot90 fd fa) s = conclude s (storeFrame s fd (rot90Frame P)) := by
  have ha : fa < s.nFslot := lt_of_frame? hp
  simp [exec, execRot90, needSlots_eq, need_pos, hf, ha, withFrame_some hp]

/-- SCALE, likewise, with a legal factor (R190). -/
theorem exec_scale (ho : s.arg0 ≠ 0 ∧ s.arg1 ≠ 0) : exec (.scale fd fa) s =
    conclude s (storeFrame s fd (scaleFrame s.params P s.arg0.toNat s.arg1.toNat)) := by
  have ha : fa < s.nFslot := lt_of_frame? hp
  simp only [exec, execScale, needSlots_eq]
  rw [need_pos (by simp [hf, ha]), withFrame_some hp, need_pos ho]

/-- OVERLAY, likewise, with a second source and a legal weight (R200). -/
theorem exec_overlay {fb : Nat} {L : Frame} (hl : s.mem.frame? fb = some L)
    (ho : s.arg1 ≠ 0 ∧ s.arg0.toNat ≤ s.arg1.toNat) : exec (.overlay fd fa fb) s =
    conclude s (storeFrame s fd (overlayFrame P L s.arg0.toNat s.arg1.toNat)) := by
  have ha : fa < s.nFslot := lt_of_frame? hp
  have hb : fb < s.nFslot := lt_of_frame? hl
  simp only [exec, execOverlay, needSlots_eq]
  rw [need_pos (by simp [hf, ha, hb]), withFrame_some hp, withFrame_some hl, need_pos ho]

end

/-! ### GRAY -/

/-- The luma as one floor (R176, 00_scope R11). -/
theorem luma_eq_floor (c : Colour) : luma c = (299 * c.r.toNat + 587 * c.g.toNat + 114 * c.b.toNat + 500) / 1000 := by
  simp only [luma, rhu, Config.lumaR, Config.lumaG, Config.lumaB]
  omega

/-- Settles O40: each entry of the mapped palette is `greyOf` of the old one, whose components are its luma. -/
theorem grayReplacesThePalette : Obligations.GrayReplacesThePalette := by
  intro s fd fa P hf _ hp
  refine ⟨fun hd => ⟨P.pal.map greyOf, exec_of_committed (.gray hf hp (grayFrame_ok.mpr ⟨hd, rfl⟩)), List.length_map ..,
    fun i c hc => ⟨greyOf c, by rw [List.getElem?_map, hc, Option.map_some], rfl, rfl, ?_⟩⟩, fun hd => ?_⟩
  · rw [← luma_eq_floor]
    exact Nat.mod_eq_of_lt (luma_lt c)
  · rw [exec_gray hf hp, grayFrame, need_neg hd, storeFrame_error, conclude_error]

/-- The frame of GRAY is its own grey frame (R177). -/
theorem grayFrame_idem {P Q : Frame} (h : grayFrame P = .ok Q) : grayFrame Q = .ok Q := by
  obtain ⟨hd, rfl⟩ := grayFrame_ok.mp h
  exact grayFrame_ok.mpr ⟨hd, by simp [Function.comp_def, greyOf_greyOf]⟩

/-- Settles O41: the second GRAY reads the frame the first one stored, and that frame is its own grey frame. -/
theorem grayTwiceIsGrayOnce : Obligations.GrayTwiceIsGrayOnce := by
  intro s t u fa fd fe hfe ht herr hu
  obtain ⟨_, hcommit, rfl⟩ := committed_of_success ht herr
  cases hcommit with
  | @gray _ _ _ P Q hf hp hq =>
    have hQ : (succeed (s.setFrame fd Q)).mem.frame? fd = some Q := setFrame_frame?_same _ _ _ hf
    have hfe' : fe < (succeed (s.setFrame fd Q)).nFslot := (setFrame_nFslot s fd Q).symm ▸ hfe
    have hu' := exec_of_committed (.gray hfe' hQ (grayFrame_idem hq))
    obtain rfl := Host.Outcome.next.inj (hu.symm.trans hu')
    exact ⟨rfl, (setFrame_frame?_same _ _ _ hfe').trans hQ.symm⟩

/-! ### BORDER -/

/-- BORDER accepts every depth but 1 and 4 (R180, R184). -/
theorem borderBytes_eq_some {d : Depth} (h1 : d ≠ .d1) (h4 : d ≠ .d4) : ∃ nb, borderBytes d = some nb := by
  cases d with
  | d1 => exact absurd rfl h1
  | d4 => exact absurd rfl h4
  | d8 | d24 | d32 => exact ⟨_, rfl⟩

/-- Settles O43: depths 1 and 4 have no `borderBytes`; at the others the size is checked. -/
theorem borderErrorsInOrder : Obligations.BorderErrorsInOrder := by
  intro s fd fa P hf _ hp
  refine ⟨fun hd => exec_border_refused hf hp ?_, fun h1 h4 hfit => ?_⟩
  · obtain hd | hd := hd <;> rw [hd] <;> rfl
  · obtain ⟨nb, hn⟩ := borderBytes_eq_some h1 h4
    rw [exec_border_accepted hf hp hn, need_neg (by simp [Config.borderW, hfit]), conclude_error]

/-! ### ROT90 -/

/-- The frame of ROT90 (R185). -/
def rotated (P : Frame) : Frame :=
  { w := P.h, h := P.w, depth := .d24, pal := [], data := raster P.h P.w fun x' y' => P.px (P.w - 1 - y') x' }

theorem rot90Frame_d24 {P : Frame} (h : P.depth = .d24) : rot90Frame P = .ok (rotated P) :=
  rot90Frame_ok.mpr ⟨h, rfl⟩

theorem length_rotated (P : Frame) : (rotated P).data.length = P.h * P.w := by simp [rotated]

/-- A pixel of the rotated frame, in pull form (R186). -/
theorem px_rotated {P : Frame} {x y : Nat} (hx : x < P.h) (hy : y < P.w) :
    (rotated P).px x y = P.px (P.w - 1 - y) x := px_raster hx hy

/-- Two rotations are a half turn (R187). -/
theorem px_rotated_rotated {P : Frame} {x y : Nat} (hx : x < P.w) (hy : y < P.h) :
    (rotated (rotated P)).px x y = P.px (P.w - 1 - x) (P.h - 1 - y) :=
  (px_rotated (P := rotated P) hx hy).trans (px_rotated (show P.h - 1 - y < P.h by omega) hx)

/-- Two half turns give the frame back (R187). -/
theorem rotated_four {P : Frame} (hd : P.depth = .d24) (hpal : P.pal = []) (hlen : P.data.length = P.w * P.h) :
    rotated (rotated (rotated (rotated P))) = P := by
  refine frame_eq_of_px rfl rfl hd.symm hpal.symm (length_rotated _) hlen fun x y hx hy => ?_
  calc (rotated (rotated (rotated (rotated P)))).px x y
      = (rotated (rotated P)).px (P.w - 1 - x) (P.h - 1 - y) := px_rotated_rotated (P := rotated (rotated P)) hx hy
    _ = P.px (P.w - 1 - (P.w - 1 - x)) (P.h - 1 - (P.h - 1 - y)) := px_rotated_rotated (by omega) (by omega)
    _ = P.px x y := by
      rw [show P.w - 1 - (P.w - 1 - x) = x by omega, show P.h - 1 - (P.h - 1 - y) = y by omega]

/-- Settles O44: the pull form is `px_rotated`, and the push form is the pull form at the target. -/
theorem rotNinetyMovesEveryPixel : Obligations.RotNinetyMovesEveryPixel := by
  intro s fd fa P hf _ hp
  refine ⟨fun hd => ⟨rotated P, exec_of_committed (.rot90 hf hp (rot90Frame_d24 hd)), rfl, rfl, rfl, rfl, ?_,
    fun x y hx hy => ?_, fun x' y' hx hy => px_rotated hx hy⟩, fun hd => ?_⟩
  · exact (length_rotated P).trans (Nat.mul_comm ..)
  · calc (rotated P).px y (P.w - 1 - x) = P.px (P.w - 1 - (P.w - 1 - x)) y := px_rotated hy (by omega)
      _ = P.px x y := by rw [show P.w - 1 - (P.w - 1 - x) = x by omega]
  · rw [exec_rot90 hf hp, rot90Frame, need_neg hd, storeFrame_error, conclude_error]

/-- ROT90 in place succeeds and leaves the rotated frame (R185). -/
theorem rot90_in_place {s t : State} {f : Nat} {P : Frame} (hp : s.mem.frame? f = some P) (hd : P.depth = .d24)
    (h : exec (.rot90 f f) s = .next t) : t.status.err = false ∧ t.mem.frame? f = some (rotated P) := by
  have hf : f < s.nFslot := lt_of_frame? hp
  have hexec := exec_of_committed (.rot90 hf hp (rot90Frame_d24 hd))
  obtain rfl := Host.Outcome.next.inj (h.symm.trans hexec)
  exact ⟨rfl, setFrame_frame?_same _ _ _ hf⟩

/-- A 24-bit frame has no palette (10_state R31). -/
theorem pal_eq_nil_of_d24 {p : Params} {P : Frame} (h : P.wf p = true) (hd : P.depth = .d24) : P.pal = [] := by
  obtain ⟨-, -, -, hpal, -⟩ := frame_wf_iff.mp h
  rw [hd, if_neg (by decide)] at hpal
  exact List.length_eq_zero_iff.mp hpal

/-- Settles O45: each step leaves the rotated frame in the slot, and four rotations are the identity. -/
theorem fourRotationsAreTheIdentity : Obligations.FourRotationsAreTheIdentity := by
  intro s a b c d f P hp hwf hd ha hb hc hd'
  obtain ⟨-, -, -, -, hlen, -⟩ := frame_wf_iff.mp hwf
  obtain ⟨-, h1⟩ := rot90_in_place hp hd ha
  obtain ⟨-, h2⟩ := rot90_in_place h1 rfl hb
  obtain ⟨-, h3⟩ := rot90_in_place h2 rfl hc
  obtain ⟨herr, h4⟩ := rot90_in_place h3 rfl hd'
  exact ⟨herr, by rw [h4, rotated_four hd (pal_eq_nil_of_d24 hwf hd) hlen]⟩

/-! ### SCALE -/

/-- Settles O46: each clause fails the first check that is left, or passes them all. -/
theorem scaleSamplesTheNearestPixel : Obligations.ScaleSamplesTheNearestPixel := by
  intro s fd fa num den W H P hf _ hp hnum hden h1 h1' hW hH
  subst hnum hden
  obtain rfl : W = rhu (P.w * s.arg0.toNat) s.arg1.toNat := hW
  obtain rfl : H = rhu (P.h * s.arg0.toNat) s.arg1.toNat := hH
  have ho : s.arg0 ≠ 0 ∧ s.arg1 ≠ 0 := ⟨word_ne_zero_iff.mpr (by omega), word_ne_zero_iff.mpr (by omega)⟩
  have hends {e : Detail} (h : scaleFrame s.params P s.arg0.toNat s.arg1.toNat = .error e) :
      exec (.scale fd fa) s = .next (raise e s) := by
    rw [exec_scale hf hp ho, h, storeFrame_error, conclude_error]
  refine ⟨fun hd => hends (need_neg hd), fun hd h0 => hends ?_, fun hd hw hh hfit => hends ?_, fun hd hw hh hfit => ?_⟩
  · rw [scaleFrame, need_pos hd, need_neg]
    rintro ⟨hw, hh⟩
    exact h0.elim hw hh
  · rw [scaleFrame, need_pos hd, need_pos ⟨hw, hh⟩, need_neg (by simp [hfit])]
  · exact ⟨_, exec_of_committed (.scale hf hp ho (scaleFrame_ok.mpr ⟨hd, ⟨hw, hh⟩, hfit, rfl⟩)), rfl, rfl, hd, rfl,
      by simp, fun x y hx hy => px_raster hx hy⟩

/-- Settles O47: `x` below the rounded size says `(2x + 1)·den ≤ 2·w·num`, so `x·den/num` is below `w` (R192). -/
theorem scaleClampNeverActs : Obligations.ScaleClampNeverActs := by
  intro w num den x hw hnum hden hx
  have hbound : (x + 1) * (2 * den) ≤ 2 * (w * num) + den := (Nat.le_div_iff_mul_le (by omega)).mp hx
  have hlt : x * den < w * num := by linarith
  have hle : x * den / num ≤ w - 1 := Nat.le_sub_one_of_lt ((Nat.div_lt_iff_lt_mul hnum).mpr hlt)
  exact ⟨hle, Nat.min_eq_left hle⟩

/-! ### OVERLAY -/

/-- Where no logo pixel lands the background stays (R204). -/
theorem overlayPixel_of_none {G L : Frame} {num den x y : Nat} (h : logoAt G L x y = none) :
    overlayPixel G L num den x y = G.px x y := by
  rw [overlayPixel, h]

/-- Where one lands, it is the key or it is blended (R202). -/
theorem overlayPixel_of_some {G L : Frame} {num den x y p : Nat} (h : logoAt G L x y = some p) :
    overlayPixel G L num den x y = if p = L.px 0 0 then G.px x y else blendSample num den (G.px x y) p := by
  rw [overlayPixel, h]

/-- Settles O48: `logoAt` finds the aligned logo pixel, and `overlayPixel` blends it. -/
theorem overlayBlendsTheLogo : Obligations.OverlayBlendsTheLogo := by
  intro s fd fa fb num den G L hf _ _ hg hl hnum hden h1 hle
  subst hnum hden
  have ho : s.arg1 ≠ 0 ∧ s.arg0.toNat ≤ s.arg1.toNat := ⟨word_ne_zero_iff.mpr (by omega), hle⟩
  refine ⟨fun hd => ?_, fun hG hL =>
    ⟨_, exec_of_committed (.overlay hf hg hl ho (overlayFrame_ok.mpr ⟨⟨hG, hL⟩, rfl⟩)), rfl, rfl, rfl, rfl,
      length_raster .., ?_⟩⟩
  · rw [exec_overlay hf hg hl ho, overlayFrame, need_neg (not_and_or.mpr hd), storeFrame_error, conclude_error]
  · rintro x y hx hy _ _ rfl rfl
    rw [px_raster hx hy]
    refine ⟨fun hnone => overlayPixel_of_none (logoAt_none hnone), fun lx ly hlx hly ex ey => ?_⟩
    rw [overlayPixel_of_some (logoAt_some hlx hly ex ey)]
    exact ⟨fun hkey => if_pos hkey, fun hkey => if_neg hkey⟩

/-- A blend grows with both channel values (R203). -/
theorem blend_mono {num den a a' c c' : Nat} (ha : a ≤ a') (hc : c ≤ c') : blend num den a c ≤ blend num den a' c' :=
  rhu_mono (Nat.add_le_add (Nat.mul_le_mul_right _ ha) (Nat.mul_le_mul_right _ hc))

/-- Equal channel values blend to themselves (R203, R205). -/
theorem blend_self {num den : Nat} (hd : 1 ≤ den) (hn : num ≤ den) (a : Nat) : blend num den a a = a := by
  rw [blend, ← Nat.mul_add, Nat.add_sub_cancel' hn, rhu_mul_self hd]

/-- Settles O49: the blend lies between those of the smaller and of the larger value with itself. -/
theorem blendStaysBetween : Obligations.BlendStaysBetween := by
  intro num den a c hd hn
  refine ⟨?_, ?_, ?_, ?_⟩
  · calc min a c = blend num den (min a c) (min a c) := (blend_self hd hn _).symm
      _ ≤ blend num den a c := blend_mono (min_le_left a c) (min_le_right a c)
  · calc blend num den a c ≤ blend num den (max a c) (max a c) := blend_mono (le_max_left a c) (le_max_right a c)
      _ = max a c := blend_self hd hn _
  · rw [blend, Nat.sub_self, Nat.mul_zero, Nat.add_zero, rhu_mul_self hd]
  · rw [blend, Nat.mul_zero, Nat.zero_add, Nat.sub_zero, rhu_mul_self hd]

/-- On a frame laid over itself every pixel meets itself (R201, R205). -/
theorem logoAt_self {P : Frame} {x y : Nat} (hx : x < P.w) (hy : y < P.h) : logoAt P P x y = some (P.px x y) :=
  logoAt_some hx hy (by simp [overlayOffset]) (by simp [overlayOffset])

/-- A pixel laid over itself is unchanged, whether it is the key or blended (R205). -/
theorem overlayPixel_self {P : Frame} {num den x y : Nat} (hd : 1 ≤ den) (hn : num ≤ den) (hx : x < P.w) (hy : y < P.h)
    (hv : P.px x y < 2 ^ 24) : overlayPixel P P num den x y = P.px x y := by
  rw [overlayPixel_of_some (logoAt_self hx hy)]
  split
  · rfl
  · rw [blendSample, blend_self hd hn, blend_self hd hn, blend_self hd hn, sample24_channels hv]

/-- Settles O50: the command committed a frame of the same size, whose pixels are the source's. -/
theorem overlayOfAFrameOnItself : Obligations.OverlayOfAFrameOnItself := by
  intro s t fd f P hp hwf _ he herr
  obtain ⟨_, hcommit, rfl⟩ := committed_of_success he herr
  cases hcommit with
  | overlay hf hg hl ho hr =>
    obtain rfl := Option.some.inj (hp.symm.trans hg)
    obtain rfl := Option.some.inj (hp.symm.trans hl)
    obtain ⟨⟨hd, -⟩, rfl⟩ := overlayFrame_ok.mp hr
    obtain ⟨hden, hle⟩ := ho
    obtain ⟨-, -, -, -, hlen, -⟩ := frame_wf_iff.mp hwf
    refine (setFrame_frame?_same _ _ _ hf).trans (congrArg some ?_)
    refine frame_eq_of_px rfl rfl hd.symm (pal_eq_nil_of_d24 hwf hd).symm (length_raster ..) hlen fun x y hx hy => ?_
    have hv := px_lt hwf x y
    rw [hd] at hv
    exact (px_raster hx hy).trans
      (overlayPixel_self (Nat.one_le_iff_ne_zero.mpr (word_ne_zero_iff.mp hden)) hle hx hy hv)

end Sys2Proof.Machine

/-! PROOFS. EXTRACT of EMBED (spec 43_stego R218). -/

namespace Sys2Proof.Machine

/-- A buffer is known by its length and its bits, most significant first in each byte (30_encoding R109). -/
theorem buffer_eq_of_bits {X Y : Buffer} (hlen : X.length = Y.length)
    (h : ∀ t < 8 * X.length, (byteAt X (t / 8)).getLsbD (7 - t % 8) = (byteAt Y (t / 8)).getLsbD (7 - t % 8)) :
    X = Y := by
  refine List.ext_getElem hlen fun k hX hY => ?_
  rw [← byteAt_eq_getElem hX, ← byteAt_eq_getElem hY]
  refine BitVec.eq_of_getLsbD_eq fun i hi => ?_
  obtain ⟨t, rfl, rfl, ht⟩ : ∃ t, t / 8 = k ∧ 7 - t % 8 = i ∧ t < 8 * X.length :=
    ⟨8 * k + (7 - i), by omega, by omega, by omega⟩
  exact h t ht

section
variable {hw : HeaderWidth} {b : Nat} {C P : Buffer}
  (hb : 1 ≤ b) (hb' : b < 8) (hfit : headerBytes hw b + payloadBytes P.length b ≤ C.length)
include hb hb' hfit

/-- An embedded container states the payload's length (43_stego R212, R216). -/
theorem statedLength_embedBytes (hL : P.length < 2 ^ headerBits hw) :
    statedLength hw b (embedBytes hw b C P) = P.length :=
  statedLength_eq hb hb' hL fun t ht => by
    rw [embedBytes_header_bit hb hb' hfit (ht.trans_le (le_ceilDiv_mul _ hb)), decide_eq_true ht, Bool.true_and]

/-- An embedded container hides the payload (43_stego R213, R216). -/
theorem hiddenBytes_embedBytes : hiddenBytes hw b P.length (embedBytes hw b C P) = P := by
  refine buffer_eq_of_bits (length_hiddenBytes ..) fun t ht => ?_
  rw [length_hiddenBytes] at ht
  rw [getLsbD_hiddenBytes hb hb' _ ht, embedBytes_payload_bit hb hb' hfit (ht.trans_le (le_ceilDiv_mul _ hb)),
    decide_eq_true ht, Bool.true_and]

end

/-- What EMBED hides, EXTRACT reads back, with both checks of R217 passed (43_stego R218). -/
theorem extract_of_embed {hw : HeaderWidth} {b : Nat} {C P Y : Buffer} (hb : 1 ≤ b) (hb' : b < 8)
    (h : embed hw b C P = .ok Y) : extract hw b Y = .ok P := by
  obtain ⟨hL, hfit, rfl⟩ := embed_ok.mp h
  have hstated := statedLength_embedBytes hb hb' hfit hL
  rw [extract_ok, hstated, length_embedBytes, hiddenBytes_embedBytes hb hb' hfit]
  exact ⟨(Nat.le_add_right ..).trans hfit, hfit, rfl⟩

/-- Settles O53: EMBED committed its container, from which EXTRACT commits the payload by `extract_of_embed`. -/
theorem extractOfEmbedIsThePayload : Obligations.ExtractOfEmbedIsThePayload := by
  intro s t bd ba bb be imm3 P hP hbe he herr
  obtain ⟨_, hcommit, rfl⟩ := committed_of_success he herr
  cases hcommit with
  | @embed _ _ _ _ _ C P' Y hd _ hP' ho hr =>
    obtain rfl := Option.some.inj (hP.symm.trans hP')
    obtain ⟨hb, hb'⟩ := bitsPerByte_of_imm3Legal ho
    have hbe' : be < (succeed (s.setBuf bd Y)).nBslot := (setBuf_nBslot s bd Y).symm ▸ hbe
    have hY : (succeed (s.setBuf bd Y)).mem.buf? bd = some Y := setBuf_buf?_same _ _ _ hd
    exact ⟨_, exec_of_committed (.extract hbe' hY ho (extract_of_embed hb hb' hr)), rfl, setBuf_buf?_same _ _ _ hbe'⟩

end Sys2Proof.Machine

/-! PROOFS. What a successful QUANT commits, its counters and the colours it keeps (spec 44_quantizer R242 to R250). -/

namespace Sys2Proof.Machine

/-- A QUANT that ends without an error passed its checks on the source, and its commit is the next state (R241). -/
theorem quantCommit_of_success {s t : State} {fd fa bb : Nat} {P : Frame} (hp : s.mem.frame? fa = some P)
    (he : exec (.quant fd fa bb) s = .next t) (herr : t.status.err = false) :
    fd < s.nFslot ∧ 1 ≤ s.arg0.toNat ∧ P.depth = .d8 ∧ t = succeed (quantCommit s fd bb P s.arg0.toNat) := by
  obtain ⟨_, hcommit, rfl⟩ := committed_of_success he herr
  cases hcommit with
  | quant hf _ hp' ho hd =>
    obtain rfl := Option.some.inj (hp.symm.trans hp')
    exact ⟨hf, ho.1, hd, rfl⟩

/-- A well-formed 8-bit frame has a palette, and bytes as samples (10_state R31). -/
theorem bounds_of_wf_d8 {p : Params} {P : Frame} (h : P.wf p = true) (hd : P.depth = .d8) :
    1 ≤ P.palLen ∧ P.palLen ≤ 256 ∧ ∀ v ∈ P.data, v < 256 := by
  obtain ⟨-, -, -, hpal, -, hdata⟩ := frame_wf_iff.mp h
  rw [hd] at hpal hdata
  exact ⟨hpal.1, hpal.2, hdata⟩

/-! ### The counters -/

theorem sum_tab (n : Nat) (f : Nat → Nat) : (tab n f).sum = ∑ i ∈ Finset.range n, f i := rfl

/-- Every sample is counted once (R242). -/
theorem sum_histogram {data : List Nat} (h : ∀ v ∈ data, v < 256) : (histogram data).sum = data.length :=
  calc (histogram data).sum
    _ = ∑ i ∈ Finset.range 256, data.count i := sum_tab 256 _
    _ = ∑ i ∈ Finset.range 256, (data : Multiset Nat).count i := by simp only [Multiset.coe_count]
    _ = data.length := Multiset.sum_count_eq_card fun v hv => Finset.mem_range.mpr (h v hv)

/-- Settles O57: the committed table is the histogram of the source, whose samples are bytes. -/
theorem histogramCountsEveryPixel : Obligations.HistogramCountsEveryPixel := by
  intro s t fd fa bb P hp hwf he herr
  obtain ⟨-, -, hd, rfl⟩ := quantCommit_of_success hp he herr
  obtain ⟨-, -, -, -, hlen, -⟩ := frame_wf_iff.mp hwf
  obtain ⟨-, -, hbyte⟩ := bounds_of_wf_d8 hwf hd
  exact ⟨length_histogram _, fun i hi => getElem?_tab_lt _ hi, (sum_histogram hbyte).trans hlen⟩

/-! ### The most used colour -/

/-- The first candidate is a most used index, the lowest of them (R243). -/
theorem candidates_head {data : List Nat} {n : Nat} (h1 : 1 ≤ n) (h256 : n ≤ 256) :
    ∃ i rest, candidates (histogram data) n = i :: rest ∧ i < n ∧
      ∀ j < n, data.count j < data.count i ∨ (data.count j = data.count i ∧ i ≤ j) := by
  have hmem {j : Nat} : j ∈ candidates (histogram data) n ↔ j < n :=
    (candidates_perm ..).mem_iff.trans List.mem_range
  obtain ⟨i, rest, hcand⟩ := List.exists_cons_of_length_pos ((length_candidates (histogram data) n).symm ▸ h1)
  have hi : i < n := hmem.mp (hcand ▸ List.mem_cons_self)
  refine ⟨i, rest, hcand, hi, fun j hj => ?_⟩
  rcases List.mem_cons.mp (hcand ▸ hmem.mpr hj) with rfl | hrest
  · exact .inr ⟨rfl, Nat.le_refl _⟩
  · have hbefore := List.rel_of_pairwise_cons (hcand ▸ candidates_sorted (histogram data) n) hrest
    rw [histogram_getD _ (by omega), histogram_getD _ (by omega)] at hbefore
    omega

/-- The first candidate colour is taken first: nothing is near it yet (R244). -/
theorem newPalette_first {K : Nat} (hK : 1 ≤ K) (c : Colour) (cs : List Colour) :
    (newPalette K (c :: cs))[0]? = some c := by
  have hroom : ([] : List Colour).length ≠ K := Nat.ne_of_lt hK
  have hfar : farFromAll [] c = true := rfl
  have hgreedy : takeColours K farFromAll [] (c :: cs) = takeColours K farFromAll [c] cs := by
    rw [takeColours, if_neg hroom, if_pos hfar, List.nil_append]
  have hprefix : [c] <+: newPalette K (c :: cs) := by
    rw [newPalette, chosenColours, hgreedy]
    exact ((takeColours_keeps ..).trans (takeColours_keeps ..)).trans (List.prefix_append ..)
  obtain ⟨rest, hrest⟩ := hprefix
  rw [← hrest]
  rfl

/-! ### Kept colours -/

theorem sqDiff_eq_zero {a b : Byte} : sqDiff a b = 0 ↔ a = b := by
  rw [sqDiff, Nat.pow_eq_zero, Int.natAbs_eq_zero, ← BitVec.toNat_inj]
  omega

/-- Colours at distance 0 are equal (R15). -/
theorem d2_eq_zero {p q : Colour} : d2 p q = 0 ↔ p = q := by
  cases p
  cases q
  simp only [d2, Nat.add_eq_zero_iff, sqDiff_eq_zero, Colour.mk.injEq, and_assoc]

/-- A palette colour that is in the new palette is mapped to an entry of that colour (R250). -/
theorem indexTable_kept {pal np : List Colour} {i j : Nat} {c : Colour} (hc : pal[i]? = some c) (hmem : c ∈ np)
    (hj : (indexTable pal np)[i]? = some j) : np[j]? = some c := by
  have hi : i < 256 := length_indexTable pal np ▸ (List.getElem?_eq_some_iff.mp hj).1
  obtain ⟨_, q, hj', hq, hnearest⟩ := indexTable_nearest (List.ne_nil_of_mem hmem) hi hc
  obtain rfl := Option.some.inj (hj.symm.trans hj')
  obtain ⟨k, hk⟩ := List.mem_iff_getElem?.mp hmem
  have hle : d2 c q ≤ d2 c c := (hnearest k c hk).1
  rw [d2_eq_zero.mpr rfl, Nat.le_zero, d2_eq_zero] at hle
  rw [hq, hle]

/-- Settles O58: K entries and indices below K, the first candidate in front, and kept colours at distance 0. -/
theorem quantKeepsTheMostUsedColour : Obligations.QuantKeepsTheMostUsedColour := by
  intro s t fd fa bb P Q hp hwf he herr hQ
  obtain ⟨hf, hK, hd, rfl⟩ := quantCommit_of_success hp he herr
  obtain ⟨h1, h256, -⟩ := bounds_of_wf_d8 hwf hd
  obtain rfl : quantFrame P s.arg0.toNat = Q := Option.some.inj ((setFrame_frame?_same _ _ _ hf).symm.trans hQ)
  refine ⟨length_quantPalette .., fun v hv => ?_, ?_, fun i j c hc hmem hj => indexTable_kept hc hmem hj⟩
  · obtain ⟨w, -, rfl⟩ := List.mem_map.mp hv
    exact (indexTable_getD_lt (quantPalette_ne_nil hK) w).trans_eq (length_quantPalette ..)
  · obtain ⟨i, rest, hcand, hi, hmost⟩ := candidates_head (data := P.data) h1 h256
    refine ⟨i, ?_, hi, hmost⟩
    rw [quantFrame, quantPalette, hcand, List.map_cons, newPalette_first hK, List.getD_eq_getElem _ _ hi,
      List.getElem?_eq_getElem hi]

end Sys2Proof.Machine

/-! PROOFS. How a command ends, and the codes of the errors (spec 60_exceptions R261, R262, R270 to R274). -/

namespace Sys2Proof.Machine

/-! ### The codes -/

/-- The rows of the table of 60_exceptions R262, in its order. -/
def causes : List Detail :=
  [.noError, .notBmSignature, .badBmpGeometry, .notPcxId, .noPaletteMarker, .badPcxGeometry, .compressedBmp,
    .badBmpDepth, .paletteTooLong, .pcxNotRle, .pcxNotEightBit, .pcxNotOnePlane, .depthNotAccepted, .containerTooSmall,
    .bmpHeaderShort, .bmpPaletteShort, .bmpRowsShort, .pcxFileShort, .pcxDataExhausted, .pcxLineTooNarrow,
    .containerNoHeader, .extractTooLong, .indexWithoutColour, .reservedOpcode, .reservedField, .slotOutOfRange,
    .sourceFrameInvalid, .illegalOperand, .zeroDimension, .capacityExceeded, .lengthOverflow]

/-- The table has a row for every cause. -/
theorem mem_causes (d : Detail) : d ∈ causes := by cases d <;> decide

/-- Settles O21: row by row of the table, whose codes all differ. -/
theorem kindIsTheHighNibbleOfTheDetail : Obligations.KindIsTheHighNibbleOfTheDetail := by
  have hkind : ∀ d ∈ causes, d ≠ .noError → d.kind.code = d.code / 16 + 1 := by decide
  have hbyte : ∀ d ∈ causes, d.code < 256 := by decide
  have hnodup : (causes.map Detail.code).Nodup := by decide
  exact ⟨fun d => hkind d (mem_causes d), rfl, rfl, fun d => hbyte d (mem_causes d),
    fun d d' => List.inj_on_of_nodup_map hnodup (mem_causes d) (mem_causes d')⟩

/-! ### The two ends of a command -/

/-- Settles O18: without an error the command committed, and a commit keeps ESTICKY. -/
theorem successfulCommandStatus : Obligations.SuccessfulCommandStatus := by
  intro i s t he herr
  obtain ⟨u, hu, rfl⟩ := committed_of_success he herr
  obtain ⟨-, -, -, -, hsticky, -⟩ := committed_frame hu
  exact ⟨rfl, rfl, rfl, rfl, rfl, rfl, hsticky⟩

/-- Settles O19: a meaning ends in the error entry or in the successful completion, and both set DONE. -/
theorem everyCommandEndsWithDone : Obligations.EveryCommandEndsWithDone := by
  intro i s
  obtain ⟨r, hr⟩ := exec_eq_conclude i s
  rw [hr]
  cases r with
  | error d => exact ⟨_, conclude_error s d, rfl, rfl⟩
  | ok u => exact ⟨_, conclude_ok s u, rfl, rfl⟩

/-! ### A write to CMD -/

/-- What a write to CMD can answer: the error entry with a real cause, or the commit of the command it decodes to. -/
theorem runCommand_next {w : Word} {s t : State} (h : runCommand w s = .next t) :
    (∃ d, d ≠ .noError ∧ t = raise d (startCommand w s)) ∨
      ∃ i u, decode w = .ok i ∧ Committed i (startCommand w s) u ∧ t = succeed u := by
  unfold runCommand at h
  split at h
  · next i hi =>
    rcases exec_next h with herror | ⟨u, hu, rfl⟩
    · exact .inl herror
    · exact .inr ⟨i, u, hi, hu, rfl⟩
  · next e _ =>
    obtain rfl := Host.Outcome.next.inj h
    exact .inl ⟨_, by cases e <;> decide, rfl⟩

/-- Settles O17: a successful completion has ERR = 0, so the write ended in the error entry. -/
theorem failingCommandWritesOnlyTheErrorRegisters : Obligations.FailingCommandWritesOnlyTheErrorRegisters := by
  intro s t w rest hp hb hs herr
  rw [step_of_idle hp hb (hostWriteReg 0 w) fun _ => rfl, hostWriteReg, if_pos rfl] at hs
  rcases runCommand_next hs with ⟨d, hd, rfl⟩ | ⟨i, u, -, -, rfl⟩
  · exact ⟨d, hd, rfl⟩
  · nomatch herr

/-! ### ESTICKY -/

/-- A write to CMD adds its own error to ESTICKY (60_exceptions R270, R272). -/
theorem runCommand_esticky {w : Word} {s t : State} (h : runCommand w s = .next t) :
    t.status.esticky = (s.status.esticky || t.status.err) := by
  rcases runCommand_next h with ⟨d, -, rfl⟩ | ⟨i, u, -, hu, rfl⟩
  · simp
  · obtain ⟨-, -, -, -, hsticky, -⟩ := committed_frame hu
    simp [hsticky]

theorem writeDataReg_status (s : State) (n : Nat) (v : Word) : (writeDataReg s n v).status = s.status := by
  unfold writeDataReg
  split <;> rfl

/-- An action of the host that answers a next state found the engine idle (10_state R44). -/
theorem whenIdle_next {s t : State} {k : Host.Outcome State Fault Refusal} (h : whenIdle s k = .next t) :
    k = .next t := by
  unfold whenIdle at h
  split at h
  · nomatch h
  · exact h

theorem hostLoad_status {b : BSlot} {X : Buffer} {s t : State} (h : hostLoad b X s = .next t) :
    t.status = s.status := by
  unfold hostLoad at h
  split at h
  · exact Host.Outcome.next.inj h ▸ rfl
  · nomatch h

theorem hostRead_status {b : BSlot} {s t : State} (h : hostRead b s = .next t) : t.status = s.status := by
  unfold hostRead at h
  split at h
  · exact Host.Outcome.next.inj h ▸ rfl
  · nomatch h

theorem hostFrame_status {f : FSlot} {s t : State} (h : hostFrame f s = .next t) : t.status = s.status := by
  unfold hostFrame at h
  split at h
  · exact Host.Outcome.next.inj h ▸ rfl
  · nomatch h

/-- What an action can do to STATUS: run the word it writes to CMD, or nothing (10_state R25). -/
def RunsCommandOrKeepsStatus (a : HostAction) (s t : State) : Prop :=
  (∃ w, cmdWord? s.params a = some w ∧ runCommand w s = .next t) ∨
    cmdWord? s.params a = none ∧ t.status = s.status

/-- Only a register write to CMD runs a command; every other action by number but reset keeps STATUS. -/
theorem act_status_byNumber {a : HostAction} {s t : State} (hn : ∀ addr x, a ≠ .atBus addr x) (hr : a ≠ .reset)
    (h : act a s = .next t) : RunsCommandOrKeepsStatus a s t := by
  cases a with
  | writeReg n v =>
    have h := whenIdle_next h
    unfold hostWriteReg at h
    split at h
    · next hn => exact .inl ⟨v, if_pos hn, h⟩
    · next hn => exact .inr ⟨if_neg hn, Host.Outcome.next.inj h ▸ writeDataReg_status s n v⟩
  | readReg n => exact .inr ⟨rfl, Host.Outcome.next.inj (whenIdle_next h) ▸ rfl⟩
  | load b X => exact .inr ⟨rfl, hostLoad_status (whenIdle_next h)⟩
  | readSlot b => exact .inr ⟨rfl, hostRead_status (whenIdle_next h)⟩
  | readFrame f => exact .inr ⟨rfl, hostFrame_status (whenIdle_next h)⟩
  | readTables => exact .inr ⟨rfl, Host.Outcome.next.inj (whenIdle_next h) ▸ rfl⟩
  | atBus addr x => exact absurd rfl (hn addr x)
  | reset => exact absurd rfl hr
  | supplyEntropy ent => exact .inr ⟨rfl, Host.Outcome.next.inj h ▸ rfl⟩

/-- An access at a bus address stops, or is an action by number that writes the same word to CMD, if any. -/
theorem act_status {a : HostAction} {s t : State} (hr : a ≠ .reset) (h : act a s = .next t) :
    RunsCommandOrKeepsStatus a s t := by
  by_cases hn : ∃ addr x, a = .atBus addr x
  · obtain ⟨addr, x, rfl⟩ := hn
    rcases act_atBus addr x s with hs | hs | hs | ⟨a', hr', hn', hs, hw⟩
    · nomatch hs.symm.trans h
    · nomatch hs.symm.trans h
    · nomatch hs.symm.trans h
    · rw [RunsCommandOrKeepsStatus, hw]
      exact act_status_byNumber hn' hr' (hs ▸ h)
  · exact act_status_byNumber (fun addr x he => hn ⟨addr, x, he⟩) hr h

/-- Settles O20: reset clears ESTICKY, a write to CMD adds its error to it, and any other action keeps STATUS. -/
theorem onlyResetClearsTheStickyError : Obligations.OnlyResetClearsTheStickyError := by
  intro s t a rest hp hs
  rw [step_of_pending hp] at hs
  by_cases hr : a = .reset
  · subst hr
    obtain rfl := Host.Outcome.next.inj hs
    exact ⟨fun _ => rfl, fun h => absurd rfl h, fun ⟨_, hw⟩ => (nomatch hw), nofun⟩
  · rcases act_status hr hs with ⟨w, hw, hrun⟩ | ⟨hw, hstatus⟩
    · have hsticky : t.status.esticky = (s.status.esticky || t.status.err) := (runCommand_esticky hrun :)
      exact ⟨fun h => absurd h hr, fun _ h => by simp [hsticky, h], fun _ h => by simp [hsticky, h],
        fun ht h => ⟨⟨w, hw⟩, by simpa [hsticky, h] using ht⟩⟩
    · have hsticky : t.status.esticky = s.status.esticky := congrArg Status.esticky hstatus
      exact ⟨fun h => absurd h hr, fun _ h => hsticky.trans h, fun ⟨w, hw'⟩ => (nomatch hw.symm.trans hw'),
        fun ht h => nomatch h.symm.trans (hsticky.symm.trans ht)⟩

end Sys2Proof.Machine

/-! PROOFS. The idle step, the host's actions while BUSY, and reset (spec 10_state R28, R43, R44; 70 R301 to R304). -/

namespace Sys2Proof.Machine

/-! ### The idle step -/

/-- With no action pending, a step does nothing (70 R302, R314; log 4). -/
theorem step_of_no_pending {s : State} (h : s.pending = []) : step s = .next s := by
  simp only [step, h]

/-- Settles O8: a step without a pending action is the idle step. -/
theorem idleStepChangesNothing : Obligations.IdleStepChangesNothing := fun _ => step_of_no_pending

/-! ### The host while BUSY -/

/-- A busy engine refuses the host's action (70 R304, 93 V13). -/
@[simp] theorem whenIdle_of_busy {s : State} (h : s.status.busy = true) (k : Host.Outcome State Fault Refusal) :
    whenIdle s k = .refused .hostWhileBusy := if_pos h

/-- Every action but reset and the entropy supply waits for an idle engine (70 R303, R304, 10_state R40). -/
theorem act_eq_whenIdle {a : HostAction} (hr : a ≠ .reset) (he : ∀ ent, a ≠ .supplyEntropy ent) (s : State) :
    ∃ k, act a s = whenIdle s k := by
  cases a with
  | writeReg n v => exact ⟨_, rfl⟩
  | readReg n => exact ⟨_, rfl⟩
  | load b X => exact ⟨_, rfl⟩
  | readSlot b => exact ⟨_, rfl⟩
  | readFrame f => exact ⟨_, rfl⟩
  | readTables => exact ⟨_, rfl⟩
  | atBus addr x => exact ⟨_, rfl⟩
  | reset => exact absurd rfl hr
  | supplyEntropy ent => exact absurd rfl (he ent)

/-- Settles O13: the action waits for an idle engine, and this one is busy. -/
theorem busyHostActionsAreRefused : Obligations.BusyHostActionsAreRefused := by
  intro s a rest hp hbusy hr he
  obtain ⟨k, hk⟩ := act_eq_whenIdle hr he { s with pending := rest }
  rw [step_of_pending hp, hk, whenIdle_of_busy (by exact hbusy)]

/-! ### Reset -/

/-- After reset every register number reads 0 (70 R301, 10_state R28, R43). -/
@[simp] theorem readReg_resetBlock (s : State) (n : Nat) : readReg (resetBlock s) n = 0 := by
  unfold readReg
  split <;> rfl

/-- Settles O15: the registers by `readReg_resetBlock`, the slots by `initial_buf?` and `initial_frame?`, the tables by
`mem_zeroTable`. -/
theorem resetGivesEveryResetValue : Obligations.ResetGivesEveryResetValue := by
  intro s rest hp
  refine ⟨_, step_of_pending hp, rfl, rfl, rfl, rfl, rfl, rfl, rfl, rfl, rfl, readReg_resetBlock _, ?_⟩
  exact ⟨fun _ hb => initial_buf? hb, resetBlock_nBslot _, initial_frame? _ _, resetBlock_nFslot _, rfl, rfl,
    length_zeroTable, length_zeroTable, fun _ => mem_zeroTable, fun _ => mem_zeroTable⟩

end Sys2Proof.Machine
